-- ==== Sys2Proof/Word.lean ====
section
/-! DEFINITION. The word types of the block: bytes, 16-bit halves and bit sequences. -/

namespace Sys2Proof

/-- `u8` of 00_scope.md §4. -/
abbrev Byte := BitVec 8

/-- `u16` of 00_scope.md §4. -/
abbrev Half := BitVec 16

/-- A bit sequence of 00_scope.md §4: position 0 is the earliest bit. -/
abbrev Bits := List Bool

end Sys2Proof
end

