-- ==== Sys2Proof/Config.lean ====
section
/-! DEFINITION. The configuration record CFG (00_scope.md R3), and the OPEN parameters and free values, which are
opaque constants without a body. -/

namespace Sys2Proof

/-- The value type of the coordinate-conversion collaborator (44_subframe_parser.md R182), DESIGN CHOICE
(notes/assumptions/5.md): the spec leaves the type open; its values are named by integers. -/
abbrev GeoVal := Int

/-- The type of the handler's opaque context (45_stage_control.md R207), DESIGN CHOICE
(notes/assumptions/6.md): a value of any type, named by a natural number. -/
abbrev HandlerCtx := Nat

/-- The functions that a value of the field `GEO_POS` may be (44_subframe_parser.md R182), by the number that
names them in CFG: each is total and deterministic, and nothing else is known of it. -/
opaque Config.geoPos : Nat → Int → Int → Int → GeoVal × GeoVal × GeoVal

/-- The functions that a value of the field `GEO_VEL` may be (44_subframe_parser.md R182), by the number that
names them in CFG. -/
opaque Config.geoVel : Nat → Int → Int → Int → Int → Int → Int → GeoVal × GeoVal × GeoVal

/-- `GEO_ZERO` of the default configuration (44_subframe_parser.md R182): OPEN. -/
opaque Config.geoZero : GeoVal

/-- `HANDLER_CTX` of the default configuration (45_stage_control.md R207): OPEN. -/
opaque Config.handlerCtx : HandlerCtx

/-- `FRAME_FIFO_DEPTH` of the default configuration is this number plus one (92_eei_decisions.md D10: OPEN,
at least 1). -/
opaque Config.extraFifoDepth : Nat

/-- The `draw(u8)` of 42_reed_solomon.md R147: the byte left in one position of a Reed–Solomon block that
failed, a free value for each number drawn (notes/assumptions/4.md). -/
opaque Config.rsDraw : Nat → Byte

/-- Whether the directive RUN of 30_encoding.md R84 takes the Framer (true) or the Decoder when both have
an enabled step: "in any order", a free value (notes/assumptions/16.md). -/
opaque Config.runOrder : Nat → Bool

/-- `PRN[i]` where the table `PRN[0..63]` has no byte: a free value for each index (00_scope.md R3 gives the
table 64 bytes and the period a row of its own; DESIGN CHOICE, notes/assumptions/24.md). -/
opaque Config.prnBeyond : Nat → Byte

/-- The static configuration record `CFG` (00_scope.md R3), one field for each name of its table but `n`, which
is derived, and `GEO_ZERO` (44_subframe_parser.md R182). A function of the table is named by a number, because
State is plain data (notes/assumptions/5.md). -/
structure Cfg where
  /-- `SYNC_LEN`, in bytes. -/
  syncLen : Nat
  /-- `SYNC_PATTERN`: the first-transmitted bit is bit n-1. Any number, so that R4 has what to refuse. -/
  syncPattern : Nat
  /-- `FRAME_LEN`, F. -/
  frameLen : Nat
  /-- `FRAME_FIFO_DEPTH`. -/
  fifoDepth : Nat
  /-- `PRN_PERIOD`. -/
  prnPeriod : Nat
  /-- `PRN[0..63]`. -/
  prn : Vector Byte 64
  /-- `WHITEN_MASK`. -/
  whitenMask : Byte
  /-- `SYNC_OFF`; no rule of the Decoder reads the sync header (41_descrambler.md R135). -/
  syncOff : Nat
  /-- `SYNC_BYTES`. -/
  syncBytes : Nat
  /-- `PAR_OFF`. -/
  parOff : Nat
  /-- `PAR_LEN`. -/
  parLen : Nat
  /-- `FTYPE_OFF`. -/
  ftypeOff : Nat
  /-- `EXT_FLAG`. -/
  extFlag : Byte
  /-- `DATA_OFF`. -/
  dataOff : Nat
  /-- `DATA_LEN_NORMAL`. -/
  dataLenNormal : Nat
  /-- `DATA_LEN_EXT`. -/
  dataLenExt : Nat
  /-- `GF_POLY`, a polynomial of degree 8; R4 does not ask for its bit 8 (notes/assumptions/27.md). -/
  gfPoly : BitVec 9
  /-- `RS_FCR`. -/
  rsFcr : Nat
  /-- `RS_PRIM`. -/
  rsPrim : Nat
  /-- `RS_T`. -/
  rsT : Nat
  /-- `RS_NROOTS`. -/
  rsNroots : Nat
  /-- `RS_N`. -/
  rsN : Nat
  /-- `RS_K`. -/
  rsK : Nat
  /-- `RS_ILV`. -/
  rsIlv : Nat
  /-- `RS_MSG_OFF`. -/
  rsMsgOff : Nat
  /-- `RS_MSG_NORMAL`. -/
  rsMsgNormal : Nat
  /-- `RS_MSG_EXT`. -/
  rsMsgExt : Nat
  /-- `CRC_POLY`. -/
  crcPoly : Half
  /-- `CRC_INIT`. -/
  crcInit : Half
  /-- `CRC_XOROUT`. -/
  crcXorout : Half
  /-- `SF_OVERHEAD`: what the walk adds to a subframe's payload length (44_subframe_parser.md R173). -/
  sfOverhead : Nat
  /-- `ST_STATUS`. -/
  stStatus : Byte
  /-- `ST_PTU`. -/
  stPtu : Byte
  /-- `ST_GPSPOS`. -/
  stGpspos : Byte
  /-- `ST_GPSINFO`. -/
  stGpsinfo : Byte
  /-- `ST_GPSRAW`. -/
  stGpsraw : Byte
  /-- `ST_XDATA`. -/
  stXdata : Byte
  /-- `ST_EMPTY`. -/
  stEmpty : Byte
  /-- `STATUS_MIN_LEN`. -/
  statusMinLen : Nat
  /-- `GPSPOS_MIN_LEN`. -/
  gpsposMinLen : Nat
  /-- `STATUS_SEQ_OFF`. -/
  statusSeqOff : Nat
  /-- `STATUS_SERIAL_OFF`. -/
  statusSerialOff : Nat
  /-- `SERIAL_LEN`. -/
  serialLen : Nat
  /-- `STATUS_FRAG_SEQ_OFF`. -/
  statusFragSeqOff : Nat
  /-- `STATUS_FRAG_DATA_OFF`. -/
  statusFragDataOff : Nat
  /-- `GPS_X_OFF`. -/
  gpsXOff : Nat
  /-- `GPS_Y_OFF`. -/
  gpsYOff : Nat
  /-- `GPS_Z_OFF`. -/
  gpsZOff : Nat
  /-- `GPS_VX_OFF`. -/
  gpsVxOff : Nat
  /-- `GPS_VY_OFF`. -/
  gpsVyOff : Nat
  /-- `GPS_VZ_OFF`. -/
  gpsVzOff : Nat
  /-- `CAL_FRAG_SIZE`. -/
  calFragSize : Nat
  /-- `CAL_FRAG_COUNT`. -/
  calFragCount : Nat
  /-- `CAL_LEN`. -/
  calLen : Nat
  /-- `BK_CAL_OFFSET`. -/
  bkCalOffset : Nat
  /-- `BK_DISABLED_RAW`. -/
  bkDisabledRaw : Half
  /-- `BK_DISABLED`. -/
  bkDisabled : Int
  /-- `GPS_SCALE`, numerator and denominator. The block never applies it: the collaborator does
  (44_subframe_parser.md R182). -/
  gpsScale : Nat × Nat
  /-- `GEO_POS`, by its number in `Config.geoPos`. -/
  geoPos : Nat
  /-- `GEO_VEL`, by its number in `Config.geoVel`. -/
  geoVel : Nat
  /-- `GEO_ZERO` (44_subframe_parser.md R182). -/
  geoZero : GeoVal
  /-- `HANDLER_CTX`: handed to the handler, never read by the block. -/
  handlerCtx : HandlerCtx
  deriving DecidableEq, Repr

/-- Which of several codewords CORRECT answers, by the configuration, K and the received word: only where
42_reed_solomon.md R146 admits more than one and its "unique, rule R142" fails, a free value (DESIGN CHOICE,
notes/assumptions/26.md). -/
opaque Config.rsChoice : Cfg → Nat → List Byte → Nat

end Sys2Proof
end

