-- ==== Sys2Proof/Machine/Defaults.lean ====
section
/-! DEFINITION. The default configuration (00_scope.md R3), the PRN table (41_descrambler.md R131), and the
checks of a configuration (00_scope.md R4). -/

namespace Sys2Proof

/-- The PRN table of 41_descrambler.md R131, eight bytes a row. -/
def prnTable : Vector Byte 64 := #v[
  0x96, 0x83, 0x3E, 0x51, 0xB1, 0x49, 0x08, 0x98,
  0x32, 0x05, 0x59, 0x0E, 0xF9, 0x44, 0xC6, 0x26,
  0x21, 0x60, 0xC2, 0xEA, 0x79, 0x5D, 0x6D, 0xA1,
  0x54, 0x69, 0x47, 0x0C, 0xDC, 0xE8, 0x5C, 0xF1,
  0xF7, 0x76, 0x82, 0x7F, 0x07, 0x99, 0xA2, 0x2C,
  0x93, 0x7C, 0x30, 0x63, 0xF5, 0x10, 0x2E, 0x61,
  0xD0, 0xBC, 0xB4, 0xB6, 0x06, 0xAA, 0xF4, 0x23,
  0x78, 0x6E, 0x3B, 0xAE, 0xBF, 0x7B, 0x4C, 0xC1]

/-- The defaults of 00_scope.md R3. -/
def Cfg.rs41 : Cfg where
  syncLen := 8
  syncPattern := 0x086D53884469481F
  frameLen := 518
  fifoDepth := Config.extraFifoDepth + 1
  prnPeriod := 64
  prn := prnTable
  whitenMask := 0xFF
  syncOff := 0
  syncBytes := 8
  parOff := 8
  parLen := 48
  ftypeOff := 56
  extFlag := 0xF0
  dataOff := 57
  dataLenNormal := 263
  dataLenExt := 461
  gfPoly := 0x11D
  rsFcr := 0
  rsPrim := 1
  rsT := 12
  rsNroots := 24
  rsN := 255
  rsK := 231
  rsIlv := 2
  rsMsgOff := 56
  rsMsgNormal := 132
  rsMsgExt := 231
  crcPoly := 0x1021
  crcInit := 0xFFFF
  crcXorout := 0x0000
  sfOverhead := 4
  stStatus := 0x79
  stPtu := 0x7A
  stGpspos := 0x7B
  stGpsinfo := 0x7C
  stGpsraw := 0x7D
  stXdata := 0x7E
  stEmpty := 0x76
  statusMinLen := 40
  gpsposMinLen := 18
  statusSeqOff := 0
  statusSerialOff := 2
  serialLen := 8
  statusFragSeqOff := 23
  statusFragDataOff := 24
  gpsXOff := 0
  gpsYOff := 4
  gpsZOff := 8
  gpsVxOff := 12
  gpsVyOff := 14
  gpsVzOff := 16
  calFragSize := 16
  calFragCount := 51
  calLen := 816
  bkCalOffset := 0x316
  bkDisabledRaw := 0xFFFF
  bkDisabled := -1
  gpsScale := (1, 100)
  geoPos := 0
  geoVel := 0
  geoZero := Config.geoZero
  handlerCtx := Config.handlerCtx

/-- `n = 8*SYNC_LEN` (00_scope.md R3, R4). -/
def Cfg.syncBits (c : Cfg) : Nat := 8 * c.syncLen

/-- `8F`: the bits of one frame. -/
def Cfg.frameBits (c : Cfg) : Nat := 8 * c.frameLen

/-- `K` of 42_reed_solomon.md R144: the message symbols of a codeword, by the mode before correction. -/
def Cfg.msgLen (c : Cfg) (ext : Bool) : Nat := if ext then c.rsMsgExt else c.rsMsgNormal

/-- `L` of 44_subframe_parser.md R172: the length of the data region, by the mode after correction. -/
def Cfg.regionLen (c : Cfg) (ext : Bool) : Nat := if ext then c.dataLenExt else c.dataLenNormal

/-- The framer group of 00_scope.md R4. -/
def Cfg.framerOk (c : Cfg) : Bool :=
  decide (1 ≤ c.syncLen ∧ c.syncLen ≤ 8) && decide (c.syncPattern < 2 ^ c.syncBits) &&
    decide (c.syncLen ≤ c.frameLen) && decide (1 ≤ c.fifoDepth)

/-- The decoder group of 00_scope.md R4. -/
def Cfg.decoderOk (c : Cfg) : Bool :=
  decide (c.dataOff + c.dataLenExt ≤ c.frameLen) &&
    decide (c.rsMsgOff + c.rsIlv * c.rsMsgExt ≤ c.frameLen) &&
    decide (c.rsMsgNormal ≤ c.rsK ∧ c.rsMsgExt ≤ c.rsK) &&
    decide (c.rsK + c.rsNroots = c.rsN ∧ c.rsN = 255 ∧ c.rsNroots = 2 * c.rsT) &&
    decide (c.parLen = c.rsIlv * c.rsNroots) &&
    decide (c.calLen = c.calFragSize * c.calFragCount) &&
    decide (c.bkCalOffset + 2 ≤ c.calLen) &&
    decide (c.statusFragDataOff + c.calFragSize ≤ c.statusMinLen ∧
      c.statusSerialOff + c.serialLen ≤ c.statusMinLen) &&
    decide (c.gpsVzOff + 2 ≤ c.gpsposMinLen)

/-- The bounds that the layout rules presuppose and R4 does not list (notes/assumptions/21.md): the
frame-type byte, the parity and both modes' data lie in the frame, every payload field lies in the minimum
payload, and the walk's overhead covers a subframe's header and CRC (30_encoding.md R75). The defaults meet
it. -/
def Cfg.layoutOk (c : Cfg) : Bool :=
  decide (c.ftypeOff < c.frameLen) && decide (c.parOff + c.parLen ≤ c.frameLen) &&
    decide (c.dataOff + c.dataLenNormal ≤ c.frameLen) &&
    decide (c.rsMsgOff + c.rsIlv * c.rsMsgNormal ≤ c.frameLen) &&
    decide (c.statusSeqOff + 2 ≤ c.statusMinLen ∧ c.statusFragSeqOff < c.statusMinLen) &&
    decide (c.gpsXOff + 4 ≤ c.gpsposMinLen ∧ c.gpsYOff + 4 ≤ c.gpsposMinLen ∧
      c.gpsZOff + 4 ≤ c.gpsposMinLen) &&
    decide (c.gpsVxOff + 2 ≤ c.gpsposMinLen ∧ c.gpsVyOff + 2 ≤ c.gpsposMinLen) &&
    decide (4 ≤ c.sfOverhead)

end Sys2Proof
end

