-- ==== Sys2Proof/Syntax.lean ====
section
/-! DEFINITION. The operations of the block: one constructor of `Instr` per row of spec/opcode_table.json,
the host operations, and the events the host and the scheduler hand to the block. -/

namespace Sys2Proof

/-- The operations of the block (00_scope.md §1: it has no instruction set; the checklist's instructions are
the micro-steps, the subframe type codes, the pipeline stages and the host operations). -/
inductive Instr where
  /-- SF_STATUS (44_subframe_parser.md R177), with its payload and stored CRC (30_encoding.md R75). -/
  | sfStatus (payload : List Byte) (crc : Half)
  /-- SF_PTU (R183). -/
  | sfPtu (payload : List Byte) (crc : Half)
  /-- SF_GPSPOS (R181). -/
  | sfGpspos (payload : List Byte) (crc : Half)
  /-- SF_GPSINFO (R184). -/
  | sfGpsinfo (payload : List Byte) (crc : Half)
  /-- SF_GPSRAW (R185). -/
  | sfGpsraw (payload : List Byte) (crc : Half)
  /-- SF_XDATA (R186). -/
  | sfXdata (payload : List Byte) (crc : Half)
  /-- SF_EMPTY (R187). -/
  | sfEmpty (payload : List Byte) (crc : Half)
  /-- SF_UNKNOWN (R188), with its tag. -/
  | sfUnknown (tag : Byte) (payload : List Byte) (crc : Half)
  /-- FT_EXTENDED (30_encoding.md R73). -/
  | ftExtended
  /-- FT_NORMAL (30_encoding.md R82), with the byte read. -/
  | ftNormal (value : Byte)
  /-- FR_PULL (40_framer.md R101). -/
  | frPull
  /-- FR_READ_FAIL (40_framer.md R102). -/
  | frReadFail
  /-- FR_CORRELATE (40_framer.md R103). -/
  | frCorrelate
  /-- FR_EMIT (40_framer.md R108). -/
  | frEmit
  /-- FR_PUBLISH_FAIL (40_framer.md R111). -/
  | frPublishFail
  /-- DEC_FRAME (44_subframe_parser.md R170). -/
  | decFrame
  /-- DESCRAMBLE (41_descrambler.md R130). -/
  | descramble
  /-- DEINTERLEAVE(b) (42_reed_solomon.md R145). -/
  | deinterleave (b : Nat)
  /-- RS_CORRECT (42_reed_solomon.md R146). -/
  | rsCorrect
  /-- REINTERLEAVE(b) (42_reed_solomon.md R148). -/
  | reinterleave (b : Nat)
  /-- FEC_STAGE (42_reed_solomon.md R149). -/
  | fecStage
  /-- CRC16(R, o, len) (43_crc16.md R160). -/
  | crc16 (o : Nat) (len : Nat)
  /-- CRC_OK(R, off, len) (43_crc16.md R161). -/
  | crcOk (off : Nat) (len : Nat)
  /-- MODE (44_subframe_parser.md R172). -/
  | mode
  /-- WALK (44_subframe_parser.md R173). -/
  | walk
  /-- CAL_MERGE(k, data) (44_subframe_parser.md R178). -/
  | calMerge (k : Byte) (data : List Byte)
  /-- CAL_COMPLETE_CHECK (44_subframe_parser.md R179). -/
  | calCompleteCheck
  /-- BURSTKILL (44_subframe_parser.md R180). -/
  | burstkill
  /-- DELIVER_RECORD (44_subframe_parser.md R190). -/
  | deliverRecord
  /-- RESET with the configuration given (70_reset_and_hazards.md R250). -/
  | reset (cfg : Cfg)
  /-- PUSH b_1 … b_m (45_stage_control.md R200). -/
  | push (bytes : List Byte)
  /-- PUSH_END (R201). -/
  | pushEnd
  /-- CLOSE_OUTPUT (R202). -/
  | closeOutput
  /-- QUIESCE FRAMER (R203). -/
  | quiesceFramer
  /-- QUIESCE DECODER (R204). -/
  | quiesceDecoder
  /-- REBIND FRAMER (R205). -/
  | rebindFramer
  /-- RESUME FRAMER (R206). -/
  | resumeFramer
  /-- RESUME DECODER (R206). -/
  | resumeDecoder
  deriving DecidableEq, Repr

/-- The host operations (45_stage_control.md §1 and 70_reset_and_hazards.md R250): what the host may ask for. -/
inductive HostOp where
  /-- RESET. -/
  | reset (cfg : Cfg)
  /-- PUSH. -/
  | push (bytes : List Byte)
  /-- PUSH_END. -/
  | pushEnd
  /-- CLOSE_OUTPUT. -/
  | closeOutput
  /-- QUIESCE FRAMER. -/
  | quiesceFramer
  /-- QUIESCE DECODER. -/
  | quiesceDecoder
  /-- REBIND FRAMER. -/
  | rebindFramer
  /-- RESUME FRAMER. -/
  | resumeFramer
  /-- RESUME DECODER. -/
  | resumeDecoder
  deriving DecidableEq, Repr

/-- The operation a host operation is. -/
def HostOp.toInstr : HostOp → Instr
  | .reset cfg => .reset cfg
  | .push bytes => .push bytes
  | .pushEnd => .pushEnd
  | .closeOutput => .closeOutput
  | .quiesceFramer => .quiesceFramer
  | .quiesceDecoder => .quiesceDecoder
  | .rebindFramer => .rebindFramer
  | .resumeFramer => .resumeFramer
  | .resumeDecoder => .resumeDecoder

/-- What happens next, as the host and its scheduler choose (20_memory.md R58, 45_stage_control.md R211):
every interleaving is a list of these (notes/assumptions/1.md). -/
inductive Event where
  /-- The Framer takes its enabled step, if it has one. -/
  | framer
  /-- The Decoder takes its enabled step, if it has one. -/
  | decoder
  /-- The directive RUN of 30_encoding.md R84. -/
  | run
  /-- A host operation. -/
  | host (op : HostOp)
  deriving DecidableEq, Repr

end Sys2Proof
end

