-- ==== Sys2Proof/WellFormed.lean ====
section
/-! DEFINITION. Which operands an operation may carry under a configuration. -/

namespace Sys2Proof

/-- The tags that 30_encoding.md R77 names. -/
def Cfg.namedTags (c : Cfg) : List Byte :=
  [c.stStatus, c.stGpspos, c.stPtu, c.stGpsinfo, c.stGpsraw, c.stXdata, c.stEmpty]

/-- The named tags differ, as the defaults do; R4 does not ask for it. -/
def Cfg.tagsDistinct (c : Cfg) : Bool := decide c.namedTags.Nodup

/-- A payload length fits its length byte (30_encoding.md R75). -/
def payloadFits (payload : List Byte) : Bool := decide (payload.length ≤ 255)

/-- Well-formed operands: a payload of at most 255 bytes (30_encoding.md R75), a tag of SF_UNKNOWN outside the
named ones (R77), a normal frame-type byte other than EXT_FLAG (R82), a block index below RS_ILV
(42_reed_solomon.md R145), a CRC length of at most 255 (43_crc16.md R160), a fragment of CAL_FRAG_SIZE bytes
(44_subframe_parser.md R178) and a configuration that meets the framer group (00_scope.md R4). -/
def Instr.wf (c : Cfg) : Instr → Bool
  | .sfStatus payload _ => payloadFits payload
  | .sfPtu payload _ => payloadFits payload
  | .sfGpspos payload _ => payloadFits payload
  | .sfGpsinfo payload _ => payloadFits payload
  | .sfGpsraw payload _ => payloadFits payload
  | .sfXdata payload _ => payloadFits payload
  | .sfEmpty payload _ => payloadFits payload
  | .sfUnknown tag payload _ => payloadFits payload && !(c.namedTags.contains tag)
  | .ftExtended => true
  | .ftNormal value => value != c.extFlag
  | .frPull => true
  | .frReadFail => true
  | .frCorrelate => true
  | .frEmit => true
  | .frPublishFail => true
  | .decFrame => true
  | .descramble => true
  | .deinterleave b => decide (b < c.rsIlv)
  | .rsCorrect => true
  | .reinterleave b => decide (b < c.rsIlv)
  | .fecStage => true
  | .crc16 _ len => decide (len ≤ 255)
  | .crcOk _ len => decide (len ≤ 255)
  | .mode => true
  | .walk => true
  | .calMerge _ data => decide (data.length = c.calFragSize)
  | .calCompleteCheck => true
  | .burstkill => true
  | .deliverRecord => true
  | .reset cfg => cfg.framerOk
  | .push _ => true
  | .pushEnd => true
  | .closeOutput => true
  | .quiesceFramer => true
  | .quiesceDecoder => true
  | .rebindFramer => true
  | .resumeFramer => true
  | .resumeDecoder => true

end Sys2Proof
end

