-- ==== Sys2Proof/Decode.lean ====
section
/-! DEFINITION. Decoding of the two encoded formats, the subframe (30_encoding.md R75 to R77) and the
frame-type byte (R73, R82), and the encoder that writes them back. -/

namespace Sys2Proof

/-- Why no subframe is read. -/
inductive DecodeError where
  /-- Fewer than two bytes are left: the header does not exist (44_subframe_parser.md R173). -/
  | noHeader
  /-- The subframe would end beyond the region (44_subframe_parser.md R174). -/
  | beyondRegion
  /-- The walk takes the subframe as inside the region, but its CRC bytes lie beyond it: only with a
  `SF_OVERHEAD` below 4 (notes/assumptions/9.md). -/
  | noCrc
  deriving DecidableEq, Repr

/-- The rows of 30_encoding.md R77. -/
inductive SubKind where
  | status | gpspos | ptu | gpsinfo | gpsraw | xdata | empty | unknown
  deriving DecidableEq, Repr

/-- The fields of a subframe (30_encoding.md R75). -/
structure Subframe where
  tag : Byte
  payload : List Byte
  crc : Half
  deriving DecidableEq, Repr

/-- The row a tag selects, tested in the order of 44_subframe_parser.md R176. -/
def subKind (c : Cfg) (tag : Byte) : SubKind :=
  if tag = c.stStatus then .status
  else if tag = c.stGpspos then .gpspos
  else if tag = c.stPtu then .ptu
  else if tag = c.stGpsinfo then .gpsinfo
  else if tag = c.stGpsraw then .gpsraw
  else if tag = c.stXdata then .xdata
  else if tag = c.stEmpty then .empty
  else .unknown

/-- Two bytes as a `u16`, the lower address less significant (20_memory.md R55). -/
def halfOfBytes (lo hi : Byte) : Half := hi ++ lo

/-- The low byte of a `u16`. -/
def lowByte (h : Half) : Byte := h.extractLsb' 0 8

/-- The high byte of a `u16`. -/
def highByte (h : Half) : Byte := h.extractLsb' 8 8

/-- The subframe at the head of `bytes`, the rest of the region, and what follows it: a header of tag and
length, the payload, and the stored CRC, low byte first (30_encoding.md R75); refused when the header or the
`len + SF_OVERHEAD` bytes that the walk steps over do not fit (44_subframe_parser.md R173, R174). -/
def decodeSubframe (c : Cfg) (bytes : List Byte) : Except DecodeError (Subframe × List Byte) :=
  match bytes with
  | tag :: len :: rest =>
    if bytes.length < len.toNat + c.sfOverhead then .error .beyondRegion
    else
      match rest.drop len.toNat with
      | lo :: hi :: _ =>
        .ok (⟨tag, rest.take len.toNat, halfOfBytes lo hi⟩, bytes.drop (len.toNat + c.sfOverhead))
      | _ => .error .noCrc
  | _ => .error .noHeader

/-- The operation a subframe stands for (30_encoding.md R77). -/
def Subframe.toInstr (c : Cfg) (sf : Subframe) : Instr :=
  match subKind c sf.tag with
  | .status => .sfStatus sf.payload sf.crc
  | .gpspos => .sfGpspos sf.payload sf.crc
  | .ptu => .sfPtu sf.payload sf.crc
  | .gpsinfo => .sfGpsinfo sf.payload sf.crc
  | .gpsraw => .sfGpsraw sf.payload sf.crc
  | .xdata => .sfXdata sf.payload sf.crc
  | .empty => .sfEmpty sf.payload sf.crc
  | .unknown => .sfUnknown sf.tag sf.payload sf.crc

/-- The operation at the head of a region, and the bytes after it. -/
def decode (c : Cfg) (bytes : List Byte) : Except DecodeError (Instr × List Byte) :=
  match decodeSubframe c bytes with
  | .ok (sf, after) => .ok (sf.toInstr c, after)
  | .error e => .error e

/-- The operation a frame-type byte stands for (30_encoding.md R73, R82): total, no value is an error. -/
def decodeFtype (c : Cfg) (value : Byte) : Instr :=
  if value = c.extFlag then .ftExtended else .ftNormal value

/-- The bytes of a subframe (30_encoding.md R75). -/
def encodeSubframe (sf : Subframe) : List Byte :=
  sf.tag :: BitVec.ofNat 8 sf.payload.length :: sf.payload ++ [lowByte sf.crc, highByte sf.crc]

/-- The bytes of an encoded operation; the rows of the opcode table without a bit encoding have none. -/
def encode (c : Cfg) : Instr → Option (List Byte)
  | .sfStatus payload crc => some (encodeSubframe ⟨c.stStatus, payload, crc⟩)
  | .sfPtu payload crc => some (encodeSubframe ⟨c.stPtu, payload, crc⟩)
  | .sfGpspos payload crc => some (encodeSubframe ⟨c.stGpspos, payload, crc⟩)
  | .sfGpsinfo payload crc => some (encodeSubframe ⟨c.stGpsinfo, payload, crc⟩)
  | .sfGpsraw payload crc => some (encodeSubframe ⟨c.stGpsraw, payload, crc⟩)
  | .sfXdata payload crc => some (encodeSubframe ⟨c.stXdata, payload, crc⟩)
  | .sfEmpty payload crc => some (encodeSubframe ⟨c.stEmpty, payload, crc⟩)
  | .sfUnknown tag payload crc => some (encodeSubframe ⟨tag, payload, crc⟩)
  | .ftExtended => some [c.extFlag]
  | .ftNormal value => some [value]
  | .frPull => none
  | .frReadFail => none
  | .frCorrelate => none
  | .frEmit => none
  | .frPublishFail => none
  | .decFrame => none
  | .descramble => none
  | .deinterleave _ => none
  | .rsCorrect => none
  | .reinterleave _ => none
  | .fecStage => none
  | .crc16 _ _ => none
  | .crcOk _ _ => none
  | .mode => none
  | .walk => none
  | .calMerge _ _ => none
  | .calCompleteCheck => none
  | .burstkill => none
  | .deliverRecord => none
  | .reset _ => none
  | .push _ => none
  | .pushEnd => none
  | .closeOutput => none
  | .quiesceFramer => none
  | .quiesceDecoder => none
  | .rebindFramer => none
  | .resumeFramer => none
  | .resumeDecoder => none

/-- How many bytes the longest encoded operation has: a header, 255 payload bytes and a CRC (30_encoding.md
R75). -/
def longestBytes : Nat := 2 + 255 + 2

/-- The bytes that a word of the opcode table stands for: its `nbits` bits, least significant byte first, and
zeros up to the longest operation. -/
def wordBytes (nbits w : Nat) : List Byte :=
  (List.range longestBytes).map fun j => BitVec.ofNat 8 ((w % 2 ^ nbits) / 256 ^ j)

/-- Whether a word of the opcode table is the frame-type row FT_EXTENDED. The table's two formats share bits
7..0; its fully specified rows are matched before its wildcard rows SF_UNKNOWN and FT_NORMAL ("lowest
priority"), and no named tag equals EXT_FLAG (notes/assumptions/14.md). -/
def isFtypeWord (c : Cfg) (nbits w : Nat) : Bool :=
  decide (nbits ≤ 8) && BitVec.ofNat 8 (w % 2 ^ nbits) == c.extFlag && !(c.namedTags.contains c.extFlag)

/-- The operation that a word of spec/opcode_table.json decodes to, under the default configuration. -/
def decodeTableWord (nbits w : Nat) : Option Instr :=
  if isFtypeWord Cfg.rs41 nbits w then some (decodeFtype Cfg.rs41 (BitVec.ofNat 8 (w % 2 ^ nbits)))
  else match decode Cfg.rs41 (wordBytes nbits w) with
    | .ok (i, _) => some i
    | .error _ => none

end Sys2Proof
end

