-- ==== Sys2Proof/Machine/State.lean ====
section
/-! DEFINITION. The state of the block (10_state.md), its faults and refusals, and the state after reset
(70_reset_and_hazards.md R250). -/

namespace Sys2Proof.Machine

/-- The run status of a stage (10_state.md R20). -/
inductive RunStatus where
  | stopped | running
  deriving DecidableEq, Repr

/-- The Framer's two-phase state tag (10_state.md R21). -/
inductive Phase where
  | read | deoffset
  deriving DecidableEq, Repr

/-- An item of `IN` (10_state.md R26): a byte, or the END marker. -/
inductive InItem where
  | byte (value : Byte) | eos
  deriving DecidableEq, Repr

/-- The two agents (00_scope.md R1). -/
inductive Agent where
  | framer | decoder
  deriving DecidableEq, Repr

/-- The error codes (60_exceptions.md R221). -/
inductive ErrCode where
  | eRead | ePublish
  deriving DecidableEq, Repr

/-- The numeric value of an error code (60_exceptions.md R221); no rule compares it. -/
def ErrCode.value : ErrCode → Nat
  | .eRead => 1
  | .ePublish => 2

/-- The Framer's state (10_state.md R20 to R24). The cursor `FR.cur` is the length of `buf`. -/
structure Framer where
  stage : RunStatus
  phase : Phase
  buf : Bits
  syncOff : Nat
  inv : Bool
  deriving DecidableEq, Repr

/-- `FR.cur` (10_state.md R22). -/
def Framer.cur (fr : Framer) : Nat := fr.buf.length

/-- One item of `Q` (10_state.md R27). -/
structure QFrame where
  frame : List Byte
  inv : Bool
  deriving DecidableEq, Repr

/-- The frame link `Q` (10_state.md R27). -/
structure Link where
  items : List QFrame
  closed : Bool
  deriving DecidableEq, Repr

/-- A byte-addressed store: the bytes that differ from what an unlisted address reads as, at strictly rising
addresses (`Memory.wf` of Machine/Ops.lean). -/
abbrev Memory := List Host.Cell

/-- The Decoder's state (10_state.md R20, R28 to R31). -/
structure Decoder where
  stage : RunStatus
  cal : Memory
  bitmap : List Bool
  calibrated : Bool
  rsOk : List Bool
  deriving DecidableEq, Repr

/-- The telemetry record (10_state.md R36). -/
structure Record where
  serial : List Byte
  calibrated : Bool
  seq : Half
  burstkill : Int
  lat : GeoVal
  lon : GeoVal
  alt : GeoVal
  speed : GeoVal
  heading : GeoVal
  climb : GeoVal
  deriving DecidableEq, Repr

/-- An entry of `FTRACE` (10_state.md R32). -/
structure Published where
  frame : List Byte
  inv : Bool
  syncOff : Nat
  deriving DecidableEq, Repr

/-- Which line of DEC_FRAME's pseudocode comes next (44_subframe_parser.md R170): the model's own sequencing of
the working state (notes/assumptions/2.md). -/
inductive Stage where
  | descramble | fec | mode | walk | deliver
  deriving DecidableEq, Repr

/-- The per-frame working state of the Decoder (10_state.md R33), and the locals of the pipeline's pseudocode
(notes/assumptions/15.md). -/
structure Work where
  /-- The line that comes next. -/
  stage : Stage
  /-- `FRM`. -/
  frm : List Byte
  /-- `ext_pre`. -/
  extPre : Bool
  /-- `ext`. -/
  ext : Bool
  /-- `L`. -/
  regionLen : Nat
  /-- `off`. -/
  off : Nat
  /-- `rec`. -/
  record : Record
  /-- `K` of 42_reed_solomon.md R144. -/
  msgLen : Nat
  /-- `r` of 42_reed_solomon.md R145. -/
  r : List Byte
  /-- `ok` of 42_reed_solomon.md R146. -/
  ok : Bool
  /-- `c` of 42_reed_solomon.md R146. -/
  cw : List Byte
  /-- The result of CRC16 (43_crc16.md R160). -/
  crc : Half
  /-- The result of CRC_OK (43_crc16.md R161). -/
  crcOk : Bool
  /-- The result of BURSTKILL (44_subframe_parser.md R180). -/
  burst : Int
  deriving DecidableEq, Repr

/-- The state of the block (10_state.md §8), with the configuration and the model's own `work`, `agenda` and
`draws`. -/
structure State where
  /-- `CFG`: written by RESET only. -/
  cfg : Cfg
  /-- `FR`. -/
  fr : Framer
  /-- `IN`. -/
  inp : List InItem
  /-- `Q`. -/
  q : Link
  /-- `DC`. -/
  dc : Decoder
  /-- `RECS`. -/
  recs : List (Record × HandlerCtx)
  /-- `FTRACE`. -/
  ftrace : List Published
  /-- `ERRS`. -/
  errs : List (Agent × ErrCode)
  /-- The working state of 10_state.md R33; absent between the block's steps. -/
  work : Option Work
  /-- The model's own: the host's and the scheduler's choices still to come (notes/assumptions/1.md). -/
  agenda : List Event
  /-- The model's own: how many free values have been drawn (notes/assumptions/4.md). -/
  draws : Nat
  deriving DecidableEq, Repr

/-- The byte-addressed stores and the byte lists that a rule reads by offset (20_memory.md R53, R54). -/
inductive Store where
  | frm | region | payload | cal
  deriving DecidableEq, Repr

/-- Why a step stops with a fault. -/
inductive Fault where
  /-- An access outside a store or a payload (20_memory.md R54, 93_implementation_defined.md U10: "a model that
  reaches one has mistranscribed a rule"). Raised by the readers and writers of Machine/Operands.lean and
  Machine/Ops.lean, only under a configuration whose layout lets a field leave its store
  (notes/assumptions/21.md). Safe: the model stops where the spec says there is no such case. -/
  | outOfBounds (store : Store)
  /-- The walk of 44_subframe_parser.md R173 goes on for ever at one offset: a subframe of no payload where
  `SF_OVERHEAD` is 0. Raised by `walkLoop` of Machine/Subframe.lean, under no configuration that meets
  `Cfg.layoutOk` (notes/assumptions/25.md). Safe: the spec's own loop has no next state there. -/
  | walkStuck
  deriving DecidableEq, Repr

/-- Why a step is refused. -/
inductive Refusal where
  /-- An operation without a meaning, refused in exec's arm only; every row has its meaning, so nothing raises
  it. Safe: the model stops. -/
  | notModelled (mnemonic : String)
  deriving DecidableEq, Repr

/-- The Framer after reset, an error entry or a quiesce (10_state.md R20 to R24). -/
def Framer.reset : Framer := ⟨.stopped, .read, [], 0, false⟩

/-- The Decoder after reset (10_state.md R28 to R31): calibration bytes all 0x00, every bitmap bit 1. -/
def Decoder.reset (c : Cfg) : Decoder :=
  ⟨.stopped, [], List.replicate c.calFragCount true, false, List.replicate c.rsIlv false⟩

/-- The block right after RESET with the configuration `c` (70_reset_and_hazards.md R250); the host's own
`agenda` and the counter of free values go on. -/
def State.resetWith (c : Cfg) (agenda : List Event) (draws : Nat) : State where
  cfg := c
  fr := Framer.reset
  inp := []
  q := ⟨[], false⟩
  dc := Decoder.reset c
  recs := []
  ftrace := []
  errs := []
  work := none
  agenda := agenda
  draws := draws

/-- The machine right after reset with the default configuration (70_reset_and_hazards.md R250). -/
def State.reset : State := State.resetWith Cfg.rs41 [] 0

end Sys2Proof.Machine
end

