-- ==== Sys2Proof/Machine/Operands.lean ====
section
/-! DEFINITION. The readers of the notation of 00_scope.md §4: bits of a byte, packing, byte ranges and
little-endian fields, each bounds-checked (20_memory.md R54). -/

namespace Sys2Proof.Machine

/-- `k v`. The value of `v` is asked for before `k` goes on with it, so that a long loop over it stays within what
Lean's kernel can evaluate (`strict_eq` of Laws/Operands.lean). -/
def strict {w : Nat} {α : Type} (v : BitVec w) (k : BitVec w → α) : α :=
  match v.toNat with
  | 0 => k 0
  | n + 1 => k (BitVec.ofNat w (n + 1))

/-- `bits(v)`: the eight bits of a byte, most significant first (20_memory.md R50). -/
def bitsOf (v : Byte) : Bits :=
  [v.getLsbD 7, v.getLsbD 6, v.getLsbD 5, v.getLsbD 4, v.getLsbD 3, v.getLsbD 2, v.getLsbD 1, v.getLsbD 0]

/-- The bit stream of a byte list (30_encoding.md R70). -/
def bitsOfBytes (bytes : List Byte) : Bits := bytes.flatMap bitsOf

/-- `val(B)`: the first bit is the most significant (00_scope.md §4). -/
def bitsVal (b : Bits) : Nat := b.foldl (fun acc x => 2 * acc + x.toNat) 0

/-- `pack(B)`: each eight bits a byte, most significant bit first (20_memory.md R52, 40_framer.md R109). -/
def pack : Bits → List Byte
  | b7 :: b6 :: b5 :: b4 :: b3 :: b2 :: b1 :: b0 :: rest =>
    BitVec.ofNat 8 (bitsVal [b7, b6, b5, b4, b3, b2, b1, b0]) :: pack rest
  | _ => []

/-- Byte `i` of a store or payload. -/
def readAt (st : Store) (a : List Byte) (i : Nat) : Except Fault Byte :=
  match a[i]? with
  | some v => .ok v
  | none => .error (.outOfBounds st)

/-- `A[o .. o+len)`, wholly inside `A` (20_memory.md R54). -/
def slice (st : Store) (a : List Byte) (o len : Nat) : Except Fault (List Byte) :=
  if o + len ≤ a.length then .ok ((a.drop o).take len) else .error (.outOfBounds st)

/-- The bytes at the positions `ps`. -/
def readAll (st : Store) (a : List Byte) (ps : List Nat) : Except Fault (List Byte) :=
  ps.mapM (readAt st a)

/-- `u16le(A, o)` (20_memory.md R55). -/
def u16le (st : Store) (a : List Byte) (o : Nat) : Except Fault Half := do
  let lo ← readAt st a o
  let hi ← readAt st a (o + 1)
  return halfOfBytes lo hi

/-- `u32le(A, o)` (20_memory.md R55). -/
def u32le (st : Store) (a : List Byte) (o : Nat) : Except Fault (BitVec 32) := do
  let lo ← u16le st a o
  let hi ← u16le st a (o + 2)
  return hi ++ lo

/-- `s16le(A, o)`: two's complement (00_scope.md §4). -/
def s16le (st : Store) (a : List Byte) (o : Nat) : Except Fault Int := do
  let v ← u16le st a o
  return v.toInt

/-- `s32le(A, o)`: two's complement (00_scope.md §4). -/
def s32le (st : Store) (a : List Byte) (o : Nat) : Except Fault Int := do
  let v ← u32le st a o
  return v.toInt

/-- The byte `v` written at position `i` of `FRM`. -/
def writeAt (st : Store) (a : List Byte) (i : Nat) (v : Byte) : Except Fault (List Byte) :=
  if i < a.length then .ok (a.set i v) else .error (.outOfBounds st)

/-- The bytes written one after the other at the positions beside them. -/
def writeAll (st : Store) (a : List Byte) : List (Nat × Byte) → Except Fault (List Byte)
  | [] => .ok a
  | (i, v) :: rest => do
    let a' ← writeAt st a i v
    writeAll st a' rest

/-- The data region `R = FRM[DATA_OFF .. DATA_OFF + L)` (30_encoding.md R72). -/
def region (c : Cfg) (w : Work) : Except Fault (List Byte) := slice .frm w.frm c.dataOff w.regionLen

end Sys2Proof.Machine
end

