-- ==== Sys2Proof/Machine/Flags.lean ====
section
/-! DEFINITION. How the block computes its flags (10_state.md R34): the sync offset and inverted flag of the
correlation (40_framer.md R104 to R107), the CRC gate (43_crc16.md R160, R161), the mode (30_encoding.md R73)
and the calibration-complete flag (44_subframe_parser.md R179). -/

namespace Sys2Proof.Machine

/-- The number of 1 bits among the low `k` bits of `x`. -/
def popcount : Nat → Nat → Nat
  | 0, _ => 0
  | k + 1, x => x % 2 + popcount k (x / 2)

/-- The direct distance of a window of `n` bits (40_framer.md R105). -/
def directDistance (c : Cfg) (window : Bits) : Nat :=
  popcount c.syncBits (bitsVal window ^^^ c.syncPattern)

/-- What the search has found so far: the least distance, its offset and polarity. -/
structure Best where
  dist : Nat
  off : Nat
  inv : Bool
  deriving DecidableEq, Repr

/-- One offset of the search: the direct distance is tested first, each updates on strict improvement only
(40_framer.md R104, R106). -/
def corrTurn (n d o : Nat) (b : Best) : Best :=
  let b1 := if d < b.dist then ⟨d, o, false⟩ else b
  if n - d < b1.dist then ⟨n - d, o, true⟩ else b1

/-- The search over `count` offsets from `o` on; `w` is the window's suffix at `o` (40_framer.md R104). -/
def corrLoop (c : Cfg) : Nat → Nat → Bits → Best → Best
  | 0, _, _, b => b
  | count + 1, o, w, b =>
    corrLoop c count (o + 1) (w.drop 1) (corrTurn c.syncBits (directDistance c (w.take c.syncBits)) o b)

/-- The search over every offset `0 … 8F - n`, without the short-circuit. -/
def corrFull (c : Cfg) (w : Bits) : Nat × Bool :=
  let b := corrLoop c (c.frameBits - c.syncBits + 1) 0 w ⟨c.syncBits + 1, 0, false⟩
  (b.off, b.inv)

/-- `CORR(W)` (40_framer.md R104), with the short-circuit of R107. -/
def corr (c : Cfg) (w : Bits) : Nat × Bool :=
  if directDistance c (w.take c.syncBits) = 0 then (0, false) else corrFull c w

/-- One bit of the CRC (43_crc16.md R160). -/
def crcBit (poly crc : Half) : Half :=
  if crc.getLsbD 15 then (crc <<< 1) ^^^ poly else crc <<< 1

/-- `k` bits of the CRC. -/
def crcBits (poly : Half) : Nat → Half → Half
  | 0, crc => crc
  | k + 1, crc => crcBits poly k (crcBit poly crc)

/-- One byte of the CRC, entering most significant bit first. -/
def crcByte (poly crc : Half) (v : Byte) : Half := crcBits poly 8 (crc ^^^ (v.setWidth 16 <<< 8))

/-- The bytes of a list, one after the other. -/
def crcBytes (poly : Half) : Half → List Byte → Half
  | crc, [] => crc
  | crc, v :: rest => strict (crcByte poly crc v) fun crc' => crcBytes poly crc' rest

/-- `CRC16` of a byte list (43_crc16.md R160). -/
def crc16 (c : Cfg) (bytes : List Byte) : Half := crcBytes c.crcPoly c.crcInit bytes ^^^ c.crcXorout

/-- The CRC gate of a subframe (43_crc16.md R161): over the payload only. -/
def crcGate (c : Cfg) (payload : List Byte) (stored : Half) : Bool := crc16 c payload == stored

/-- The mode of a frame: extended exactly when the frame-type byte is EXT_FLAG (30_encoding.md R73). -/
def isExtended (c : Cfg) (frm : List Byte) : Except Fault Bool := do
  let v ← readAt .frm frm c.ftypeOff
  return v == c.extFlag

/-- Every bit of the bitmap is 0 (44_subframe_parser.md R179). -/
def bitmapClear (bitmap : List Bool) : Bool := bitmap.all (fun b => !b)

end Sys2Proof.Machine
end

