-- ==== Sys2Proof/Machine/Ops.lean ====
section
/-! DEFINITION. The named operations the meanings share: the byte-addressed store CAL, the field updates of
State, the FIFOs and traces, the error entry and the return from it, and the working state. -/

namespace Sys2Proof.Machine

/-! The store CAL (10_state.md R28, 20_memory.md R53). -/

/-- What an unlisted address of CAL reads as: the reset value of every calibration byte (10_state.md R28). -/
def unlistedByte : Byte := 0x00

/-- One byte of a store. -/
def Memory.get : Memory → Nat → Byte
  | [], _ => unlistedByte
  | (k, v) :: m, a => if k = a then v else Memory.get m a

/-- One byte written; the canonical form is kept: writing what an unlisted address reads as removes the
entry. -/
def Memory.set : Memory → Nat → Byte → Memory
  | [], a, b => if b = unlistedByte then [] else [(a, b)]
  | (k, v) :: m, a, b =>
    if a < k then (if b = unlistedByte then (k, v) :: m else (a, b) :: (k, v) :: m)
    else if a = k then (if b = unlistedByte then m else (a, b) :: m)
    else (k, v) :: Memory.set m a b

/-- The canonical form: addresses strictly rising, and no entry equal to what an unlisted address reads as. -/
def Memory.wf : Memory → Bool
  | [] => true
  | [(_, v)] => v != unlistedByte
  | (k, v) :: (k', v') :: m => v != unlistedByte && decide (k < k') && Memory.wf ((k', v') :: m)

/-- Every listed address lies below `len`. -/
def Memory.below (len : Nat) (m : Memory) : Bool := m.all fun cell => decide (cell.1 < len)

/-- Bytes written at consecutive addresses. -/
def Memory.setRange (m : Memory) (o : Nat) : List Byte → Memory
  | [] => m
  | b :: bytes => Memory.setRange (m.set o b) (o + 1) bytes

/-- `MemRead(CAL, o, len)` (00_scope.md §4), within the block (20_memory.md R54). -/
def calRead (c : Cfg) (cal : Memory) (o len : Nat) : Except Fault (List Byte) :=
  if o + len ≤ c.calLen then .ok ((List.range len).map fun i => cal.get (o + i))
  else .error (.outOfBounds .cal)

/-- `MemWrite(CAL, o, len, bytes)` (00_scope.md §4), within the block (20_memory.md R54). -/
def calWrite (c : Cfg) (cal : Memory) (o : Nat) (bytes : List Byte) : Except Fault Memory :=
  if o + bytes.length ≤ c.calLen then .ok (cal.setRange o bytes) else .error (.outOfBounds .cal)

/-! The fields of State. -/

/-- `FR` replaced. -/
def State.setFr (s : State) (fr : Framer) : State := { s with fr := fr }
/-- `IN` replaced. -/
def State.setInp (s : State) (inp : List InItem) : State := { s with inp := inp }
/-- `Q` replaced. -/
def State.setQ (s : State) (q : Link) : State := { s with q := q }
/-- `DC` replaced. -/
def State.setDc (s : State) (dc : Decoder) : State := { s with dc := dc }
/-- `RECS` replaced. -/
def State.setRecs (s : State) (recs : List (Record × HandlerCtx)) : State := { s with recs := recs }
/-- `FTRACE` replaced. -/
def State.setFtrace (s : State) (ftrace : List Published) : State := { s with ftrace := ftrace }
/-- `ERRS` replaced. -/
def State.setErrs (s : State) (errs : List (Agent × ErrCode)) : State := { s with errs := errs }
/-- The working state replaced. -/
def State.setWork (s : State) (work : Option Work) : State := { s with work := work }
/-- The agenda replaced. -/
def State.setAgenda (s : State) (agenda : List Event) : State := { s with agenda := agenda }
/-- The counter of free values replaced. -/
def State.setDraws (s : State) (draws : Nat) : State := { s with draws := draws }

/-! The Framer's enabling conditions (40_framer.md R100). -/

/-- `need(FR)`. -/
def need (c : Cfg) (fr : Framer) : Bool :=
  match fr.phase with
  | .read => decide (fr.cur < c.frameBits)
  | .deoffset => decide (fr.cur < fr.syncOff + c.frameBits)

/-- A frame is ready: phase DEOFFSET with enough bits. -/
def frameReady (c : Cfg) (fr : Framer) : Bool :=
  decide (fr.phase = .deoffset) && decide (fr.syncOff + c.frameBits ≤ fr.cur)

/-- `FR.stage = RUNNING`. -/
def framerRunning (s : State) : Bool := decide (s.fr.stage = .running)

/-- FR_PULL is enabled. -/
def frPullEnabled (s : State) : Bool :=
  framerRunning s && need s.cfg s.fr &&
    match s.inp with
    | .byte _ :: _ => true
    | _ => false

/-- FR_READ_FAIL is enabled. -/
def frReadFailEnabled (s : State) : Bool :=
  framerRunning s && need s.cfg s.fr &&
    match s.inp with
    | .eos :: _ => true
    | _ => false

/-- FR_CORRELATE is enabled. -/
def frCorrelateEnabled (s : State) : Bool :=
  framerRunning s && decide (s.fr.phase = .read) && decide (s.cfg.frameBits ≤ s.fr.cur)

/-- FR_EMIT is enabled. -/
def frEmitEnabled (s : State) : Bool :=
  framerRunning s && frameReady s.cfg s.fr && !s.q.closed && decide (s.q.items.length < s.cfg.fifoDepth)

/-- FR_PUBLISH_FAIL is enabled. -/
def frPublishFailEnabled (s : State) : Bool :=
  framerRunning s && frameReady s.cfg s.fr && s.q.closed

/-- The Framer's enabled step, if any (40_framer.md R100: at most one is enabled). -/
def framerStep (s : State) : Option Instr :=
  if frPullEnabled s then some .frPull
  else if frReadFailEnabled s then some .frReadFail
  else if frCorrelateEnabled s then some .frCorrelate
  else if frEmitEnabled s then some .frEmit
  else if frPublishFailEnabled s then some .frPublishFail
  else none

/-- DEC_FRAME is enabled (44_subframe_parser.md R170). -/
def decFrameEnabled (s : State) : Bool := decide (s.dc.stage = .running) && !s.q.items.isEmpty

/-! Ports, links and traces (00_scope.md §4). -/

/-- `publish(frame, inv)`: append to `Q`. -/
def publish (q : Link) (frame : List Byte) (inv : Bool) : Link :=
  { q with items := q.items ++ [⟨frame, inv⟩] }

/-- `emit RECORD(rec, HANDLER_CTX)` (44_subframe_parser.md R190, 45_stage_control.md R207). -/
def deliver (s : State) (record : Record) : State := s.setRecs (s.recs ++ [(record, s.cfg.handlerCtx)])

/-- Taking an error event (60_exceptions.md R221 to R223): the entry is reported, the Framer's working state is
discarded and the Framer stops, in the one step. The only exceptions the block has are these. -/
def raiseError (code : ErrCode) (s : State) : State :=
  (s.setErrs (s.errs ++ [(.framer, code)])).setFr Framer.reset

/-- The return from an error event (60_exceptions.md R227, 45_stage_control.md R206): the Framer runs again from
its current working state, and the output is reopened. -/
def returnFromError (s : State) : State :=
  (s.setFr { s.fr with stage := .running }).setQ { s.q with closed := false }

/-! The Decoder's working state (10_state.md R33). -/

/-- The default record `REC0` (10_state.md R37). -/
def rec0 (c : Cfg) : Record where
  serial := List.replicate c.serialLen 0x00
  calibrated := false
  seq := 0
  burstkill := 0
  lat := c.geoZero
  lon := c.geoZero
  alt := c.geoZero
  speed := c.geoZero
  heading := c.geoZero
  climb := c.geoZero

/-- The working state with which DEC_FRAME begins: `FRM <- frame`, `rec <- REC0`, `off <- 0`
(44_subframe_parser.md R170, R171); the mode is normal until it is read, and every local starts at zero
(notes/assumptions/15.md). -/
def startWork (c : Cfg) (frame : List Byte) : Work where
  stage := .descramble
  frm := frame
  extPre := false
  ext := false
  regionLen := c.regionLen false
  off := 0
  record := rec0 c
  msgLen := c.msgLen false
  r := []
  ok := false
  cw := []
  crc := 0
  crcOk := false
  burst := 0

/-- What the pipeline of one frame decode acts on: the Decoder's state, the counter of free values and the
working state. -/
structure Pipe where
  dc : Decoder
  draws : Nat
  w : Work
  deriving DecidableEq, Repr

/-- A pipeline operation of DEC_FRAME, applied inside a frame decode. Outside one it is not called
("called by DEC_FRAME", opcode_table.json) and nothing changes (notes/assumptions/3.md). -/
def onPipe (f : Cfg → Pipe → Except Fault Pipe) (s : State) : Host.Outcome State Fault Refusal :=
  match s.work with
  | none => .next s
  | some w =>
    match f s.cfg ⟨s.dc, s.draws, w⟩ with
    | .ok p => .next (((s.setDc p.dc).setDraws p.draws).setWork (some p.w))
    | .error e => .fault e

/-- The mode read before Reed–Solomon correction: `ext_pre` and `K` (42_reed_solomon.md R144, R149). -/
def setModePre (c : Cfg) (ext : Bool) (w : Work) : Work := { w with extPre := ext, msgLen := c.msgLen ext }

/-- The mode read after Reed–Solomon correction: `ext` and `L` (44_subframe_parser.md R172). The walk comes
next. -/
def setModePost (c : Cfg) (ext : Bool) (w : Work) : Work :=
  { w with
    ext := ext
    regionLen := c.regionLen ext
    stage := if w.stage = .mode then .walk else w.stage }

/-- The frame-type byte read at the point of the decode that the working state has reached (30_encoding.md
R73: once before correction, once after). -/
def readMode (c : Cfg) (ext : Bool) (w : Work) : Work :=
  match w.stage with
  | .descramble => setModePre c ext w
  | .fec => setModePre c ext w
  | .mode => setModePost c ext w
  | .walk => setModePost c ext w
  | .deliver => setModePost c ext w

end Sys2Proof.Machine
end

