-- ==== Sys2Proof/Machine/Crc.lean ====
section
/-! DEFINITION. The CRC-16 validator as operations on the region (43_crc16.md). -/

namespace Sys2Proof.Machine

/-- CRC16(R, o, len): the CRC of the `len` region bytes from `o` on (43_crc16.md R160). -/
def crc16Op (o len : Nat) (c : Cfg) (p : Pipe) : Except Fault Pipe := do
  let reg ← region c p.w
  let bytes ← slice .region reg o len
  return { p with w := { p.w with crc := crc16 c bytes } }

/-- CRC_OK(R, off, len): the payload's CRC against the stored two bytes, low byte first (43_crc16.md R161). -/
def crcOkOp (off len : Nat) (c : Cfg) (p : Pipe) : Except Fault Pipe := do
  let reg ← region c p.w
  let payload ← slice .region reg (off + 2) len
  let stored ← u16le .region reg (off + 2 + len)
  return { p with w := { p.w with crc := crc16 c payload, crcOk := crcGate c payload stored } }

/-- CRC16 (43_crc16.md R160). -/
def execCrc16 (o len : Nat) (s : State) : Host.Outcome State Fault Refusal := onPipe (crc16Op o len) s

/-- CRC_OK (43_crc16.md R161). -/
def execCrcOk (off len : Nat) (s : State) : Host.Outcome State Fault Refusal := onPipe (crcOkOp off len) s

end Sys2Proof.Machine
end

