-- ==== Sys2Proof/Machine/Descrambler.lean ====
section
/-! DEFINITION. The descrambler and its inverse (41_descrambler.md). -/

namespace Sys2Proof.Machine

/-- `bitrev8` (41_descrambler.md R130): bit 0 and bit 7 change places, and so on. -/
def bitrev8 (v : Byte) : Byte :=
  BitVec.ofNat 8 (bitsVal [v.getLsbD 0, v.getLsbD 1, v.getLsbD 2, v.getLsbD 3, v.getLsbD 4, v.getLsbD 5,
    v.getLsbD 6, v.getLsbD 7])

/-- `PRN[i mod PRN_PERIOD]` (41_descrambler.md R130, R132); a free value where the table has no such byte
(notes/assumptions/24.md). -/
def prnByte (c : Cfg) (i : Nat) : Byte :=
  if h : 0 < c.prnPeriod ∧ i % c.prnPeriod < 64 then c.prn[i % c.prnPeriod]'h.2
  else Config.prnBeyond (i % c.prnPeriod)

/-- One byte of the transform, at frame byte `i` (41_descrambler.md R130). -/
def descrambleByte (c : Cfg) (i : Nat) (v : Byte) : Byte := bitrev8 v ^^^ prnByte c i ^^^ c.whitenMask

/-- DESCRAMBLE of a byte list whose first byte is frame byte `i`. -/
def descrambleFrom (c : Cfg) : Nat → List Byte → List Byte
  | _, [] => []
  | i, v :: rest => descrambleByte c i v :: descrambleFrom c (i + 1) rest

/-- One byte of the inverse transform: the XORs first, the bit reversal last (41_descrambler.md R134). -/
def scrambleByte (c : Cfg) (i : Nat) (v : Byte) : Byte := bitrev8 (v ^^^ prnByte c i ^^^ c.whitenMask)

/-- SCRAMBLE of a byte list whose first byte is frame byte `i` (41_descrambler.md R134). -/
def scrambleFrom (c : Cfg) : Nat → List Byte → List Byte
  | _, [] => []
  | i, v :: rest => scrambleByte c i v :: scrambleFrom c (i + 1) rest

/-- Stage 1 of DEC_FRAME: every byte of FRM, whose index restarts at 0 (41_descrambler.md R130, R132). -/
def descrambleOp (c : Cfg) (p : Pipe) : Except Fault Pipe :=
  .ok { p with w := { p.w with frm := descrambleFrom c 0 p.w.frm, stage := .fec } }

/-- DESCRAMBLE (41_descrambler.md R130). -/
def execDescramble (s : State) : Host.Outcome State Fault Refusal := onPipe descrambleOp s

end Sys2Proof.Machine
end

