-- ==== Sys2Proof/Machine/Galois.lean ====
section
/-! DEFINITION. The field GF(2^8) (42_reed_solomon.md R140, R141), polynomials over it, and the vectors of a
linear system. -/

namespace Sys2Proof.Machine

/-- `a << 1` with its 9-bit intermediate reduced by the field polynomial (42_reed_solomon.md R140). Bit 8 of
the result is dropped: it is 0 for a polynomial of degree 8, as R140's is. DESIGN CHOICE for a `GF_POLY` whose bit 8
is 0, which acts as the polynomial of degree 8 with the same low bits (notes/assumptions/27.md). -/
def xtime (poly : BitVec 9) (a : Byte) : Byte :=
  let a9 : BitVec 9 := a.setWidth 9 <<< 1
  (if a9.getLsbD 8 then a9 ^^^ poly else a9).setWidth 8

/-- `k` turns of the multiplication loop of 42_reed_solomon.md R140. -/
def gmulLoop (poly : BitVec 9) : Nat → Byte → Byte → Byte → Byte
  | 0, _, _, p => p
  | k + 1, a, b, p => gmulLoop poly k (xtime poly a) (b >>> 1) (if b.getLsbD 0 then p ^^^ a else p)

/-- `gmul(a, b)` (42_reed_solomon.md R140). -/
def gmul (c : Cfg) (a b : Byte) : Byte := gmulLoop c.gfPoly 8 a b 0

/-- Every byte. -/
def allBytes : List Byte := (List.range 256).map (BitVec.ofNat 8)

/-- The multiplicative inverse (42_reed_solomon.md R140): the byte whose product with `a` is 1; 0 where there is
none, which no rule divides by. -/
def ginv (c : Cfg) (a : Byte) : Byte :=
  (allBytes.find? fun x => gmul c a x == 1).getD 0

/-- The primitive element (42_reed_solomon.md R141). -/
def alpha : Byte := 0x02

/-- Every byte but 0 has an inverse. -/
def allInvertible (c : Cfg) : Bool := allBytes.all fun x => x == 0 || ginv c x != 0

/-- `y·a^e`. -/
def gpowFrom (c : Cfg) (a : Byte) : Nat → Byte → Byte
  | 0, y => y
  | e + 1, y => strict (gmul c a y) fun y' => gpowFrom c a e y'

/-- `a^e`. -/
def gpow (c : Cfg) (a : Byte) (e : Nat) : Byte := gpowFrom c a e 1

/-- `α` is primitive: its order divides 255 and none of 85, 51 and 15 (42_reed_solomon.md R141). -/
def alphaPrimitive (c : Cfg) : Bool :=
  gpow c alpha 255 == 1 && gpow c alpha 85 != 1 && gpow c alpha 51 != 1 && gpow c alpha 15 != 1

/-- The bytes are a field, as R140 has it: at once where `α` is primitive, since its powers are then the 255
non-zero bytes, else by their inverses. -/
def isField (c : Cfg) : Bool := alphaPrimitive c || allInvertible c

/-- The powers `y, y·x, y·x², …`, `k` of them. -/
def powersFrom (c : Cfg) (x : Byte) : Nat → Byte → List Byte
  | 0, _ => []
  | k + 1, y => y :: strict (gmul c x y) fun y' => powersFrom c x k y'

/-- Horner's rule from the highest coefficient down: `acc` is the value so far. -/
def horner (c : Cfg) (x : Byte) : Byte → List Byte → Byte
  | acc, [] => acc
  | acc, a :: rest => strict (a ^^^ gmul c acc x) fun acc' => horner c x acc' rest

/-- The value at `x` of the polynomial whose coefficient `j` is `r[j]` (42_reed_solomon.md R142). -/
def polyEval (c : Cfg) (r : List Byte) (x : Byte) : Byte := horner c x 0 r.reverse

/-- The sum of the products of two vectors. -/
def dot (c : Cfg) (u v : List Byte) : Byte := (List.zipWith (gmul c) u v).foldr (· ^^^ ·) 0

/-- `v + a·u`. -/
def addScaled (c : Cfg) (v : List Byte) (a : Byte) (u : List Byte) : List Byte :=
  List.zipWith (fun x y => x ^^^ gmul c a y) v u

/-- The `n` unit vectors of length `n`. -/
def unitVectors (n : Nat) : List (List Byte) :=
  (List.range n).map fun j => (List.range n).map fun k => if k = j then 1 else 0

/-- The first vector whose product with `row` is not 0, that product, and the other vectors. -/
def pickPivot (c : Cfg) (row : List Byte) : List (List Byte) → Option (List Byte × Byte × List (List Byte))
  | [] => none
  | v :: vs =>
    let d := dot c row v
    if d = 0 then
      match pickPivot c row vs with
      | some (u, e, rest) => some (u, e, v :: rest)
      | none => none
    else some (v, d, vs)

/-- The vectors that remain when the equation `row · v = 0` is added: the pivot is given up, and a multiple of it
is added to every other vector so that its product with `row` becomes 0. -/
def eliminate (c : Cfg) (basis : List (List Byte)) (row : List Byte) : List (List Byte) :=
  match pickPivot c row basis with
  | none => basis
  | some (u, d, rest) =>
    let dInv := ginv c d
    rest.map fun v => addScaled c v (gmul c (dot c row v) dInv) u

/-- Vectors of length `n` that satisfy every equation of `rows`; at least `n` minus the number of rows of
them. -/
def kernelBasis (c : Cfg) (n : Nat) (rows : List (List Byte)) : List (List Byte) :=
  rows.foldl (eliminate c) (unitVectors n)

end Sys2Proof.Machine
end

