-- ==== Sys2Proof/Machine/ReedSolomon.lean ====
section
/-! DEFINITION. The Reed–Solomon codec (42_reed_solomon.md): the code, the symbol corrector, the deinterleaver,
the reinterleaver and the FEC stage. -/

namespace Sys2Proof.Machine

/-! The code (42_reed_solomon.md R142). -/

/-- Root `i` of the generator: `α^(RS_FCR + i*RS_PRIM)`. -/
def rsRoot (c : Cfg) (i : Nat) : Byte := gpow c alpha (c.rsFcr + i * c.rsPrim)

/-- The roots of the generator, in order. -/
def rsRoots (c : Cfg) : List Byte := (List.range c.rsNroots).map (rsRoot c)

/-- The syndromes `S[i] = r(root i)` (42_reed_solomon.md R146). -/
def syndromes (c : Cfg) (r : List Byte) : List Byte := (rsRoots c).map (polyEval c r)

/-- Every byte is 0. -/
def allZero (v : List Byte) : Bool := v.all fun x => x == 0

/-- `r` vanishes at every root of the generator, which is R146's first test; where the roots differ in a field, as
under the defaults, it says that `r` is a codeword (42_reed_solomon.md R142). -/
def isCodeword (c : Cfg) (r : List Byte) : Bool := allZero (syndromes c r)

/-- A polynomial times `x + a`; coefficients from `x^0` up. -/
def mulLinear (c : Cfg) (p : List Byte) (a : Byte) : List Byte :=
  List.zipWith (· ^^^ ·) (0 :: p) (p.map (gmul c a) ++ [0])

/-- The generator `g(x)`, coefficients from `x^0` up (42_reed_solomon.md R142). -/
def generator (c : Cfg) : List Byte := (rsRoots c).foldl (mulLinear c) [1]

/-- One message symbol, the highest power first, shifted into the remainder `rem` of the division by `g`. -/
def remainderTurn (c : Cfg) (g rem : List Byte) (m : Byte) : List Byte :=
  let f := m ^^^ rem.getLastD 0
  List.zipWith (fun x y => x ^^^ gmul c f y) (0 :: rem.dropLast) g

/-- The parity symbols of a message (42_reed_solomon.md R142): the remainder of `Σ m[i]·x^(NROOTS+i)` divided
by `g(x)`. -/
def rsParity (c : Cfg) (msg : List Byte) : List Byte :=
  msg.reverse.foldl (remainderTurn c (generator c)) (List.replicate c.rsNroots 0)

/-- The systematic encoder (42_reed_solomon.md R142): parity at the low powers, then the message. The Decoder
never encodes; the spec gives the encoder for the inverse direction. -/
def rsEncode (c : Cfg) (msg : List Byte) : List Byte := rsParity c msg ++ msg

/-- `cw` is a multiple of the generator, R142's definition of the code: its low symbols are the parity of the
others. It says more than `isCodeword` only where roots of the generator repeat or the bytes are no field. -/
def isMultiple (c : Cfg) (cw : List Byte) : Bool := rsParity c (cw.drop c.rsNroots) == cw.take c.rsNroots

/-! The symbol corrector (42_reed_solomon.md R146). "Any algorithm that returns the unique codeword within
distance RS_T, and reports failure when there is none, is conforming": where the positions that can hold an error
have powers of their own in a field, this one solves the two linear systems of the syndromes; everywhere else it
looks at every word within distance RS_T (notes/assumptions/10.md). Either way it accepts what R146 accepts. -/

/-- The number of positions where two words differ. -/
def hamming (u v : List Byte) : Nat := (List.zipWith (fun x y => if x = y then 0 else 1) u v).sum

/-- The padding symbols `c[NROOTS + i]`, `K <= i < RS_K`, are 0 (42_reed_solomon.md R146). -/
def paddingZero (c : Cfg) (k : Nat) (r : List Byte) : Bool := allZero (r.drop (c.rsNroots + k))

/-- The equations `Σ_j Λ[j]·S[i+j] = 0`, `0 <= i < T`, that every error locator Λ of degree at most T
satisfies. -/
def locatorRows (c : Cfg) (syn : List Byte) : List (List Byte) :=
  (List.range c.rsT).map fun i => (syn.drop i).take (c.rsT + 1)

/-- The positions `j < m` of the codeword with `Λ(α^(j*RS_PRIM)) = 0`. -/
def locatorRoots (c : Cfg) (m : Nat) (locator : List Byte) : List Nat :=
  ((List.range m).zip (powersFrom c (gpow c alpha c.rsPrim) m 1)).filterMap fun jx =>
    if polyEval c locator jx.2 = 0 then some jx.1 else none

/-- The equations `Σ_p e[p]·(root i)^j_p = S[i]` for the error values at the positions `ps`, one for each
position, each with the syndrome as its last column. -/
def valueRows (c : Cfg) (syn : List Byte) (ps : List Nat) : List (List Byte) :=
  (List.range ps.length).map fun i =>
    ps.map (fun j => gpow c (rsRoot c i) j) ++ [syn.getD i 0]

/-- The error values at the positions `ps`: a solution of the equations, scaled so that the syndrome's column
has the factor 1. -/
def errorValues (c : Cfg) (syn : List Byte) (ps : List Nat) : Option (List Byte) :=
  match kernelBasis c (ps.length + 1) (valueRows c syn ps) with
  | [] => none
  | v :: _ =>
    let scale := ginv c (v.getLastD 0)
    some ((v.take ps.length).map fun x => gmul c x scale)

/-- `r` with the error values added at their positions. -/
def addErrors (r : List Byte) : List (Nat × Byte) → List Byte
  | [] => r
  | (j, e) :: rest => addErrors (r.set j (r.getD j 0 ^^^ e)) rest

/-- The word the two systems point at, with errors at positions below `m`. -/
def rsCandidate (c : Cfg) (m : Nat) (syn r : List Byte) : Option (List Byte) :=
  match kernelBasis c (c.rsT + 1) (locatorRows c syn) with
  | [] => none
  | locator :: _ =>
    let ps := locatorRoots c m locator
    match errorValues c syn ps with
    | none => none
    | some es => some (addErrors r (ps.zip es))

/-- What R146 accepts beside a received codeword: a word of the code within distance RS_T whose padding is 0. -/
def rsAccepts (c : Cfg) (k : Nat) (r cw : List Byte) : Bool :=
  decide (cw.length = r.length) && isCodeword c cw && decide (hamming cw r ≤ c.rsT) && paddingZero c k cw

/-- How many positions can hold an error that R146 accepts: those before the padding where the received padding is
0, since the accepted padding is 0 too; else all. -/
def errorBound (c : Cfg) (k : Nat) (r : List Byte) : Nat :=
  if paddingZero c k r then min (c.rsNroots + k) r.length else r.length

/-- The two systems find every word that R146 accepts, and there is at most one: there are two syndromes for each
error, the bytes are a field, and the positions below `m` have different powers of `α^RS_PRIM`. -/
def rsRegular (c : Cfg) (m : Nat) : Bool :=
  let x := gpow c alpha c.rsPrim
  decide (2 * c.rsT ≤ c.rsNroots) && isField c && (powersFrom c x (m - 1) x).all fun y => y != 1

/-- The words of the length of `r` that differ from it in at most `t` positions, each once. -/
def nearWords : Nat → List Byte → List (List Byte)
  | _, [] => [[]]
  | 0, x :: r => [x :: r]
  | t + 1, x :: r =>
    (nearWords (t + 1) r).map (x :: ·) ++
      (allBytes.filter fun y => y != x).flatMap fun y => (nearWords t r).map (y :: ·)

/-- The words that R146 accepts for a received word that is no codeword. Where the two systems serve, the roots
differ in a field, and a word that vanishes at them is a multiple of the generator. -/
def rsCandidates (c : Cfg) (k : Nat) (syn r : List Byte) : List (List Byte) :=
  if rsRegular c (errorBound c k r) then
    (rsCandidate c (errorBound c k r) syn r).toList.filter (rsAccepts c k r)
  else (nearWords c.rsT r).filter fun cw => isMultiple c cw && rsAccepts c k r cw

/-- `CORRECT(r)` (42_reed_solomon.md R146): the corrected word, or none for `(false, -)`; which one, where the code is
such that there are several, is free (notes/assumptions/26.md). -/
def rsCorrect (c : Cfg) (k : Nat) (r : List Byte) : Option (List Byte) :=
  let syn := syndromes c r
  if allZero syn then some r
  else
    match rsCandidates c k syn r with
    | [] => none
    | [cw] => some cw
    | cws => cws[Config.rsChoice c k r % cws.length]?

/-! Frame positions (30_encoding.md R74, 42_reed_solomon.md R143). -/

/-- The frame positions of block `b`'s parity symbols, in order. -/
def parityPositions (c : Cfg) (b : Nat) : List Nat :=
  (List.range c.rsNroots).map fun j => c.parOff + c.rsNroots * b + j

/-- The frame positions of block `b`'s `k` message symbols, in order. -/
def messagePositions (c : Cfg) (k b : Nat) : List Nat :=
  (List.range k).map fun i => c.rsMsgOff + b + c.rsIlv * i

/-- Every frame position of block `b`, in the order of its symbols. -/
def blockPositions (c : Cfg) (k b : Nat) : List Nat := parityPositions c b ++ messagePositions c k b

/-- DEINTERLEAVE(b) (42_reed_solomon.md R145): the block's symbols, and zeros for the padding. -/
def deinterleaveBlock (c : Cfg) (k b : Nat) (frm : List Byte) : Except Fault (List Byte) := do
  let symbols ← readAll .frm frm (blockPositions c k b)
  return symbols ++ List.replicate (c.rsK - k) 0

/-- REINTERLEAVE(b, cw) (42_reed_solomon.md R148): parity and message symbols written back, padding not. -/
def reinterleaveBlock (c : Cfg) (k b : Nat) (cw frm : List Byte) : Except Fault (List Byte) :=
  writeAll .frm frm ((blockPositions c k b).zip cw)

/-- The free bytes numbered from `draws` on, `n` of them (42_reed_solomon.md R147). -/
def drawBytes (draws n : Nat) : List Byte := (List.range n).map fun i => Config.rsDraw (draws + i)

/-- The frame after a block that failed: each of the block's positions holds a free value, and no other byte
changes (42_reed_solomon.md R147). -/
def drawBlock (c : Cfg) (k b draws : Nat) (frm : List Byte) : Except Fault (List Byte) :=
  writeAll .frm frm ((blockPositions c k b).zip (drawBytes draws (blockPositions c k b).length))

/-- `DC.rs_ok[b] <- ok` (42_reed_solomon.md R150). -/
def setRsOk (dc : Decoder) (b : Nat) (ok : Bool) : Decoder := { dc with rsOk := dc.rsOk.set b ok }

/-- One block of the FEC stage (42_reed_solomon.md R149): deinterleave, correct, record the result, then
reinterleave or draw. -/
def fecBlock (c : Cfg) (p : Pipe) (b : Nat) : Except Fault Pipe := do
  let r ← deinterleaveBlock c p.w.msgLen b p.w.frm
  match rsCorrect c p.w.msgLen r with
  | some cw =>
    let frm ← reinterleaveBlock c p.w.msgLen b cw p.w.frm
    return { p with dc := setRsOk p.dc b true, w := { p.w with frm := frm, r := r, ok := true, cw := cw } }
  | none =>
    let frm ← drawBlock c p.w.msgLen b p.draws p.w.frm
    return {
      dc := setRsOk p.dc b false
      draws := p.draws + (blockPositions c p.w.msgLen b).length
      w := { p.w with frm := frm, r := r, ok := false } }

/-- The blocks `bs` in order. -/
def fecBlocks (c : Cfg) : List Nat → Pipe → Except Fault Pipe
  | [], p => .ok p
  | b :: bs, p => do
    let p' ← fecBlock c p b
    fecBlocks c bs p'

/-- Stage 2 of DEC_FRAME (42_reed_solomon.md R149): the mode before correction, then every block. -/
def fecStageOp (c : Cfg) (p : Pipe) : Except Fault Pipe := do
  let ext ← isExtended c p.w.frm
  let p' ← fecBlocks c (List.range c.rsIlv) { p with w := setModePre c ext p.w }
  return { p' with w := { p'.w with stage := .mode } }

/-- DEINTERLEAVE(b): `r` is the gathered codeword (42_reed_solomon.md R145). -/
def deinterleaveOp (b : Nat) (c : Cfg) (p : Pipe) : Except Fault Pipe := do
  let r ← deinterleaveBlock c p.w.msgLen b p.w.frm
  return { p with w := { p.w with r := r } }

/-- RS_CORRECT: `(ok, c) <- CORRECT(r)` (42_reed_solomon.md R146); a failure leaves `c` as it was, since the rule
gives none. -/
def rsCorrectOp (c : Cfg) (p : Pipe) : Except Fault Pipe :=
  match rsCorrect c p.w.msgLen p.w.r with
  | some cw => .ok { p with w := { p.w with ok := true, cw := cw } }
  | none => .ok { p with w := { p.w with ok := false } }

/-- REINTERLEAVE(b, c), "when CORRECT(r_b) returns (true, c)" (42_reed_solomon.md R148). -/
def reinterleaveOp (b : Nat) (c : Cfg) (p : Pipe) : Except Fault Pipe :=
  if p.w.ok then do
    let frm ← reinterleaveBlock c p.w.msgLen b p.w.cw p.w.frm
    return { p with w := { p.w with frm := frm } }
  else .ok p

/-- DEINTERLEAVE (42_reed_solomon.md R145). -/
def execDeinterleave (b : Nat) (s : State) : Host.Outcome State Fault Refusal := onPipe (deinterleaveOp b) s

/-- RS_CORRECT (42_reed_solomon.md R146). -/
def execRsCorrect (s : State) : Host.Outcome State Fault Refusal := onPipe rsCorrectOp s

/-- REINTERLEAVE (42_reed_solomon.md R148). -/
def execReinterleave (b : Nat) (s : State) : Host.Outcome State Fault Refusal := onPipe (reinterleaveOp b) s

/-- FEC_STAGE (42_reed_solomon.md R149). -/
def execFecStage (s : State) : Host.Outcome State Fault Refusal := onPipe fecStageOp s

end Sys2Proof.Machine
end

