-- ==== Sys2Proof/Machine/Calibration.lean ====
section
/-! DEFINITION. The calibration accumulator (44_subframe_parser.md R178 to R180). -/

namespace Sys2Proof.Machine

/-- CAL_COMPLETE_CHECK: the flag is set when every bit of the bitmap is 0, and never cleared
(44_subframe_parser.md R179). -/
def calCompleteCheck (dc : Decoder) : Decoder :=
  if bitmapClear dc.bitmap then { dc with calibrated := true } else dc

/-- CAL_MERGE(k, data): a fragment number outside the block changes nothing; else the fragment is written, its
bit cleared and the completion checked (44_subframe_parser.md R178). -/
def calMerge (c : Cfg) (k : Byte) (data : List Byte) (dc : Decoder) : Except Fault Decoder :=
  if c.calFragCount ≤ k.toNat then .ok dc
  else do
    let cal ← calWrite c dc.cal (k.toNat * c.calFragSize) data
    return calCompleteCheck { dc with cal := cal, bitmap := dc.bitmap.set k.toNat false }

/-- BURSTKILL(): the timer as the calibration block holds it now (44_subframe_parser.md R180). -/
def burstkill (c : Cfg) (cal : Memory) : Except Fault Int := do
  let bytes ← calRead c cal c.bkCalOffset 2
  let raw ← u16le .cal bytes 0
  return if raw = c.bkDisabledRaw then c.bkDisabled else (raw.toNat : Int)

/-- BURSTKILL, its result left in the working state. -/
def burstkillOp (c : Cfg) (p : Pipe) : Except Fault Pipe := do
  let v ← burstkill c p.dc.cal
  return { p with w := { p.w with burst := v } }

/-- CAL_MERGE (44_subframe_parser.md R178): it acts on the Decoder's own state. -/
def execCalMerge (k : Byte) (data : List Byte) (s : State) : Host.Outcome State Fault Refusal :=
  match calMerge s.cfg k data s.dc with
  | .ok dc => .next (s.setDc dc)
  | .error e => .fault e

/-- CAL_COMPLETE_CHECK (44_subframe_parser.md R179): it acts on the Decoder's own state. -/
def execCalCompleteCheck (s : State) : Host.Outcome State Fault Refusal := .next (s.setDc (calCompleteCheck s.dc))

/-- BURSTKILL (44_subframe_parser.md R180). -/
def execBurstkill (s : State) : Host.Outcome State Fault Refusal := onPipe burstkillOp s

end Sys2Proof.Machine
end

