-- ==== Sys2Proof/Machine/Subframe.lean ====
section
/-! DEFINITION. The per-subframe operations and one turn of the walk (44_subframe_parser.md R173 to R189). -/

namespace Sys2Proof.Machine

/-- What SF_STATUS does with a payload that passed the gate (44_subframe_parser.md R177, R189): the merge first,
then the copy. -/
def statusAct (c : Cfg) (payload : List Byte) (p : Pipe) : Except Fault Pipe :=
  if payload.length < c.statusMinLen then .ok p
  else do
    let k ← readAt .payload payload c.statusFragSeqOff
    let data ← slice .payload payload c.statusFragDataOff c.calFragSize
    let dc ← calMerge c k data p.dc
    let serial ← slice .payload payload c.statusSerialOff c.serialLen
    let seq ← u16le .payload payload c.statusSeqOff
    let burst ← burstkill c dc.cal
    let record := { p.w.record with serial := serial, seq := seq, calibrated := dc.calibrated, burstkill := burst }
    return { p with dc := dc, w := { p.w with record := record } }

/-- What SF_GPSPOS does with a payload that passed the gate (44_subframe_parser.md R181, R189): the conversion
is the collaborator's (R182), on the raw integers. -/
def gpsposAct (c : Cfg) (payload : List Byte) (p : Pipe) : Except Fault Pipe :=
  if payload.length < c.gpsposMinLen then .ok p
  else do
    let x ← s32le .payload payload c.gpsXOff
    let y ← s32le .payload payload c.gpsYOff
    let z ← s32le .payload payload c.gpsZOff
    let vx ← s16le .payload payload c.gpsVxOff
    let vy ← s16le .payload payload c.gpsVyOff
    let vz ← s16le .payload payload c.gpsVzOff
    let pos := Config.geoPos c.geoPos x y z
    let vel := Config.geoVel c.geoVel x y z vx vy vz
    let record :=
      { p.w.record with
        lat := pos.1, lon := pos.2.1, alt := pos.2.2
        speed := vel.1, heading := vel.2.1, climb := vel.2.2 }
    return { p with w := { p.w with record := record } }

/-- SF_PTU changes nothing, whatever its length (44_subframe_parser.md R183). -/
def ptuAct (_ : Cfg) (_ : List Byte) (p : Pipe) : Except Fault Pipe := .ok p

/-- SF_GPSINFO changes nothing (44_subframe_parser.md R184). -/
def gpsinfoAct (_ : Cfg) (_ : List Byte) (p : Pipe) : Except Fault Pipe := .ok p

/-- SF_GPSRAW changes nothing (44_subframe_parser.md R185). -/
def gpsrawAct (_ : Cfg) (_ : List Byte) (p : Pipe) : Except Fault Pipe := .ok p

/-- SF_XDATA changes nothing (44_subframe_parser.md R186). -/
def xdataAct (_ : Cfg) (_ : List Byte) (p : Pipe) : Except Fault Pipe := .ok p

/-- SF_EMPTY changes nothing (44_subframe_parser.md R187). -/
def emptyAct (_ : Cfg) (_ : List Byte) (p : Pipe) : Except Fault Pipe := .ok p

/-- SF_UNKNOWN changes nothing and raises nothing (44_subframe_parser.md R188). -/
def unknownAct (_ : Cfg) (_ : List Byte) (p : Pipe) : Except Fault Pipe := .ok p

/-- EXEC: what a kind of subframe does (44_subframe_parser.md R176). -/
def actOf : SubKind → Cfg → List Byte → Pipe → Except Fault Pipe
  | .status => statusAct
  | .gpspos => gpsposAct
  | .ptu => ptuAct
  | .gpsinfo => gpsinfoAct
  | .gpsraw => gpsrawAct
  | .xdata => xdataAct
  | .empty => emptyAct
  | .unknown => unknownAct

/-- `off` moved past a subframe by its own length byte (44_subframe_parser.md R173, R175). -/
def advance (c : Cfg) (payload : List Byte) (p : Pipe) : Pipe :=
  { p with w := { p.w with off := p.w.off + payload.length + c.sfOverhead } }

/-- One turn of the walk for a subframe inside the region: it acts only when its CRC holds, and the walk goes on
after it in either case (44_subframe_parser.md R173, R175). -/
def subframeTurn (act : Cfg → List Byte → Pipe → Except Fault Pipe) (payload : List Byte) (crc : Half)
    (c : Cfg) (p : Pipe) : Except Fault Pipe :=
  (if crcGate c payload crc then act c payload p else .ok p).map (advance c payload)

/-- The subframe at `off`, or none where the walk ends (44_subframe_parser.md R173, R174); the CRC gate's reads lie
in the region (20_memory.md R54). -/
def fetchSubframe (c : Cfg) (w : Work) : Except Fault (Option Subframe) := do
  let reg ← region c w
  match decodeSubframe c (reg.drop w.off) with
  | .ok (sf, _) => return some sf
  | .error .noHeader => return none
  | .error .beyondRegion => return none
  | .error .noCrc => .error (.outOfBounds .region)

/-- The turns of the walk from the present `off` on (44_subframe_parser.md R173); a walk that has more than `fuel`
of them is stuck (notes/assumptions/25.md). -/
def walkLoop (c : Cfg) : Nat → Pipe → Except Fault Pipe
  | 0, _ => .error .walkStuck
  | fuel + 1, p => do
    match ← fetchSubframe c p.w with
    | none => return p
    | some sf =>
      let p' ← subframeTurn (actOf (subKind c sf.tag)) sf.payload sf.crc c p
      walkLoop c fuel p'

/-- Stage 4 of DEC_FRAME: WALK(R, L) from offset 0 (44_subframe_parser.md R173). Each turn moves `off` on,
so `L + 1` turns are enough (R192: "by at least 4"), unless a subframe of no bytes keeps it where it is
(notes/assumptions/25.md). -/
def walkOp (c : Cfg) (p : Pipe) : Except Fault Pipe := do
  let p' ← walkLoop c (p.w.regionLen + 1) { p with w := { p.w with off := 0 } }
  return { p' with w := { p'.w with stage := .deliver } }

/-- SF_STATUS (44_subframe_parser.md R177): its turn of the walk. -/
def execSfStatus (payload : List Byte) (crc : Half) (s : State) : Host.Outcome State Fault Refusal :=
  onPipe (subframeTurn (actOf .status) payload crc) s

/-- SF_PTU (44_subframe_parser.md R183): its turn of the walk. -/
def execSfPtu (payload : List Byte) (crc : Half) (s : State) : Host.Outcome State Fault Refusal :=
  onPipe (subframeTurn (actOf .ptu) payload crc) s

/-- SF_GPSPOS (44_subframe_parser.md R181): its turn of the walk. -/
def execSfGpspos (payload : List Byte) (crc : Half) (s : State) : Host.Outcome State Fault Refusal :=
  onPipe (subframeTurn (actOf .gpspos) payload crc) s

/-- SF_GPSINFO (44_subframe_parser.md R184): its turn of the walk. -/
def execSfGpsinfo (payload : List Byte) (crc : Half) (s : State) : Host.Outcome State Fault Refusal :=
  onPipe (subframeTurn (actOf .gpsinfo) payload crc) s

/-- SF_GPSRAW (44_subframe_parser.md R185): its turn of the walk. -/
def execSfGpsraw (payload : List Byte) (crc : Half) (s : State) : Host.Outcome State Fault Refusal :=
  onPipe (subframeTurn (actOf .gpsraw) payload crc) s

/-- SF_XDATA (44_subframe_parser.md R186): its turn of the walk. -/
def execSfXdata (payload : List Byte) (crc : Half) (s : State) : Host.Outcome State Fault Refusal :=
  onPipe (subframeTurn (actOf .xdata) payload crc) s

/-- SF_EMPTY (44_subframe_parser.md R187): its turn of the walk. -/
def execSfEmpty (payload : List Byte) (crc : Half) (s : State) : Host.Outcome State Fault Refusal :=
  onPipe (subframeTurn (actOf .empty) payload crc) s

/-- SF_UNKNOWN (44_subframe_parser.md R188): its turn of the walk, whatever the tag. -/
def execSfUnknown (payload : List Byte) (crc : Half) (s : State) : Host.Outcome State Fault Refusal :=
  onPipe (subframeTurn (actOf .unknown) payload crc) s

/-- WALK (44_subframe_parser.md R173). -/
def execWalk (s : State) : Host.Outcome State Fault Refusal := onPipe walkOp s

end Sys2Proof.Machine
end

