-- ==== Sys2Proof/Machine/Decoding.lean ====
section
/-! DEFINITION. The mode of a frame, the delivery of its record, and the Decoder's one agent step DEC_FRAME
(44_subframe_parser.md R170 to R172, R190). -/

namespace Sys2Proof.Machine

/-- Stage 3 of DEC_FRAME: the mode after correction (44_subframe_parser.md R172). -/
def modeOp (c : Cfg) (p : Pipe) : Except Fault Pipe := do
  let ext ← isExtended c p.w.frm
  return { p with w := { setModePost c ext p.w with stage := .walk } }

/-- A frame-type byte at the point the decode has reached (30_encoding.md R73). -/
def ftypeOp (ext : Bool) (c : Cfg) (p : Pipe) : Except Fault Pipe := .ok { p with w := readMode c ext p.w }

/-- The frame-type byte of the working frame, decoded (30_encoding.md R73, R82). -/
def fetchFtype (c : Cfg) (w : Work) : Except Fault Instr := do
  let v ← readAt .frm w.frm c.ftypeOff
  return decodeFtype c v

/-- The pipeline of one frame (44_subframe_parser.md R170): descramble, correct, read the mode, walk. -/
def decodePipeline (c : Cfg) (p : Pipe) : Except Fault Pipe := do
  let p1 ← descrambleOp c p
  let p2 ← fecStageOp c p1
  let p3 ← modeOp c p2
  walkOp c p3

/-- DEC_FRAME (44_subframe_parser.md R170): one atomic step, whose working state does not survive it
(10_state.md R33); with the Decoder stopped or `Q` empty it waits (R170, notes/assumptions/3.md). The polarity
flag of the frame is not read (40_framer.md R117). -/
def execDecFrame (s : State) : Host.Outcome State Fault Refusal :=
  if decFrameEnabled s then
    match s.q.items with
    | [] => .next s
    | f :: rest =>
      match decodePipeline s.cfg ⟨s.dc, s.draws, startWork s.cfg f.frame⟩ with
      | .ok p => .next (deliver (((s.setQ { s.q with items := rest }).setDc p.dc).setDraws p.draws) p.w.record)
      | .error e => .fault e
  else .next s

/-- MODE (44_subframe_parser.md R172). -/
def execMode (s : State) : Host.Outcome State Fault Refusal := onPipe modeOp s

/-- FT_EXTENDED (30_encoding.md R73). -/
def execFtExtended (s : State) : Host.Outcome State Fault Refusal := onPipe (ftypeOp true) s

/-- FT_NORMAL (30_encoding.md R82): every value other than EXT_FLAG, none is an error. -/
def execFtNormal (s : State) : Host.Outcome State Fault Refusal := onPipe (ftypeOp false) s

/-- DELIVER_RECORD (44_subframe_parser.md R190): the record goes to the handler, and the frame decode ends. -/
def execDeliverRecord (s : State) : Host.Outcome State Fault Refusal :=
  match s.work with
  | none => .next s
  | some w => .next ((deliver s w.record).setWork none)

end Sys2Proof.Machine
end

