-- ==== Sys2Proof/Machine/Framing.lean ====
section
/-! DEFINITION. The Framer's five steps (40_framer.md R100 to R111). A step that is not enabled is not taken: the
Framer waits (R112, notes/assumptions/3.md). -/

namespace Sys2Proof.Machine

/-- FR_PULL (40_framer.md R101): one byte, most significant bit first, after the bits already buffered. -/
def execFrPull (s : State) : Host.Outcome State Fault Refusal :=
  if frPullEnabled s then
    match s.inp with
    | .byte v :: rest => .next ((s.setInp rest).setFr { s.fr with buf := s.fr.buf ++ bitsOf v })
    | _ => .next s
  else .next s

/-- FR_READ_FAIL (40_framer.md R102): END is consumed and ReadError is taken (60_exceptions.md R222). -/
def execFrReadFail (s : State) : Host.Outcome State Fault Refusal :=
  if frReadFailEnabled s then .next (raiseError .eRead (s.setInp (s.inp.drop 1))) else .next s

/-- FR_CORRELATE (40_framer.md R103): the search over the first `8F` buffered bits. -/
def execFrCorrelate (s : State) : Host.Outcome State Fault Refusal :=
  if frCorrelateEnabled s then
    let found := corr s.cfg (s.fr.buf.take s.cfg.frameBits)
    .next (s.setFr { s.fr with syncOff := found.1, inv := found.2, phase := .deoffset })
  else .next s

/-- The frame that starts at the sync offset (40_framer.md R109). -/
def extractFrame (c : Cfg) (fr : Framer) : List Byte := pack ((fr.buf.drop fr.syncOff).take c.frameBits)

/-- FR_EMIT (40_framer.md R108): publish, and keep the leftover bits (R110). -/
def execFrEmit (s : State) : Host.Outcome State Fault Refusal :=
  if frEmitEnabled s then
    let frame := extractFrame s.cfg s.fr
    .next (((s.setQ (publish s.q frame s.fr.inv)).setFtrace (s.ftrace ++ [⟨frame, s.fr.inv, s.fr.syncOff⟩])).setFr
      { s.fr with buf := s.fr.buf.drop (s.fr.syncOff + s.cfg.frameBits), phase := .read })
  else .next s

/-- FR_PUBLISH_FAIL (40_framer.md R111): PublishError is taken (60_exceptions.md R223), the frame is not
published. -/
def execFrPublishFail (s : State) : Host.Outcome State Fault Refusal :=
  if frPublishFailEnabled s then .next (raiseError .ePublish s) else .next s

end Sys2Proof.Machine
end

