-- ==== Sys2Proof/Machine/HostPort.lean ====
section
/-! DEFINITION. The host operations (45_stage_control.md R200 to R206, 70_reset_and_hazards.md R250) and the
observation interface (10_state.md R39, 45_stage_control.md R210). A refused operation changes nothing and
reports nothing (45_stage_control.md R208, notes/assumptions/12.md). -/

namespace Sys2Proof.Machine

/-- RESET (70_reset_and_hazards.md R250) with the configuration given; a configuration that fails the framer
group is refused (00_scope.md R4, 93_implementation_defined.md U9: "rejected and changes nothing",
notes/assumptions/8.md). -/
def execReset (cfg : Cfg) (s : State) : Host.Outcome State Fault Refusal :=
  if cfg.framerOk then .next (State.resetWith cfg s.agenda s.draws) else .next s

/-- PUSH (45_stage_control.md R200). -/
def execPush (bytes : List Byte) (s : State) : Host.Outcome State Fault Refusal :=
  .next (s.setInp (s.inp ++ bytes.map .byte))

/-- PUSH_END (45_stage_control.md R201). -/
def execPushEnd (s : State) : Host.Outcome State Fault Refusal := .next (s.setInp (s.inp ++ [.eos]))

/-- CLOSE_OUTPUT (45_stage_control.md R202). -/
def execCloseOutput (s : State) : Host.Outcome State Fault Refusal := .next (s.setQ { s.q with closed := true })

/-- QUIESCE FRAMER (45_stage_control.md R203): stopped, and its working state discarded. -/
def execQuiesceFramer (s : State) : Host.Outcome State Fault Refusal := .next (s.setFr Framer.reset)

/-- QUIESCE DECODER (45_stage_control.md R204): stopped, and its state kept. -/
def execQuiesceDecoder (s : State) : Host.Outcome State Fault Refusal :=
  .next (s.setDc { s.dc with stage := .stopped })

/-- REBIND FRAMER (45_stage_control.md R205): only of a stopped Framer. -/
def execRebindFramer (s : State) : Host.Outcome State Fault Refusal :=
  if s.fr.stage = .stopped then .next (s.setInp []) else .next s

/-- RESUME FRAMER (45_stage_control.md R206): only of a stopped Framer. -/
def execResumeFramer (s : State) : Host.Outcome State Fault Refusal :=
  if s.fr.stage = .stopped then .next (returnFromError s) else .next s

/-- RESUME DECODER (45_stage_control.md R206): only of a stopped Decoder under a configuration that meets the
decoder group (00_scope.md R4). -/
def execResumeDecoder (s : State) : Host.Outcome State Fault Refusal :=
  if s.dc.stage = .stopped ∧ s.cfg.decoderOk = true then .next (s.setDc { s.dc with stage := .running })
  else .next s

/-- What the host may observe (10_state.md R39). -/
structure Observation where
  framerStage : RunStatus
  decoderStage : RunStatus
  rsOk : List Bool
  calibrated : Bool
  linkLength : Nat
  recs : List (Record × HandlerCtx)
  ftrace : List Published
  errs : List (Agent × ErrCode)
  deriving DecidableEq, Repr

/-- The observation of a state; it is not a transition (45_stage_control.md R210). -/
def observe (s : State) : Observation :=
  ⟨s.fr.stage, s.dc.stage, s.dc.rsOk, s.dc.calibrated, s.q.items.length, s.recs, s.ftrace, s.errs⟩

end Sys2Proof.Machine
end

