-- ==== Sys2Proof/Machine/Dispatch.lean ====
section
/-! DEFINITION. The dispatch: one arm per row of spec/opcode_table.json. -/

namespace Sys2Proof.Machine

def exec (i : Instr) (s : State) : Host.Outcome State Fault Refusal :=
  match i with
  | .sfStatus payload crc => Sys2Proof.Machine.execSfStatus payload crc s
  | .sfPtu payload crc => Sys2Proof.Machine.execSfPtu payload crc s
  | .sfGpspos payload crc => Sys2Proof.Machine.execSfGpspos payload crc s
  | .sfGpsinfo payload crc => Sys2Proof.Machine.execSfGpsinfo payload crc s
  | .sfGpsraw payload crc => Sys2Proof.Machine.execSfGpsraw payload crc s
  | .sfXdata payload crc => Sys2Proof.Machine.execSfXdata payload crc s
  | .sfEmpty payload crc => Sys2Proof.Machine.execSfEmpty payload crc s
  | .sfUnknown _ payload crc => Sys2Proof.Machine.execSfUnknown payload crc s
  | .ftExtended => Sys2Proof.Machine.execFtExtended s
  | .ftNormal _ => Sys2Proof.Machine.execFtNormal s
  | .frPull => Sys2Proof.Machine.execFrPull s
  | .frReadFail => Sys2Proof.Machine.execFrReadFail s
  | .frCorrelate => Sys2Proof.Machine.execFrCorrelate s
  | .frEmit => Sys2Proof.Machine.execFrEmit s
  | .frPublishFail => Sys2Proof.Machine.execFrPublishFail s
  | .decFrame => Sys2Proof.Machine.execDecFrame s
  | .descramble => Sys2Proof.Machine.execDescramble s
  | .deinterleave b => Sys2Proof.Machine.execDeinterleave b s
  | .rsCorrect => Sys2Proof.Machine.execRsCorrect s
  | .reinterleave b => Sys2Proof.Machine.execReinterleave b s
  | .fecStage => Sys2Proof.Machine.execFecStage s
  | .crc16 o len => Sys2Proof.Machine.execCrc16 o len s
  | .crcOk off len => Sys2Proof.Machine.execCrcOk off len s
  | .mode => Sys2Proof.Machine.execMode s
  | .walk => Sys2Proof.Machine.execWalk s
  | .calMerge k data => Sys2Proof.Machine.execCalMerge k data s
  | .calCompleteCheck => Sys2Proof.Machine.execCalCompleteCheck s
  | .burstkill => Sys2Proof.Machine.execBurstkill s
  | .deliverRecord => Sys2Proof.Machine.execDeliverRecord s
  | .reset cfg => Sys2Proof.Machine.execReset cfg s
  | .push bytes => Sys2Proof.Machine.execPush bytes s
  | .pushEnd => Sys2Proof.Machine.execPushEnd s
  | .closeOutput => Sys2Proof.Machine.execCloseOutput s
  | .quiesceFramer => Sys2Proof.Machine.execQuiesceFramer s
  | .quiesceDecoder => Sys2Proof.Machine.execQuiesceDecoder s
  | .rebindFramer => Sys2Proof.Machine.execRebindFramer s
  | .resumeFramer => Sys2Proof.Machine.execResumeFramer s
  | .resumeDecoder => Sys2Proof.Machine.execResumeDecoder s

end Sys2Proof.Machine
end

