-- ==== Sys2Proof/Machine/Step.lean ====
section
/-! DEFINITION. One step of the block: what comes next, and its meaning (20_memory.md R58,
44_subframe_parser.md R170). -/

namespace Sys2Proof.Machine

/-- The next operation inside a frame decode, line by line of 44_subframe_parser.md R170, with one turn of the
walk at a time; nothing else moves before the decode has ended (it is one atomic transition). The block's own
steps never leave a working state behind (notes/assumptions/2.md). -/
def decodeStep (s : State) (w : Work) : Host.Outcome State Fault Refusal :=
  match w.stage with
  | .descramble => exec .descramble s
  | .fec => exec .fecStage s
  | .mode =>
    match fetchFtype s.cfg w with
    | .ok i => exec i s
    | .error e => .fault e
  | .walk =>
    match fetchSubframe s.cfg w with
    | .ok (some sf) => exec (sf.toInstr s.cfg) s
    | .ok none => .next (s.setWork (some { w with stage := .deliver }))
    | .error e => .fault e
  | .deliver => exec .deliverRecord s

/-- The Framer's turn: its enabled step, or it waits (40_framer.md R100, R112). -/
def framerTurn (s : State) : Host.Outcome State Fault Refusal :=
  match framerStep s with
  | some i => exec i s
  | none => .next s

/-- The directive RUN (30_encoding.md R84): an enabled agent step, in any order, until none is enabled; only
then is it done. -/
def runTurn (rest : List Event) (s : State) : Host.Outcome State Fault Refusal :=
  match framerStep s, decFrameEnabled s with
  | none, false => .next (s.setAgenda rest)
  | some i, false => exec i s
  | none, true => exec .decFrame s
  | some i, true =>
    if Config.runOrder s.draws then exec i (s.setDraws (s.draws + 1)) else exec .decFrame (s.setDraws (s.draws + 1))

/-- One step: the frame decode in progress, if there is one; else the next event of the agenda; with an empty
agenda nothing happens (notes/assumptions/1.md). -/
def step (s : State) : Host.Outcome State Fault Refusal :=
  match s.work with
  | some w => decodeStep s w
  | none =>
    match s.agenda with
    | [] => .next s
    | .framer :: rest => framerTurn (s.setAgenda rest)
    | .decoder :: rest => exec .decFrame (s.setAgenda rest)
    | .host op :: rest => exec op.toInstr (s.setAgenda rest)
    | .run :: rest => runTurn rest s

/-- The working state whose next operation is the one that a word of the opcode table stands for: a frame-type
byte at the point where the mode is read after correction, or a subframe at offset 0 of a normal region, zeros
elsewhere (notes/assumptions/14.md). -/
def wordWork (c : Cfg) (nbits w : Nat) : Work :=
  let clear := startWork c (List.replicate c.frameLen 0)
  if isFtypeWord c nbits w then
    { clear with stage := .mode, frm := clear.frm.set c.ftypeOff (BitVec.ofNat 8 (w % 2 ^ nbits)) }
  else
    { clear with
      stage := .walk
      frm := clear.frm.take c.dataOff ++ wordBytes nbits w ++ clear.frm.drop (c.dataOff + longestBytes) }

/-- `s` with a word of the opcode table where the next step fetches: inside a frame decode. -/
def State.withFetchWord (s : State) (nbits w : Nat) : State := s.setWork (some (wordWork s.cfg nbits w))

end Sys2Proof.Machine
end

