-- ==== Sys2Proof/Machine/Script.lean ====
section
/-! DEFINITION. The script notation of 30_encoding.md R84: from the characters of a line to the host's events. -/

namespace Sys2Proof.Machine

/-- One line of a script (30_encoding.md R84). -/
inductive ScriptLine where
  /-- `CFG <field>=<value> …`. -/
  | cfg (assigns : List (List Char × List Char))
  /-- `RESET`, with the current configuration. -/
  | reset
  /-- Another host operation. -/
  | op (o : HostOp)
  /-- `RUN`. -/
  | run
  /-- An empty line or a comment. -/
  | blank
  deriving DecidableEq, Repr

/-- The characters before a comment. -/
def beforeComment : List Char → List Char
  | [] => []
  | c :: cs => if c = '#' then [] else c :: beforeComment cs

/-- The words of a line: the runs of characters between spaces, after the word begun in `word` (reversed). -/
def wordsFrom (word : List Char) : List Char → List (List Char)
  | [] => if word.isEmpty then [] else [word.reverse]
  | c :: cs =>
    if c = ' ' then (if word.isEmpty then wordsFrom [] cs else word.reverse :: wordsFrom [] cs)
    else wordsFrom (c :: word) cs

/-- The value of a digit in base 16 or below. -/
def digitVal (base : Nat) (c : Char) : Option Nat :=
  let n := c.toNat
  let v :=
    if 48 ≤ n ∧ n ≤ 57 then some (n - 48)
    else if 65 ≤ n ∧ n ≤ 70 then some (n - 55)
    else if 97 ≤ n ∧ n ≤ 102 then some (n - 87)
    else none
  match v with
  | some d => if d < base then some d else none
  | none => none

/-- The value of the digits, most significant first. -/
def digitsVal (base : Nat) : Nat → List Char → Option Nat
  | acc, [] => some acc
  | acc, c :: cs =>
    match digitVal base c with
    | some d => digitsVal base (acc * base + d) cs
    | none => none

/-- A natural number: decimal, or with the prefix 0x hexadecimal, or with 0b binary (00_scope.md §4). -/
def parseNumber : List Char → Option Nat
  | [] => none
  | '0' :: 'x' :: d :: ds => digitsVal 16 0 (d :: ds)
  | '0' :: 'b' :: d :: ds => digitsVal 2 0 (d :: ds)
  | d :: ds => digitsVal 10 0 (d :: ds)

/-- An integer: a natural number, or one after a minus sign (`BK_DISABLED` is -1 in 00_scope.md R3). -/
def parseInt : List Char → Option Int
  | '-' :: ds => (parseNumber ds).map fun v => -(v : Int)
  | ds => (parseNumber ds).map fun v => (v : Int)

/-- A value of `w` bits; none for a number that does not fit. -/
def parseBits (w : Nat) (ds : List Char) : Option (BitVec w) :=
  match parseNumber ds with
  | some v => if v < 2 ^ w then some (BitVec.ofNat w v) else none
  | none => none

/-- A fraction `a/b` (`GPS_SCALE` is 1/100 in 00_scope.md R3). -/
def parseFraction (ds : List Char) : Option (Nat × Nat) :=
  match parseNumber (ds.takeWhile fun d => d != '/'), ds.dropWhile fun d => d != '/' with
  | some a, _ :: bs => (parseNumber bs).map fun b => (a, b)
  | _, _ => none

/-- A hex byte: a pair of hex digits (30_encoding.md R84). -/
def parseByte : List Char → Option Byte
  | [a, b] => (digitsVal 16 0 [a, b]).map (BitVec.ofNat 8)
  | _ => none

/-- An assignment `<field>=<value>`, as the characters of the two, after the field's characters in `name`
(reversed). -/
def parseAssign (name : List Char) : List Char → Option (List Char × List Char)
  | [] => none
  | c :: cs => if c = '=' then some (name.reverse, cs) else parseAssign (c :: name) cs

/-- The line that the words stand for; none for words that are no line of 30_encoding.md R84. -/
def parseWords (ws : List (List Char)) : Option ScriptLine :=
  match ws with
  | [] => some .blank
  | w :: args =>
    if w = "CFG".toList then (args.mapM (parseAssign [])).map .cfg
    else if w = "PUSH".toList then (args.mapM parseByte).map fun bytes => .op (.push bytes)
    else if ws = ["RESET".toList] then some .reset
    else if ws = ["RUN".toList] then some .run
    else if ws = ["PUSH_END".toList] then some (.op .pushEnd)
    else if ws = ["CLOSE_OUTPUT".toList] then some (.op .closeOutput)
    else if ws = ["QUIESCE".toList, "FRAMER".toList] then some (.op .quiesceFramer)
    else if ws = ["QUIESCE".toList, "DECODER".toList] then some (.op .quiesceDecoder)
    else if ws = ["REBIND".toList, "FRAMER".toList] then some (.op .rebindFramer)
    else if ws = ["RESUME".toList, "FRAMER".toList] then some (.op .resumeFramer)
    else if ws = ["RESUME".toList, "DECODER".toList] then some (.op .resumeDecoder)
    else none

/-- One line of a script. -/
def parseLine (line : List Char) : Option ScriptLine := parseWords (wordsFrom [] (beforeComment line))

/-- The index of `PRN[k]` in a field's name. -/
def prnFieldIndex : List Char → Option Nat
  | 'P' :: 'R' :: 'N' :: '[' :: ds =>
    if ds.getLast? = some ']' then parseNumber ds.dropLast else none
  | _ => none

/-- One byte of the PRN table set. -/
def setPrn (k : Nat) (b : Byte) (c : Cfg) : Option Cfg :=
  if h : k < 64 then some { c with prn := c.prn.set k b h } else none

/-- A field of CFG set by its name in 00_scope.md R3, with a value of the field's type: a number that the field
cannot hold is no value of it. `PRN[k]` sets one byte of the table, and the functions and the context are set by
the numbers that name them; the derived `n` is no field (notes/assumptions/22.md). -/
def setField (name v : List Char) (c : Cfg) : Option Cfg :=
  if name = "SYNC_LEN".toList then (parseNumber v).map fun x => { c with syncLen := x }
  else if name = "SYNC_PATTERN".toList then (parseNumber v).map fun x => { c with syncPattern := x }
  else if name = "FRAME_LEN".toList then (parseNumber v).map fun x => { c with frameLen := x }
  else if name = "FRAME_FIFO_DEPTH".toList then (parseNumber v).map fun x => { c with fifoDepth := x }
  else if name = "PRN_PERIOD".toList then (parseNumber v).map fun x => { c with prnPeriod := x }
  else if name = "WHITEN_MASK".toList then (parseBits 8 v).map fun x => { c with whitenMask := x }
  else if name = "SYNC_OFF".toList then (parseNumber v).map fun x => { c with syncOff := x }
  else if name = "SYNC_BYTES".toList then (parseNumber v).map fun x => { c with syncBytes := x }
  else if name = "PAR_OFF".toList then (parseNumber v).map fun x => { c with parOff := x }
  else if name = "PAR_LEN".toList then (parseNumber v).map fun x => { c with parLen := x }
  else if name = "FTYPE_OFF".toList then (parseNumber v).map fun x => { c with ftypeOff := x }
  else if name = "EXT_FLAG".toList then (parseBits 8 v).map fun x => { c with extFlag := x }
  else if name = "DATA_OFF".toList then (parseNumber v).map fun x => { c with dataOff := x }
  else if name = "DATA_LEN_NORMAL".toList then (parseNumber v).map fun x => { c with dataLenNormal := x }
  else if name = "DATA_LEN_EXT".toList then (parseNumber v).map fun x => { c with dataLenExt := x }
  else if name = "GF_POLY".toList then (parseBits 9 v).map fun x => { c with gfPoly := x }
  else if name = "RS_FCR".toList then (parseNumber v).map fun x => { c with rsFcr := x }
  else if name = "RS_PRIM".toList then (parseNumber v).map fun x => { c with rsPrim := x }
  else if name = "RS_T".toList then (parseNumber v).map fun x => { c with rsT := x }
  else if name = "RS_NROOTS".toList then (parseNumber v).map fun x => { c with rsNroots := x }
  else if name = "RS_N".toList then (parseNumber v).map fun x => { c with rsN := x }
  else if name = "RS_K".toList then (parseNumber v).map fun x => { c with rsK := x }
  else if name = "RS_ILV".toList then (parseNumber v).map fun x => { c with rsIlv := x }
  else if name = "RS_MSG_OFF".toList then (parseNumber v).map fun x => { c with rsMsgOff := x }
  else if name = "RS_MSG_NORMAL".toList then (parseNumber v).map fun x => { c with rsMsgNormal := x }
  else if name = "RS_MSG_EXT".toList then (parseNumber v).map fun x => { c with rsMsgExt := x }
  else if name = "CRC_POLY".toList then (parseBits 16 v).map fun x => { c with crcPoly := x }
  else if name = "CRC_INIT".toList then (parseBits 16 v).map fun x => { c with crcInit := x }
  else if name = "CRC_XOROUT".toList then (parseBits 16 v).map fun x => { c with crcXorout := x }
  else if name = "SF_OVERHEAD".toList then (parseNumber v).map fun x => { c with sfOverhead := x }
  else if name = "ST_STATUS".toList then (parseBits 8 v).map fun x => { c with stStatus := x }
  else if name = "ST_PTU".toList then (parseBits 8 v).map fun x => { c with stPtu := x }
  else if name = "ST_GPSPOS".toList then (parseBits 8 v).map fun x => { c with stGpspos := x }
  else if name = "ST_GPSINFO".toList then (parseBits 8 v).map fun x => { c with stGpsinfo := x }
  else if name = "ST_GPSRAW".toList then (parseBits 8 v).map fun x => { c with stGpsraw := x }
  else if name = "ST_XDATA".toList then (parseBits 8 v).map fun x => { c with stXdata := x }
  else if name = "ST_EMPTY".toList then (parseBits 8 v).map fun x => { c with stEmpty := x }
  else if name = "STATUS_MIN_LEN".toList then (parseNumber v).map fun x => { c with statusMinLen := x }
  else if name = "GPSPOS_MIN_LEN".toList then (parseNumber v).map fun x => { c with gpsposMinLen := x }
  else if name = "STATUS_SEQ_OFF".toList then (parseNumber v).map fun x => { c with statusSeqOff := x }
  else if name = "STATUS_SERIAL_OFF".toList then (parseNumber v).map fun x => { c with statusSerialOff := x }
  else if name = "SERIAL_LEN".toList then (parseNumber v).map fun x => { c with serialLen := x }
  else if name = "STATUS_FRAG_SEQ_OFF".toList then (parseNumber v).map fun x => { c with statusFragSeqOff := x }
  else if name = "STATUS_FRAG_DATA_OFF".toList then (parseNumber v).map fun x => { c with statusFragDataOff := x }
  else if name = "GPS_X_OFF".toList then (parseNumber v).map fun x => { c with gpsXOff := x }
  else if name = "GPS_Y_OFF".toList then (parseNumber v).map fun x => { c with gpsYOff := x }
  else if name = "GPS_Z_OFF".toList then (parseNumber v).map fun x => { c with gpsZOff := x }
  else if name = "GPS_VX_OFF".toList then (parseNumber v).map fun x => { c with gpsVxOff := x }
  else if name = "GPS_VY_OFF".toList then (parseNumber v).map fun x => { c with gpsVyOff := x }
  else if name = "GPS_VZ_OFF".toList then (parseNumber v).map fun x => { c with gpsVzOff := x }
  else if name = "CAL_FRAG_SIZE".toList then (parseNumber v).map fun x => { c with calFragSize := x }
  else if name = "CAL_FRAG_COUNT".toList then (parseNumber v).map fun x => { c with calFragCount := x }
  else if name = "CAL_LEN".toList then (parseNumber v).map fun x => { c with calLen := x }
  else if name = "BK_CAL_OFFSET".toList then (parseNumber v).map fun x => { c with bkCalOffset := x }
  else if name = "BK_DISABLED_RAW".toList then (parseBits 16 v).map fun x => { c with bkDisabledRaw := x }
  else if name = "BK_DISABLED".toList then (parseInt v).map fun x => { c with bkDisabled := x }
  else if name = "GPS_SCALE".toList then (parseFraction v).map fun x => { c with gpsScale := x }
  else if name = "GEO_POS".toList then (parseNumber v).map fun x => { c with geoPos := x }
  else if name = "GEO_VEL".toList then (parseNumber v).map fun x => { c with geoVel := x }
  else if name = "GEO_ZERO".toList then (parseInt v).map fun x => { c with geoZero := x }
  else if name = "HANDLER_CTX".toList then (parseNumber v).map fun x => { c with handlerCtx := x }
  else
    match prnFieldIndex name, parseBits 8 v with
    | some k, some b => setPrn k b c
    | _, _ => none

/-- The assignments of a CFG line, in order. -/
def setFields (c : Cfg) : List (List Char × List Char) → Option Cfg
  | [] => some c
  | (name, v) :: rest =>
    match setField name v c with
    | some c' => setFields c' rest
    | none => none

/-- The events of a script from the configuration `c`; a CFG line stands only before the first RESET
(30_encoding.md R84). -/
def scriptEvents (c : Cfg) (afterReset : Bool) : List ScriptLine → Option (List Event)
  | [] => some []
  | .blank :: rest => scriptEvents c afterReset rest
  | .cfg assigns :: rest =>
    if afterReset then none
    else
      match setFields c assigns with
      | some c' => scriptEvents c' false rest
      | none => none
  | .reset :: rest => (scriptEvents c true rest).map fun es => .host (.reset c) :: es
  | .op o :: rest => (scriptEvents c afterReset rest).map fun es => .host o :: es
  | .run :: rest => (scriptEvents c afterReset rest).map fun es => .run :: es

/-- A script's lines as the events of the agenda, from the default configuration. -/
def loadScript (lines : List (List Char)) : Option (List Event) :=
  match lines.mapM parseLine with
  | some ls => scriptEvents Cfg.rs41 false ls
  | none => none

end Sys2Proof.Machine
end

