-- ==== Sys2Proof/Safety.lean ====
section
/-! DEFINITION. What counts as a good state and a safe run, and the functions of the input that claims compare
the block with. -/

namespace Sys2Proof.Machine

/-- The Framer's invariants (10_state.md R22, R23, 40_framer.md R110, R115), and that a stopped Framer holds
the reset working state (45_stage_control.md R206: "which is the reset state after an error entry or a
quiesce"). -/
structure FramerInv (c : Cfg) (fr : Framer) : Prop where
  stoppedReset : fr.stage = .stopped → fr = Framer.reset
  readBound : fr.phase = .read → fr.cur ≤ c.frameBits + 7
  deoffsetLow : fr.phase = .deoffset → c.frameBits ≤ fr.cur
  deoffsetHigh : fr.phase = .deoffset → fr.cur ≤ fr.syncOff + c.frameBits + 7
  syncOffBound : fr.syncOff ≤ c.frameBits - c.syncBits

/-- The invariants of the link (10_state.md R27). -/
structure LinkInv (c : Cfg) (q : Link) : Prop where
  depth : q.items.length ≤ c.fifoDepth
  frames : ∀ f ∈ q.items, f.frame.length = c.frameLen

/-- The invariants of the Decoder (10_state.md R28 to R31, 44_subframe_parser.md R179, 45_stage_control.md
R206). -/
structure DecoderInv (c : Cfg) (dc : Decoder) : Prop where
  calWf : dc.cal.wf = true
  calBelow : Memory.below c.calLen dc.cal = true
  bitmapLength : dc.bitmap.length = c.calFragCount
  rsOkLength : dc.rsOk.length = c.rsIlv
  calibratedClear : dc.calibrated = true → bitmapClear dc.bitmap = true
  clearCalibrated : 0 < c.calFragCount → bitmapClear dc.bitmap = true → dc.calibrated = true
  runningOk : dc.stage = .running → c.decoderOk = true

/-- The invariant of the block between its steps: the configuration meets the framer group (00_scope.md R4), the
parts meet theirs, and no working state is left (10_state.md R33). -/
structure Inv (s : State) : Prop where
  cfgOk : s.cfg.framerOk = true
  framer : FramerInv s.cfg s.fr
  link : LinkInv s.cfg s.q
  decoder : DecoderInv s.cfg s.dc
  noWork : s.work = none

/-- A step that neither faults nor is refused. -/
def SafeStep (s : State) : Prop := ∃ t, step s = .next t

/-- The working frame has the length of a frame, under a configuration whose fields lie inside it (00_scope.md
R4, notes/assumptions/21.md). -/
def FrameFits (c : Cfg) (w : Work) : Prop :=
  w.frm.length = c.frameLen ∧ c.decoderOk = true ∧ c.layoutOk = true

/-- Where the walk has been entered: the region is the mode's, inside the frame (44_subframe_parser.md R172). -/
def RegionFits (c : Cfg) (w : Work) : Prop := c.dataOff + w.regionLen ≤ w.frm.length

/-- The frames of a bit stream, as 40_framer.md R113 computes them; `fuel` bounds their number. -/
def streamFrames (c : Cfg) : Nat → Bits → List Published
  | 0, _ => []
  | fuel + 1, stream =>
    if stream.length < c.frameBits then []
    else
      let found := corr c (stream.take c.frameBits)
      if stream.length < found.1 + c.frameBits then []
      else
        ⟨pack ((stream.drop found.1).take c.frameBits), found.2, found.1⟩ ::
          streamFrames c fuel (stream.drop (found.1 + c.frameBits))

/-- The distance of the better polarity at offset `o` of `w` (40_framer.md R105, R116). -/
def bestDistanceAt (c : Cfg) (w : Bits) (o : Nat) : Nat :=
  let d := directDistance c ((w.drop o).take c.syncBits)
  min d (c.syncBits - d)

/-- The complementary match is strictly better at offset `o` (40_framer.md R106). -/
def invertedAt (c : Cfg) (w : Bits) (o : Nat) : Bool :=
  let d := directDistance c ((w.drop o).take c.syncBits)
  decide (c.syncBits - d < d)

/-- A byte with bit `b` flipped. -/
def flipBit (v : Byte) (b : Nat) : Byte := v ^^^ (1 <<< b)

/-- The number of bytes that differ at the positions `ps`. -/
def differAt (ps : List Nat) (x y : List Byte) : Nat := (ps.filter fun i => x[i]? != y[i]?).length

/-- `u16le(A, o)` by the arithmetic of 00_scope.md §4. -/
def natLe16 (a : List Byte) (o : Nat) : Nat := (a.getD o 0).toNat + 256 * (a.getD (o + 1) 0).toNat

/-- `u32le(A, o)` by the arithmetic of 00_scope.md §4. -/
def natLe32 (a : List Byte) (o : Nat) : Nat := natLe16 a o + 65536 * natLe16 a (o + 2)

/-- `sext_N(v)` (00_scope.md §4). -/
def signExtend (n v : Nat) : Int := if 2 ^ (n - 1) ≤ v then (v : Int) - 2 ^ n else v

/-- What merging the fragment `data` with number `k` leaves (44_subframe_parser.md R178, R179), byte by byte. -/
def MergesFragment (c : Cfg) (k : Byte) (data : List Byte) (dc dc' : Decoder) : Prop :=
  dc'.stage = dc.stage ∧ dc'.rsOk = dc.rsOk ∧
    if k.toNat < c.calFragCount then
      (∀ a, dc'.cal.get a =
        if k.toNat * c.calFragSize ≤ a ∧ a < k.toNat * c.calFragSize + c.calFragSize
        then data.getD (a - k.toNat * c.calFragSize) 0 else dc.cal.get a) ∧
      dc'.bitmap = dc.bitmap.set k.toNat false ∧ dc'.calibrated = (dc.calibrated || bitmapClear dc'.bitmap)
    else (∀ a, dc'.cal.get a = dc.cal.get a) ∧ dc'.bitmap = dc.bitmap ∧ dc'.calibrated = dc.calibrated

/-- The value BURSTKILL returns (44_subframe_parser.md R180), from the two calibration bytes. -/
def burstkillValue (c : Cfg) (cal : Memory) : Int :=
  let raw := (cal.get c.bkCalOffset).toNat + 256 * (cal.get (c.bkCalOffset + 1)).toNat
  if raw = c.bkDisabledRaw.toNat then c.bkDisabled else raw

/-- The codeword that DEINTERLEAVE(b) gathers from a frame whose positions all exist (42_reed_solomon.md
R145). -/
def gathered (c : Cfg) (k b : Nat) (frm : List Byte) : List Byte :=
  ((List.range c.rsNroots).map fun j => frm.getD (c.parOff + c.rsNroots * b + j) 0) ++
    ((List.range k).map fun i => frm.getD (c.rsMsgOff + b + c.rsIlv * i) 0) ++ List.replicate (c.rsK - k) 0

/-- The mode bit of a frame (30_encoding.md R73). -/
def extendedFrame (c : Cfg) (frm : List Byte) : Bool := frm.getD c.ftypeOff 0 == c.extFlag

/-- An enabled step of an agent (20_memory.md R58). -/
def AgentStep (s t : State) : Prop :=
  (∃ i, framerStep s = some i ∧ exec i s = .next t) ∨ (decFrameEnabled s = true ∧ exec .decFrame s = .next t)

/-- The Framer's five steps (40_framer.md R100). -/
def framerSteps : List Instr := [.frPull, .frReadFail, .frCorrelate, .frEmit, .frPublishFail]

/-- The next event is not a RESET. -/
def NoResetNext (s : State) : Prop := ∀ cfg rest, s.agenda ≠ .host (.reset cfg) :: rest

end Sys2Proof.Machine
end

