-- ==== Sys2Proof/Certificates/Slice0/Obligations.lean ====
section
/-! DEFINITION. The statements about the model that await a proof. -/

open Sys2Proof Sys2Proof.Machine

/-! Encodings. -/

/-- R75, R77: what the encoder writes for a well-formed subframe operation, the decoder reads back, whatever
follows it in the region; every operand at every value. The overhead is R75's four bytes. -/
def Obligations.SubframeDecodeOfEncode : Prop :=
  ∀ (c : Cfg) (i : Instr) (bytes rest : List Byte), c.tagsDistinct = true → c.sfOverhead = 4 → i.wf c = true →
    encode c i = some bytes → i ≠ .ftExtended → (∀ v, i ≠ .ftNormal v) →
    decode c (bytes ++ rest) = .ok (i, rest)

/-- R75, R76: what the decoder reads is well formed, and its encoding is exactly the bytes that were read. The
overhead is R75's four bytes. -/
def Obligations.SubframeEncodeOfDecode : Prop :=
  ∀ (c : Cfg) (bytes rest : List Byte) (i : Instr), c.sfOverhead = 4 → decode c bytes = .ok (i, rest) →
    i.wf c = true ∧ ∃ e, encode c i = some e ∧ bytes = e ++ rest

/-- R173, R174: the decoder refuses exactly a region without a header and a subframe that would end beyond the
region. With an overhead below the four bytes of R75 the CRC can also lie beyond the region, and the decoder refuses
that too, under its own name (the model's, notes/assumptions/9.md); with four bytes or more it never does. -/
def Obligations.DecodeRefusesWhatDoesNotFit : Prop :=
  ∀ (c : Cfg) (bytes : List Byte),
    (decode c bytes = .error .noHeader ↔ bytes.length < 2) ∧
    (decode c bytes = .error .beyondRegion ↔
      ∃ tag len rest, bytes = tag :: len :: rest ∧ bytes.length < len.toNat + c.sfOverhead) ∧
    (decode c bytes = .error .noCrc ↔
      ∃ tag len rest, bytes = tag :: len :: rest ∧ len.toNat + c.sfOverhead ≤ bytes.length ∧
        bytes.length < len.toNat + 4)

/-- R77: under the default codes every tag selects exactly the row of the opcode map. -/
def Obligations.EveryTagSelectsItsRow : Prop :=
  ∀ (tag : Byte) (payload : List Byte) (crc : Half),
    (⟨tag, payload, crc⟩ : Subframe).toInstr Cfg.rs41 =
      if tag = 0x79 then .sfStatus payload crc
      else if tag = 0x7A then .sfPtu payload crc
      else if tag = 0x7B then .sfGpspos payload crc
      else if tag = 0x7C then .sfGpsinfo payload crc
      else if tag = 0x7D then .sfGpsraw payload crc
      else if tag = 0x7E then .sfXdata payload crc
      else if tag = 0x76 then .sfEmpty payload crc
      else .sfUnknown tag payload crc

/-- R73, R75, R82: words written out from the formats decode to what they stand for; a frame-type byte is
FT_EXTENDED exactly when it is 0xF0. -/
def Obligations.WordsDecodeToTheirRows : Prop :=
  decode Cfg.rs41 [0x7E, 0x01, 0x41, 0x15, 0xB9] = .ok (.sfXdata [0x41] 0xB915, []) ∧
  decode Cfg.rs41 [0x76, 0x00, 0xFF, 0xFF, 0x05] = .ok (.sfEmpty [] 0xFFFF, [0x05]) ∧
  decode Cfg.rs41 [0x79, 0x02, 0xAA, 0xBB, 0x0A, 0xF9] = .ok (.sfStatus [0xAA, 0xBB] 0xF90A, []) ∧
  decode Cfg.rs41 [0x05, 0x00, 0x34, 0x12] = .ok (.sfUnknown 0x05 [] 0x1234, []) ∧
  decodeFtype Cfg.rs41 0xF0 = .ftExtended ∧
  (∀ v : Byte, v ≠ 0xF0 → decodeFtype Cfg.rs41 v = .ftNormal v) ∧
  (∀ (c : Cfg) (v : Byte), encode c (decodeFtype c v) = some [v])

/-! Reset and the invariant. -/

/-- R250: RESET puts every component at its reset value, with the configuration given; the two fields of the
model's own keep their values (notes/assumptions/1.md, 4.md). -/
def Obligations.ResetPutsEveryComponent : Prop :=
  ∀ (cfg : Cfg) (s : State), cfg.framerOk = true →
    ∃ t, exec (.reset cfg) s = .next t ∧ t.cfg = cfg ∧
      t.fr.stage = .stopped ∧ t.dc.stage = .stopped ∧ t.fr.phase = .read ∧ t.fr.buf = [] ∧ t.fr.cur = 0 ∧
      t.fr.syncOff = 0 ∧ t.fr.inv = false ∧ t.inp = [] ∧ t.q.items = [] ∧ t.q.closed = false ∧
      (∀ a, t.dc.cal.get a = 0x00) ∧ t.dc.bitmap = List.replicate cfg.calFragCount true ∧
      t.dc.calibrated = false ∧ t.dc.rsOk = List.replicate cfg.rsIlv false ∧
      t.recs = [] ∧ t.ftrace = [] ∧ t.errs = [] ∧ t.work = none ∧ t.agenda = s.agenda ∧ t.draws = s.draws

/-- The invariant holds right after reset. -/
def Obligations.InvariantAtReset : Prop := Inv State.reset

/-- R22, R23, R27 to R31, R115: every step from a state with the invariant leaves a state with the invariant. -/
def Obligations.InvariantKeptByStep : Prop := ∀ s t : State, Inv s → step s = .next t → Inv t

/-- R54, R192: no step from a state with the invariant accesses anything out of bounds, and every step ends;
the layout bounds that R4 does not list are a premise where the Decoder can run at all (notes/assumptions/21.md). -/
def Obligations.NoOutOfBoundsAccess : Prop :=
  ∀ s : State, Inv s → (s.cfg.decoderOk = true → s.cfg.layoutOk = true) → SafeStep s

/-! The Framer. -/

/-- R100: each step is enabled exactly as the table says, at most one step is enabled, and the Framer's turn takes
the enabled one. -/
def Obligations.FramerStepsAreExclusive : Prop :=
  ∀ s : State,
    let needs := (s.fr.phase = .read ∧ s.fr.cur < s.cfg.frameBits) ∨
      (s.fr.phase = .deoffset ∧ s.fr.cur < s.fr.syncOff + s.cfg.frameBits)
    let ready := s.fr.phase = .deoffset ∧ s.fr.syncOff + s.cfg.frameBits ≤ s.fr.cur
    (framerStep s = some .frPull ↔ s.fr.stage = .running ∧ needs ∧ ∃ v rest, s.inp = .byte v :: rest) ∧
    (framerStep s = some .frReadFail ↔ s.fr.stage = .running ∧ needs ∧ ∃ rest, s.inp = .eos :: rest) ∧
    (framerStep s = some .frCorrelate ↔
      s.fr.stage = .running ∧ s.fr.phase = .read ∧ s.cfg.frameBits ≤ s.fr.cur) ∧
    (framerStep s = some .frEmit ↔
      s.fr.stage = .running ∧ ready ∧ s.q.closed = false ∧ s.q.items.length < s.cfg.fifoDepth) ∧
    (framerStep s = some .frPublishFail ↔ s.fr.stage = .running ∧ ready ∧ s.q.closed = true) ∧
    ∀ i, framerStep s = some i → i ∈ framerSteps

/-- R112: the Framer is blocked in exactly three kinds of state; a blocked turn changes nothing; each of the four
ways resumes it: input where it waits for input, room or a closed output where it waits for room, and RESUME FRAMER
where it is stopped, after which it is blocked only where a running Framer with an open output is. -/
def Obligations.FramerBlockedExactly : Prop :=
  ∀ s : State, s.q.items.length ≤ s.cfg.fifoDepth →
    (framerStep s = none ↔
      s.fr.stage = .stopped ∨ (need s.cfg s.fr = true ∧ s.inp = []) ∨
        (frameReady s.cfg s.fr = true ∧ s.q.closed = false ∧ s.q.items.length = s.cfg.fifoDepth)) ∧
    (framerStep s = none → framerTurn s = .next s) ∧
    (s.fr.stage = .running → need s.cfg s.fr = true → s.inp = [] →
      ∀ v vs, framerStep (s.setInp (s.inp ++ (v :: vs).map .byte)) = some .frPull) ∧
    (s.fr.stage = .running → frameReady s.cfg s.fr = true → s.q.closed = false →
      s.q.items.length = s.cfg.fifoDepth →
      (∀ f rest, s.q.items = f :: rest → framerStep (s.setQ { s.q with items := rest }) = some .frEmit) ∧
        framerStep (s.setQ { s.q with closed := true }) = some .frPublishFail) ∧
    (s.fr.stage = .stopped →
      ∃ t, exec .resumeFramer s = .next t ∧ t.fr.stage = .running ∧ t.q.closed = false ∧
        (framerStep t = none ↔
          (need s.cfg s.fr = true ∧ s.inp = []) ∨
            (frameReady s.cfg s.fr = true ∧ s.q.items.length = s.cfg.fifoDepth)))

/-- R101, R50: FR_PULL moves the head of IN behind the buffered bits, most significant bit first, and changes
nothing else. -/
def Obligations.FrPullResult : Prop :=
  ∀ (s : State) (v : Byte) (rest : List InItem), s.fr.stage = .running → need s.cfg s.fr = true →
    s.inp = .byte v :: rest →
    let bits : Bits := [v.getLsbD 7, v.getLsbD 6, v.getLsbD 5, v.getLsbD 4, v.getLsbD 3, v.getLsbD 2,
      v.getLsbD 1, v.getLsbD 0]
    ∃ t, exec .frPull s = .next t ∧ t = (s.setInp rest).setFr { s.fr with buf := s.fr.buf ++ bits } ∧
      t.fr.cur = s.fr.cur + 8

/-- R222: what FR_READ_FAIL leaves. -/
def Obligations.ReadErrorEntry : Prop :=
  ∀ (s : State) (rest : List InItem), s.fr.stage = .running → need s.cfg s.fr = true → s.inp = .eos :: rest →
    exec .frReadFail s =
      .next (((s.setInp rest).setErrs (s.errs ++ [(.framer, .eRead)])).setFr ⟨.stopped, .read, [], 0, false⟩)

/-- R223: what FR_PUBLISH_FAIL leaves; the frame is lost, and the output stays closed. -/
def Obligations.PublishErrorEntry : Prop :=
  ∀ s : State, s.fr.stage = .running → s.fr.phase = .deoffset → s.fr.syncOff + s.cfg.frameBits ≤ s.fr.cur →
    s.q.closed = true →
    exec .frPublishFail s =
      .next ((s.setErrs (s.errs ++ [(.framer, .ePublish)])).setFr ⟨.stopped, .read, [], 0, false⟩)

/-- R103: FR_CORRELATE takes the offset and polarity of the first 8F buffered bits, and changes nothing else. -/
def Obligations.FrCorrelateResult : Prop :=
  ∀ s : State, s.fr.stage = .running → s.fr.phase = .read → s.cfg.frameBits ≤ s.fr.cur →
    let found := corr s.cfg (s.fr.buf.take s.cfg.frameBits)
    exec .frCorrelate s =
      .next (s.setFr { s.fr with syncOff := found.1, inv := found.2, phase := .deoffset })

/-- R105: the direct distance counts the window's bits that differ from the pattern, the first bit compared with
the pattern's most significant; its complement counts those that differ from the complemented pattern. -/
def Obligations.DistancesAreHamming : Prop :=
  ∀ (c : Cfg) (w : Bits), w.length = c.syncBits →
    directDistance c w =
      ((List.range c.syncBits).filter fun k =>
        w.getD k false != c.syncPattern.testBit (c.syncBits - 1 - k)).length ∧
    c.syncBits - directDistance c w =
      ((List.range c.syncBits).filter fun k =>
        w.getD k false == c.syncPattern.testBit (c.syncBits - 1 - k)).length ∧
    directDistance c w ≤ c.syncBits

/-- R104, R106: CORR returns the lowest offset of the least distance of either polarity, and the inverted flag
only where the complement is strictly nearer. -/
def Obligations.CorrelationBestMatch : Prop :=
  ∀ (c : Cfg) (w : Bits), c.framerOk = true → w.length = c.frameBits →
    (corr c w).1 ≤ c.frameBits - c.syncBits ∧
    (∀ o, o ≤ c.frameBits - c.syncBits → bestDistanceAt c w (corr c w).1 ≤ bestDistanceAt c w o) ∧
    (∀ o, o < (corr c w).1 → bestDistanceAt c w (corr c w).1 < bestDistanceAt c w o) ∧
    (corr c w).2 = invertedAt c w (corr c w).1

/-- R107: the short-circuit changes no result; a complementary zero at offset 0 ends with offset 0, inverted. -/
def Obligations.CorrelationShortCircuit : Prop :=
  ∀ (c : Cfg) (w : Bits), c.framerOk = true → w.length = c.frameBits →
    corr c w = corrFull c w ∧
    (directDistance c (w.take c.syncBits) = 0 → corr c w = (0, false)) ∧
    (directDistance c (w.take c.syncBits) = c.syncBits → corr c w = (0, true))

/-- R116: the exact offset and flag under the three conditions. -/
def Obligations.SyncCorrectness : Prop :=
  ∀ (c : Cfg) (w : Bits) (off e : Nat), c.framerOk = true → w.length = c.frameBits →
    off ≤ c.frameBits - c.syncBits → bestDistanceAt c w off ≤ e →
    (∀ o, o < off → e < bestDistanceAt c w o) →
    (∀ o, off < o → o ≤ c.frameBits - c.syncBits → e ≤ bestDistanceAt c w o) →
    corr c w = (off, invertedAt c w off)

/-- R108, R110: FR_EMIT publishes the frame at the sync offset, records it, keeps the bits after it, and changes
nothing else. -/
def Obligations.FrEmitResult : Prop :=
  ∀ s : State, s.fr.stage = .running → s.fr.phase = .deoffset → s.fr.syncOff + s.cfg.frameBits ≤ s.fr.cur →
    s.q.closed = false → s.q.items.length < s.cfg.fifoDepth →
    let off := s.fr.syncOff
    let frame := pack ((s.fr.buf.drop off).take s.cfg.frameBits)
    exec .frEmit s =
      .next (((s.setQ { s.q with items := s.q.items ++ [⟨frame, s.fr.inv⟩] }).setFtrace
        (s.ftrace ++ [⟨frame, s.fr.inv, off⟩])).setFr
          { s.fr with buf := s.fr.buf.drop (off + s.cfg.frameBits), phase := .read })

/-- R109: the extracted frame has F bytes, and byte j is the value of the eight bits from s + 8j on, wherever s
lies. -/
def Obligations.ExtractionTakesBitsAtAnyOffset : Prop :=
  ∀ (c : Cfg) (fr : Framer), fr.syncOff + c.frameBits ≤ fr.cur →
    (extractFrame c fr).length = c.frameLen ∧
    ∀ j, j < c.frameLen →
      ∃ v : Byte, (extractFrame c fr)[j]? = some v ∧ v.toNat = bitsVal ((fr.buf.drop (fr.syncOff + 8 * j)).take 8)

/-- R50, R52: packing mirrors intake, in both directions. -/
def Obligations.PackingMirrorsIntake : Prop :=
  (∀ bytes : List Byte, pack (bitsOfBytes bytes) = bytes) ∧
  (∀ b : Bits, b.length % 8 = 0 → bitsOfBytes (pack b) = b)

/-- R113: a Framer that starts fresh on the bytes of IN, with room in an open Q, publishes exactly the frames of
the bit stream, and then waits with every byte pulled. Without room the Framer waits (R112), which this does not
speak of. The turns are events of the model's agenda (notes/assumptions/1.md). -/
def Obligations.FramesAreAFunctionOfTheStream : Prop :=
  ∀ (s : State) (bytes : List Byte), s.cfg.framerOk = true → s.work = none →
    s.fr = { Framer.reset with stage := .running } → s.inp = bytes.map .byte → s.q.closed = false →
    s.q.items.length + 8 * bytes.length / s.cfg.frameBits ≤ s.cfg.fifoDepth →
    let published := streamFrames s.cfg (bytes.length + 1) (bitsOfBytes bytes)
    ∃ (k : Nat) (t : State),
      Host.Core.run Sys2Proof.core k (s.setAgenda (List.replicate k .framer)) = .next t ∧
      framerStep t = none ∧ t.inp = [] ∧ t.ftrace = s.ftrace ++ published ∧
      t.q.items = s.q.items ++ published.map fun p => ⟨p.frame, p.inv⟩

/-- R114, R200: how the host splits its bytes among PUSH operations has no effect, and a PUSH before an enabled
Framer step or after it gives one state. -/
def Obligations.PushChunkingHasNoEffect : Prop :=
  (∀ (s : State) (a b : List Byte),
    ∃ m, exec (.push a) s = .next m ∧ exec (.push b) m = exec (.push (a ++ b)) s) ∧
  (∀ (s t : State) (i : Instr) (b : List Byte), framerStep s = some i → exec i s = .next t →
    ∃ s' t', exec (.push b) s = .next s' ∧ framerStep s' = some i ∧ exec i s' = .next t' ∧
      exec (.push b) t = .next t')

/-- R84, R58: an enabled Framer step and an enabled Decoder step leave each other enabled, and either order of the
two gives one state. -/
def Obligations.AgentStepsCommute : Prop :=
  ∀ (s a b : State) (i : Instr), framerStep s = some i → decFrameEnabled s = true → exec i s = .next a →
    exec .decFrame s = .next b →
    decFrameEnabled a = true ∧ framerStep b = some i ∧ ∃ t, exec .decFrame a = .next t ∧ exec i b = .next t

/-- R211: every run of enabled agent steps ends. -/
def Obligations.EveryRunOfAgentStepsEnds : Prop :=
  ∀ s : State, s.cfg.framerOk = true → Acc (fun t s => AgentStep s t) s

/-! What changes which state. -/

/-- R3, R208, R251: nothing but RESET writes CFG, and neither a Framer step nor a host operation other than RESET
writes the Decoder's calibration state or status. -/
def Obligations.OnlyDecoderAndResetWriteCalibration : Prop :=
  (∀ (i : Instr) (s t : State), exec i s = .next t → (∀ cfg, i ≠ .reset cfg) → t.cfg = s.cfg) ∧
  (∀ (i : Instr) (s t : State), exec i s = .next t → (∀ cfg, i ≠ .reset cfg) →
    (i ∈ framerSteps ∨ ∃ op : HostOp, i = op.toInstr) →
    t.dc.cal = s.dc.cal ∧ t.dc.bitmap = s.dc.bitmap ∧ t.dc.calibrated = s.dc.calibrated ∧ t.dc.rsOk = s.dc.rsOk)

/-- R179: the calibration flag is sticky, and a bit of the bitmap that is 0 stays 0, through every step that is no
RESET. -/
def Obligations.CalibrationIsSticky : Prop :=
  ∀ s t : State, NoResetNext s → step s = .next t →
    (s.dc.calibrated = true → t.dc.calibrated = true) ∧
    ∀ k : Nat, s.dc.bitmap[k]? = some false → t.dc.bitmap[k]? = some false

/-- R220, R221, R229: an entry of ERRS is appended only by the Framer, together with the whole error entry, which
publishes nothing, records nothing and touches neither Q nor the Decoder. -/
def Obligations.ErrorEntriesArePrecise : Prop :=
  ∀ s t : State, NoResetNext s → step s = .next t →
    t.errs = s.errs ∨
      ((∃ code, t.errs = s.errs ++ [(.framer, code)]) ∧ s.fr.stage = .running ∧
        t.fr = ⟨.stopped, .read, [], 0, false⟩ ∧ t.q = s.q ∧ t.dc = s.dc ∧ t.recs = s.recs ∧ t.ftrace = s.ftrace)

/-- R57, R59: Q and IN are strict FIFOs, and one record is delivered for each frame consumed. -/
def Obligations.LinksAreFifos : Prop :=
  ∀ s t : State, s.work = none → NoResetNext s → step s = .next t →
    ((t.q.items = s.q.items ∧ t.recs = s.recs ∧ t.ftrace = s.ftrace) ∨
      (∃ f off, t.q.items = s.q.items ++ [f] ∧ t.recs = s.recs ∧
        t.ftrace = s.ftrace ++ [⟨f.frame, f.inv, off⟩]) ∨
      (∃ f r, s.q.items = f :: t.q.items ∧ t.recs = s.recs ++ [(r, s.cfg.handlerCtx)] ∧ t.ftrace = s.ftrace)) ∧
    ((∃ xs, t.inp = s.inp ++ xs) ∨ (∃ x, s.inp = x :: t.inp) ∨
      (t.inp = [] ∧ ∃ rest, s.agenda = .host .rebindFramer :: rest))

/-- R20: a stage changes its status only by a host operation of its own, and the Framer also by an error entry. -/
def Obligations.StageStatusChangesOnlyAsSaid : Prop :=
  ∀ s t : State, NoResetNext s → step s = .next t →
    (t.fr.stage ≠ s.fr.stage →
      (∃ rest, s.agenda = .host .quiesceFramer :: rest) ∨ (∃ rest, s.agenda = .host .resumeFramer :: rest) ∨
        ∃ code, t.errs = s.errs ++ [(.framer, code)]) ∧
    (t.dc.stage ≠ s.dc.stage →
      (∃ rest, s.agenda = .host .quiesceDecoder :: rest) ∨ ∃ rest, s.agenda = .host .resumeDecoder :: rest)

/-- R150, R117: the Decoder reads neither the Reed–Solomon status of earlier frames nor the polarity flag of the
frame. -/
def Obligations.DecoderReadsNeitherStatusNorPolarity : Prop :=
  (∀ (s t : State) (v : List Bool), exec .decFrame s = .next t →
    ∃ t', exec .decFrame (s.setDc { s.dc with rsOk := v }) = .next t' ∧
      t'.setDc { t'.dc with rsOk := t.dc.rsOk } = t) ∧
  (∀ (s : State) (f : QFrame) (rest : List QFrame) (b : Bool), s.q.items = f :: rest → s.dc.stage = .running →
    exec .decFrame (s.setQ { s.q with items := ⟨f.frame, b⟩ :: rest }) = exec .decFrame s)

/-! The Decoder's step. -/

/-- R170, R190: DEC_FRAME of any frame consumes it, delivers exactly one record, and writes nothing but the
Decoder's state (and the model's counter of free values). -/
def Obligations.DecFrameDeliversOneRecord : Prop :=
  ∀ (s : State) (f : QFrame) (rest : List QFrame), Inv s → s.cfg.layoutOk = true → s.dc.stage = .running →
    s.q.items = f :: rest →
    ∃ (dc : Decoder) (draws : Nat) (r : Record),
      exec .decFrame s =
        .next ((((s.setQ { s.q with items := rest }).setDc dc).setDraws draws).setRecs
          (s.recs ++ [(r, s.cfg.handlerCtx)])) ∧
      dc.stage = .running

/-- R170, R171, R37: DEC_FRAME is what its pseudocode's lines give one after the other, with one turn of the walk
for each subframe, from the frame at the first line, DESCRAMBLE, and a record that holds the values of R37 and nothing
of an earlier frame (R35). The sequencing is the model's (notes/assumptions/2.md), and the overhead is not 0, so that the walk ends
(notes/assumptions/25.md). -/
def Obligations.DecFrameIsItsPipeline : Prop :=
  ∀ (s : State) (f : QFrame) (rest : List QFrame), s.work = none → s.dc.stage = .running →
    s.q.items = f :: rest → 0 < s.cfg.sfOverhead →
    let zero := s.cfg.geoZero
    let record : Record :=
      { serial := List.replicate s.cfg.serialLen 0x00, calibrated := false, seq := 0, burstkill := 0
        lat := zero, lon := zero, alt := zero, speed := zero, heading := zero, climb := zero }
    ∃ k, Host.Core.run Sys2Proof.core k
      ((s.setQ { s.q with items := rest }).setWork
        (some { startWork s.cfg f.frame with
          stage := .descramble, frm := f.frame, off := 0, record := record })) = exec .decFrame s

/-- R130: DESCRAMBLE reverses the bits of every byte of FRM, then takes the XOR with the PRN byte of its index modulo
the period and with the mask. The stage is the model's own (notes/assumptions/2.md), and where the table has no byte
of that index the statement leaves the byte open (notes/assumptions/24.md). -/
def Obligations.DescrambleResult : Prop :=
  (∀ (s : State) (w : Work), s.work = some w →
    ∃ frm, exec .descramble s = .next (s.setWork (some { w with frm := frm, stage := .fec })) ∧
      frm.length = w.frm.length ∧
      ∀ (i : Nat) (v p : Byte), w.frm[i]? = some v → 0 < s.cfg.prnPeriod →
        s.cfg.prn.toList[i % s.cfg.prnPeriod]? = some p →
        frm[i]? = some (bitrev8 v ^^^ p ^^^ s.cfg.whitenMask)) ∧
  (∀ (v : Byte) (k : Nat), k < 8 → (bitrev8 v).getLsbD k = v.getLsbD (7 - k))

/-- R134: the scrambler and the descrambler undo each other. -/
def Obligations.ScrambleIsTheInverse : Prop :=
  ∀ (c : Cfg) (x : List Byte),
    descrambleFrom c 0 (scrambleFrom c 0 x) = x ∧ scrambleFrom c 0 (descrambleFrom c 0 x) = x

/-! The Reed–Solomon codec. -/

/-- R140: under the default polynomial the bytes are a field, with XOR as the sum. -/
def Obligations.BytesAreAField : Prop :=
  ∀ c : Cfg, c.gfPoly = 0x11D →
    (∀ x y : Byte, gmul c x y = gmul c y x) ∧
    (∀ x y z : Byte, gmul c (gmul c x y) z = gmul c x (gmul c y z)) ∧
    (∀ x y z : Byte, gmul c x (y ^^^ z) = gmul c x y ^^^ gmul c x z) ∧
    (∀ x : Byte, gmul c 1 x = x) ∧
    (∀ x : Byte, x ≠ 0 → gmul c x (ginv c x) = 1 ∧ ∀ y, gmul c x y = 1 → y = ginv c x)

/-- R141: the powers of the primitive element are the 255 non-zero bytes, each once. -/
def Obligations.AlphaIsPrimitive : Prop :=
  ∀ c : Cfg, c.gfPoly = 0x11D →
    ((List.range 255).map (gpow c alpha)).Nodup ∧ (∀ i, gpow c alpha i ≠ 0) ∧
    (∀ x : Byte, x ≠ 0 → ∃ i, i < 255 ∧ gpow c alpha i = x) ∧ gpow c alpha 255 = 1 ∧
    (List.range 16).map (gpow c alpha) =
      [0x01, 0x02, 0x04, 0x08, 0x10, 0x20, 0x40, 0x80, 0x1D, 0x3A, 0x74, 0xE8, 0xCD, 0x87, 0x13, 0x26] ∧
    gpow c alpha 25 = 0x03

/-- R142: the systematic encoder writes codewords of the code, with the message at the high powers. -/
def Obligations.EncoderWritesCodewords : Prop :=
  ∀ msg : List Byte, msg.length = 231 →
    isCodeword Cfg.rs41 (rsEncode Cfg.rs41 msg) = true ∧ (rsEncode Cfg.rs41 msg).length = 255 ∧
    (rsEncode Cfg.rs41 msg).drop 24 = msg

/-- R145: DEINTERLEAVE(b) gathers the parity symbols, the message symbols and the padding, and changes nothing
else. -/
def Obligations.DeinterleaveResult : Prop :=
  ∀ (s : State) (w : Work) (b : Nat), s.work = some w → FrameFits s.cfg w → b < s.cfg.rsIlv →
    w.msgLen = s.cfg.msgLen w.extPre →
    let parity := (List.range s.cfg.rsNroots).map fun j => w.frm.getD (s.cfg.parOff + s.cfg.rsNroots * b + j) 0
    let message := (List.range w.msgLen).map fun i => w.frm.getD (s.cfg.rsMsgOff + b + s.cfg.rsIlv * i) 0
    let padding := List.replicate (s.cfg.rsK - w.msgLen) 0
    exec (.deinterleave b) s = .next (s.setWork (some { w with r := parity ++ message ++ padding }))

/-- R146: RS_CORRECT leaves the corrector's answer and changes nothing else; whatever the corrector answers is a
codeword, and either the received word or within RS_T of it with zero padding. Where the code is not one the linear
systems serve (`rsRegular`, notes/assumptions/10.md), it fails only where R146 accepts no word at all. -/
def Obligations.RsCorrectResult : Prop :=
  (∀ (s : State) (w : Work), s.work = some w →
    (∀ cw, rsCorrect s.cfg w.msgLen w.r = some cw →
      exec .rsCorrect s = .next (s.setWork (some { w with ok := true, cw := cw }))) ∧
    (rsCorrect s.cfg w.msgLen w.r = none → exec .rsCorrect s = .next (s.setWork (some { w with ok := false })))) ∧
  (∀ (c : Cfg) (k : Nat) (r cw : List Byte), rsCorrect c k r = some cw →
    isCodeword c cw = true ∧ cw.length = r.length ∧
    (cw = r ∨ (hamming cw r ≤ c.rsT ∧ ∀ i, k ≤ i → cw.getD (c.rsNroots + i) 0 = 0))) ∧
  (∀ (c : Cfg) (k : Nat) (r : List Byte), rsRegular c (errorBound c k r) = false → rsCorrect c k r = none →
    ∀ cw : List Byte, cw.length = r.length → isCodeword c cw = true → isMultiple c cw = true →
      hamming cw r ≤ c.rsT → ∃ i, k ≤ i ∧ cw.getD (c.rsNroots + i) 0 ≠ 0)

/-- R146: under the default code the corrector answers a received codeword, and every codeword within distance 12
whose padding is 0; so it answers none only where there is none. -/
def Obligations.CorrectorFindsTheNearestCodeword : Prop :=
  ∀ (k : Nat) (r : List Byte), r.length = 255 → k ≤ 231 →
    (isCodeword Cfg.rs41 r = true → rsCorrect Cfg.rs41 k r = some r) ∧
    (∀ cw : List Byte, cw.length = 255 → isCodeword Cfg.rs41 cw = true → hamming cw r ≤ 12 →
      (∀ i, k ≤ i → cw.getD (24 + i) 0 = 0) → rsCorrect Cfg.rs41 k r = some cw) ∧
    (∀ cw, rsCorrect Cfg.rs41 k r = some cw →
      cw.length = 255 ∧ isCodeword Cfg.rs41 cw = true ∧
        (cw = r ∨ (hamming cw r ≤ 12 ∧ ∀ i, k ≤ i → cw.getD (24 + i) 0 = 0)))

/-- R148: REINTERLEAVE(b) after a success writes the parity and message symbols back, and no other byte; after a
failure it is not called, and changes nothing (notes/assumptions/17.md). -/
def Obligations.ReinterleaveResult : Prop :=
  ∀ (s : State) (w : Work) (b : Nat), s.work = some w → FrameFits s.cfg w → b < s.cfg.rsIlv →
    w.msgLen = s.cfg.msgLen w.extPre → w.cw.length = s.cfg.rsN → (blockPositions s.cfg w.msgLen b).Nodup →
    (w.ok = true →
      ∃ frm, exec (.reinterleave b) s = .next (s.setWork (some { w with frm := frm })) ∧
        frm.length = w.frm.length ∧
        (∀ j, j < s.cfg.rsNroots → frm[s.cfg.parOff + s.cfg.rsNroots * b + j]? = w.cw[j]?) ∧
        (∀ i, i < w.msgLen → frm[s.cfg.rsMsgOff + b + s.cfg.rsIlv * i]? = w.cw[s.cfg.rsNroots + i]?) ∧
        ∀ i, i ∉ blockPositions s.cfg w.msgLen b → frm[i]? = w.frm[i]?) ∧
    (w.ok = false → exec (.reinterleave b) s = .next s)

/-- R144, R147, R149, R150: FEC_STAGE corrects each block of the received frame on its own: a block that is
corrected holds the codeword, a block that fails holds free values, every other byte stays, and the status of each
block is recorded. -/
def Obligations.FecStageResult : Prop :=
  ∀ (s : State) (w : Work), s.work = some w → FrameFits s.cfg w → s.dc.rsOk.length = s.cfg.rsIlv →
    let ext := extendedFrame s.cfg w.frm
    let k := s.cfg.msgLen ext
    ((List.range s.cfg.rsIlv).flatMap (blockPositions s.cfg k)).Nodup →
    ∃ (w' : Work) (rsOk : List Bool) (draws : Nat),
      exec .fecStage s = .next (((s.setDc { s.dc with rsOk := rsOk }).setDraws draws).setWork (some w')) ∧
      w' = { w with
        frm := w'.frm, extPre := ext, msgLen := k, r := w'.r, ok := w'.ok, cw := w'.cw, stage := .mode } ∧
      w'.frm.length = w.frm.length ∧ rsOk.length = s.dc.rsOk.length ∧
      (∀ i, (∀ b, b < s.cfg.rsIlv → i ∉ blockPositions s.cfg k b) → w'.frm[i]? = w.frm[i]?) ∧
      ∀ b, b < s.cfg.rsIlv →
        (∀ cw : List Byte, rsCorrect s.cfg k (gathered s.cfg k b w.frm) = some cw →
          rsOk[b]? = some true ∧
          ∀ j p : Nat, (blockPositions s.cfg k b)[j]? = some p → w'.frm[p]? = cw[j]?) ∧
        (rsCorrect s.cfg k (gathered s.cfg k b w.frm) = none →
          rsOk[b]? = some false ∧
          ∃ d, ∀ j p : Nat, (blockPositions s.cfg k b)[j]? = some p → w'.frm[p]? = some (Config.rsDraw (d + j)))

/-- R151: under the default configuration a block that was sent as a codeword and received with at most twelve of
its positions changed, in the same mode, is restored exactly and marked corrected. -/
def Obligations.TwelveErrorsAreCorrected : Prop :=
  ∀ (s : State) (w : Work) (sent : List Byte) (b : Nat), s.cfg = Cfg.rs41 → s.work = some w →
    w.frm.length = 518 → sent.length = 518 → b < 2 → s.dc.rsOk.length = 2 →
    extendedFrame s.cfg w.frm = extendedFrame s.cfg sent →
    let k := s.cfg.msgLen (extendedFrame s.cfg sent)
    isCodeword s.cfg (gathered s.cfg k b sent) = true →
    differAt (blockPositions s.cfg k b) w.frm sent ≤ 12 →
    ∃ t w', exec .fecStage s = .next t ∧ t.work = some w' ∧ t.dc.rsOk[b]? = some true ∧
      ∀ p, p ∈ blockPositions s.cfg k b → w'.frm[p]? = sent[p]?

/-! The CRC. -/

/-- R160, R161: CRC16 and CRC_OK inside a frame decode, over bytes that lie in the region; nothing else changes. -/
def Obligations.CrcOperationsResult : Prop :=
  ∀ (s : State) (w : Work) (o len : Nat), s.work = some w → RegionFits s.cfg w → len ≤ 255 →
    let bytes := fun o' => (w.frm.drop (s.cfg.dataOff + o')).take len
    (o + len ≤ w.regionLen →
      exec (.crc16 o len) s = .next (s.setWork (some { w with crc := crc16 s.cfg (bytes o) }))) ∧
    (o + len + 4 ≤ w.regionLen →
      exec (.crcOk o len) s =
        .next (s.setWork (some { w with
          crc := crc16 s.cfg (bytes (o + 2))
          crcOk := decide ((crc16 s.cfg (bytes (o + 2))).toNat = natLe16 w.frm (s.cfg.dataOff + o + 2 + len)) })))

/-- R160, R163: the CRC's published values. -/
def Obligations.CrcKnownValues : Prop :=
  crc16 Cfg.rs41 [] = 0xFFFF ∧ crc16 Cfg.rs41 [0x00] = 0xE1F0 ∧ crc16 Cfg.rs41 [0xFF] = 0xFF00 ∧
  crc16 Cfg.rs41 [0x41] = 0xB915 ∧ crc16 Cfg.rs41 [0x01, 0x02] = 0x0E7C ∧
  crc16 Cfg.rs41 [0x31, 0x32, 0x33, 0x34, 0x35, 0x36, 0x37, 0x38, 0x39] = 0x29B1 ∧
  crc16 Cfg.rs41 ((List.range 16).map (BitVec.ofNat 8)) = 0x3B37 ∧
  ∀ c : Cfg, crc16 c [] = c.crcInit ^^^ c.crcXorout

/-- R162: a subframe that passed the gate fails it after the change of any one bit of its payload or of its stored
CRC. -/
def Obligations.SingleBitErrorsAreDetected : Prop :=
  ∀ (c : Cfg) (payload : List Byte) (stored : Half), c.crcPoly.getLsbD 0 = true →
    crcGate c payload stored = true →
    (∀ (i b : Nat) (v : Byte), payload[i]? = some v → b < 8 →
      crcGate c (payload.set i (flipBit v b)) stored = false) ∧
    (∀ b : Nat, b < 16 → crcGate c payload (stored ^^^ (1 <<< b)) = false)

/-! Mode, walk and subframes. -/

/-- R73, R144, R172: MODE and the two frame-type operations, before correction and after it. That the two
operations read the stage is the model's (notes/assumptions/18.md). -/
def Obligations.ModeAndFrameTypeResults : Prop :=
  ∀ (s : State) (w : Work), s.work = some w →
    let pre := w.stage = .descramble ∨ w.stage = .fec
    let after := if w.stage = .mode then Stage.walk else w.stage
    (s.cfg.ftypeOff < w.frm.length →
      exec .mode s = .next (s.setWork (some { w with
        ext := extendedFrame s.cfg w.frm
        regionLen := if extendedFrame s.cfg w.frm then s.cfg.dataLenExt else s.cfg.dataLenNormal
        stage := .walk }))) ∧
    (pre →
      exec .ftExtended s = .next (s.setWork (some { w with extPre := true, msgLen := s.cfg.rsMsgExt })) ∧
      ∀ v, exec (.ftNormal v) s =
        .next (s.setWork (some { w with extPre := false, msgLen := s.cfg.rsMsgNormal }))) ∧
    (¬ pre →
      exec .ftExtended s =
        .next (s.setWork (some { w with ext := true, regionLen := s.cfg.dataLenExt, stage := after })) ∧
      ∀ v, exec (.ftNormal v) s =
        .next (s.setWork (some { w with ext := false, regionLen := s.cfg.dataLenNormal, stage := after })))

/-- R173, R175, R176, R192: WALK always ends, changes only the record, the offset and the calibration state, and is what
its turns from offset 0 give one after the other, each subframe as its own operation. The sequencing of the turns is the
model's (notes/assumptions/2.md). -/
def Obligations.WalkResult : Prop :=
  ∀ (s : State) (w : Work), s.work = some w → FrameFits s.cfg w → RegionFits s.cfg w →
    (∃ (dc : Decoder) (record : Record) (off : Nat),
      exec .walk s =
        .next ((s.setDc dc).setWork (some { w with record := record, off := off, stage := .deliver })) ∧
      dc.stage = s.dc.stage ∧ dc.rsOk = s.dc.rsOk ∧ off ≤ w.regionLen ∧
      w.regionLen < off + 255 + s.cfg.sfOverhead) ∧
    ∃ k, Host.Core.run Sys2Proof.core k (s.setWork (some { w with off := 0, stage := .walk })) = exec .walk s

/-- R177, R178, R180: SF_STATUS with a valid CRC and a payload of the minimum length merges its fragment, then
copies its fields and the calibration state of after the merge; the calibration block is in its canonical form, as
the invariant has it. -/
def Obligations.StatusSubframeResult : Prop :=
  ∀ (s : State) (w : Work) (payload : List Byte) (crc : Half), s.work = some w → s.cfg.decoderOk = true →
    s.cfg.layoutOk = true → s.dc.cal.wf = true → crcGate s.cfg payload crc = true →
    s.cfg.statusMinLen ≤ payload.length →
    ∃ dc : Decoder,
      MergesFragment s.cfg (payload.getD s.cfg.statusFragSeqOff 0)
        ((payload.drop s.cfg.statusFragDataOff).take s.cfg.calFragSize) s.dc dc ∧
      exec (.sfStatus payload crc) s =
        .next ((s.setDc dc).setWork (some { w with
          off := w.off + payload.length + s.cfg.sfOverhead
          record := { w.record with
            serial := (payload.drop s.cfg.statusSerialOff).take s.cfg.serialLen
            seq := BitVec.ofNat 16 (natLe16 payload s.cfg.statusSeqOff)
            calibrated := dc.calibrated
            burstkill := burstkillValue s.cfg dc.cal } }))

/-- R181: SF_GPSPOS with a valid CRC and a payload of the minimum length hands its raw components to the
conversion, and changes the six geographic fields only. -/
def Obligations.GpsSubframeResult : Prop :=
  ∀ (s : State) (w : Work) (payload : List Byte) (crc : Half), s.work = some w → s.cfg.decoderOk = true →
    s.cfg.layoutOk = true → crcGate s.cfg payload crc = true → s.cfg.gpsposMinLen ≤ payload.length →
    let x := signExtend 32 (natLe32 payload s.cfg.gpsXOff)
    let y := signExtend 32 (natLe32 payload s.cfg.gpsYOff)
    let z := signExtend 32 (natLe32 payload s.cfg.gpsZOff)
    let vx := signExtend 16 (natLe16 payload s.cfg.gpsVxOff)
    let vy := signExtend 16 (natLe16 payload s.cfg.gpsVyOff)
    let vz := signExtend 16 (natLe16 payload s.cfg.gpsVzOff)
    exec (.sfGpspos payload crc) s =
      .next (s.setWork (some { w with
        off := w.off + payload.length + s.cfg.sfOverhead
        record := { w.record with
          lat := (Config.geoPos s.cfg.geoPos x y z).1
          lon := (Config.geoPos s.cfg.geoPos x y z).2.1
          alt := (Config.geoPos s.cfg.geoPos x y z).2.2
          speed := (Config.geoVel s.cfg.geoVel x y z vx vy vz).1
          heading := (Config.geoVel s.cfg.geoVel x y z vx vy vz).2.1
          climb := (Config.geoVel s.cfg.geoVel x y z vx vy vz).2.2 } }))

/-- R175, R183 to R189: the six kinds without an effect, the two acting kinds when they are too short, and every
kind whose CRC fails: the walk steps over the subframe by its own length, and nothing else changes. -/
def Obligations.SubframesThatOnlyMoveTheOffset : Prop :=
  ∀ (s : State) (w : Work) (tag : Byte) (payload : List Byte) (crc : Half), s.work = some w →
    let stepped : Host.Outcome State Fault Refusal :=
      .next (s.setWork (some { w with off := w.off + payload.length + s.cfg.sfOverhead }))
    exec (.sfPtu payload crc) s = stepped ∧ exec (.sfGpsinfo payload crc) s = stepped ∧
    exec (.sfGpsraw payload crc) s = stepped ∧ exec (.sfXdata payload crc) s = stepped ∧
    exec (.sfEmpty payload crc) s = stepped ∧ exec (.sfUnknown tag payload crc) s = stepped ∧
    (payload.length < s.cfg.statusMinLen → exec (.sfStatus payload crc) s = stepped) ∧
    (payload.length < s.cfg.gpsposMinLen → exec (.sfGpspos payload crc) s = stepped) ∧
    (crcGate s.cfg payload crc = false →
      exec (.sfStatus payload crc) s = stepped ∧ exec (.sfGpspos payload crc) s = stepped)

/-! Calibration. -/

/-- R178: CAL_MERGE writes exactly the fragment's bytes, clears its bit and checks for completion; a number outside
the block changes nothing. The calibration block is in its canonical form, as the invariant has it. -/
def Obligations.CalMergeResult : Prop :=
  ∀ (s : State) (k : Byte) (data : List Byte), s.cfg.decoderOk = true → s.dc.cal.wf = true →
    data.length = s.cfg.calFragSize →
    (∃ dc, exec (.calMerge k data) s = .next (s.setDc dc) ∧ MergesFragment s.cfg k data s.dc dc) ∧
    (s.cfg.calFragCount ≤ k.toNat → exec (.calMerge k data) s = .next s)

/-- R178: merges of distinct fragments may come in any order, and a merge repeated at once changes nothing more. -/
def Obligations.CalMergeOrderDoesNotMatter : Prop :=
  ∀ (s m : State) (k k' : Byte) (data data' : List Byte), s.cfg.decoderOk = true → s.dc.cal.wf = true →
    data.length = s.cfg.calFragSize → data'.length = s.cfg.calFragSize → exec (.calMerge k data) s = .next m →
    exec (.calMerge k data) m = .next m ∧
    (k ≠ k' → ∃ m', exec (.calMerge k' data') s = .next m' ∧
      exec (.calMerge k data) m' = exec (.calMerge k' data') m)

/-- R179, R180, R190: CAL_COMPLETE_CHECK, BURSTKILL and DELIVER_RECORD, each with everything it leaves alone. -/
def Obligations.CheckBurstkillDeliverResults : Prop :=
  ∀ s : State,
    exec .calCompleteCheck s =
      .next (s.setDc { s.dc with calibrated := s.dc.calibrated || s.dc.bitmap.all (fun b => b == false) }) ∧
    ∀ w : Work, s.work = some w →
      (s.cfg.bkCalOffset + 2 ≤ s.cfg.calLen →
        exec .burstkill s = .next (s.setWork (some { w with burst := burstkillValue s.cfg s.dc.cal }))) ∧
      exec .deliverRecord s = .next ((s.setRecs (s.recs ++ [(w.record, s.cfg.handlerCtx)])).setWork none)

/-! The host. -/

/-- R200 to R206: every host operation whose precondition holds, with everything it leaves alone. -/
def Obligations.HostOperationResults : Prop :=
  ∀ s : State,
    (∀ bytes, exec (.push bytes) s = .next (s.setInp (s.inp ++ bytes.map .byte))) ∧
    exec .pushEnd s = .next (s.setInp (s.inp ++ [.eos])) ∧
    exec .closeOutput s = .next (s.setQ { s.q with closed := true }) ∧
    exec .quiesceFramer s = .next (s.setFr ⟨.stopped, .read, [], 0, false⟩) ∧
    exec .quiesceDecoder s = .next (s.setDc { s.dc with stage := .stopped }) ∧
    (s.fr.stage = .stopped →
      exec .rebindFramer s = .next (s.setInp []) ∧
      exec .resumeFramer s =
        .next ((s.setFr { s.fr with stage := .running }).setQ { s.q with closed := false })) ∧
    (s.dc.stage = .stopped → s.cfg.decoderOk = true →
      exec .resumeDecoder s = .next (s.setDc { s.dc with stage := .running }))

/-- The model's choice where R208 leaves two (notes/assumptions/12.md) and for a configuration that fails the
framer group (notes/assumptions/8.md): an operation that is refused changes nothing. An agent's step that is not
enabled is not taken (notes/assumptions/3.md). -/
def Obligations.RefusedAndDisabledOperationsChangeNothing : Prop :=
  ∀ s : State,
    (s.fr.stage = .running → exec .rebindFramer s = .next s ∧ exec .resumeFramer s = .next s) ∧
    (s.dc.stage = .running ∨ s.cfg.decoderOk = false → exec .resumeDecoder s = .next s) ∧
    (∀ cfg : Cfg, cfg.framerOk = false → exec (.reset cfg) s = .next s) ∧
    (∀ i, i ∈ framerSteps → framerStep s ≠ some i → exec i s = .next s) ∧
    (s.dc.stage = .stopped ∨ s.q.items = [] → exec .decFrame s = .next s)

/-- R209: after quiesce, rebind, push and resume the Framer is fresh and running on the new source alone, with the
output open, and nothing else has changed. -/
def Obligations.ReconfigurationLeavesNothingOfTheOldSource : Prop :=
  ∀ (s : State) (bytes : List Byte),
    ∃ s1 s2 s3, exec .quiesceFramer s = .next s1 ∧ exec .rebindFramer s1 = .next s2 ∧
      exec (.push bytes) s2 = .next s3 ∧
      exec .resumeFramer s3 =
        .next (((s.setFr ⟨.running, .read, [], 0, false⟩).setInp (bytes.map .byte)).setQ
          { s.q with closed := false })

/-- R73, R170, R173, R58, R100, R84: a step inside a frame decode runs exactly the operation that the bytes at the
fetch decode to, in the order of R170's lines: DESCRAMBLE, FEC_STAGE, the frame-type byte, the subframes, and delivery,
to which the walk goes on where the region ends (R173, R174); where a small overhead leaves a subframe's CRC outside the
region it stops (the model's, notes/assumptions/9.md). Between decodes it runs the operation or the agent's step that the next event names, and RUN an
enabled agent step until there is none. The agenda and the sequencing are the model's (notes/assumptions/1.md, 2.md),
and so is how RUN chooses where both agents have a step (notes/assumptions/16.md), which is left open here. -/
def Obligations.StepRunsTheDecodedInstruction : Prop :=
  (∀ (s : State) (w : Work) (i : Instr) (rest : List Byte), s.work = some w → w.stage = .walk →
    RegionFits s.cfg w → decode s.cfg ((w.frm.drop s.cfg.dataOff).take w.regionLen |>.drop w.off) = .ok (i, rest) →
    step s = exec i s) ∧
  (∀ (s : State) (w : Work), s.work = some w →
    (w.stage = .descramble → step s = exec .descramble s) ∧ (w.stage = .fec → step s = exec .fecStage s) ∧
    (w.stage = .deliver → step s = exec .deliverRecord s)) ∧
  (∀ (s : State) (w : Work), s.work = some w → w.stage = .walk → RegionFits s.cfg w →
    let rest := ((w.frm.drop s.cfg.dataOff).take w.regionLen).drop w.off
    (decode s.cfg rest = .error .noHeader ∨ decode s.cfg rest = .error .beyondRegion →
      step s = .next (s.setWork (some { w with stage := .deliver }))) ∧
    (decode s.cfg rest = .error .noCrc → step s = .fault (.outOfBounds .region))) ∧
  (∀ (s : State) (w : Work) (v : Byte), s.work = some w → w.stage = .mode → w.frm[s.cfg.ftypeOff]? = some v →
    step s = exec (decodeFtype s.cfg v) s) ∧
  (∀ (s : State) (op : HostOp) (rest : List Event), s.work = none → s.agenda = .host op :: rest →
    step s = exec op.toInstr (s.setAgenda rest)) ∧
  (∀ (s : State) (rest : List Event), s.work = none → s.agenda = .decoder :: rest →
    step s = exec .decFrame (s.setAgenda rest)) ∧
  (∀ (s : State) (rest : List Event) (i : Instr), s.work = none → s.agenda = .framer :: rest →
    framerStep s = some i → step s = exec i (s.setAgenda rest)) ∧
  (∀ (s : State) (rest : List Event), s.work = none → s.agenda = .run :: rest →
    (framerStep s = none → decFrameEnabled s = false → step s = .next (s.setAgenda rest)) ∧
    (framerStep s ≠ none ∨ decFrameEnabled s = true →
      ∃ i n, (framerStep s = some i ∨ (i = .decFrame ∧ decFrameEnabled s = true)) ∧
        step s = exec i (s.setDraws n)))
end

