-- ==== Sys2Proof/Laws/State.lean ====
section
/-! SUPPORT. One lemma per field per update of State, so that no proof unfolds a record update. -/

namespace Sys2Proof.Machine

@[simp] theorem State.setFr_cfg (s : State) (fr : Framer) : (s.setFr fr).cfg = s.cfg := rfl
@[simp] theorem State.setFr_fr (s : State) (fr : Framer) : (s.setFr fr).fr = fr := rfl
@[simp] theorem State.setFr_inp (s : State) (fr : Framer) : (s.setFr fr).inp = s.inp := rfl
@[simp] theorem State.setFr_q (s : State) (fr : Framer) : (s.setFr fr).q = s.q := rfl
@[simp] theorem State.setFr_dc (s : State) (fr : Framer) : (s.setFr fr).dc = s.dc := rfl
@[simp] theorem State.setFr_recs (s : State) (fr : Framer) : (s.setFr fr).recs = s.recs := rfl
@[simp] theorem State.setFr_ftrace (s : State) (fr : Framer) : (s.setFr fr).ftrace = s.ftrace := rfl
@[simp] theorem State.setFr_errs (s : State) (fr : Framer) : (s.setFr fr).errs = s.errs := rfl
@[simp] theorem State.setFr_work (s : State) (fr : Framer) : (s.setFr fr).work = s.work := rfl
@[simp] theorem State.setFr_agenda (s : State) (fr : Framer) : (s.setFr fr).agenda = s.agenda := rfl
@[simp] theorem State.setFr_draws (s : State) (fr : Framer) : (s.setFr fr).draws = s.draws := rfl

@[simp] theorem State.setInp_cfg (s : State) (inp : List InItem) : (s.setInp inp).cfg = s.cfg := rfl
@[simp] theorem State.setInp_fr (s : State) (inp : List InItem) : (s.setInp inp).fr = s.fr := rfl
@[simp] theorem State.setInp_inp (s : State) (inp : List InItem) : (s.setInp inp).inp = inp := rfl
@[simp] theorem State.setInp_q (s : State) (inp : List InItem) : (s.setInp inp).q = s.q := rfl
@[simp] theorem State.setInp_dc (s : State) (inp : List InItem) : (s.setInp inp).dc = s.dc := rfl
@[simp] theorem State.setInp_recs (s : State) (inp : List InItem) : (s.setInp inp).recs = s.recs := rfl
@[simp] theorem State.setInp_ftrace (s : State) (inp : List InItem) : (s.setInp inp).ftrace = s.ftrace := rfl
@[simp] theorem State.setInp_errs (s : State) (inp : List InItem) : (s.setInp inp).errs = s.errs := rfl
@[simp] theorem State.setInp_work (s : State) (inp : List InItem) : (s.setInp inp).work = s.work := rfl
@[simp] theorem State.setInp_agenda (s : State) (inp : List InItem) : (s.setInp inp).agenda = s.agenda := rfl
@[simp] theorem State.setInp_draws (s : State) (inp : List InItem) : (s.setInp inp).draws = s.draws := rfl

@[simp] theorem State.setQ_cfg (s : State) (q : Link) : (s.setQ q).cfg = s.cfg := rfl
@[simp] theorem State.setQ_fr (s : State) (q : Link) : (s.setQ q).fr = s.fr := rfl
@[simp] theorem State.setQ_inp (s : State) (q : Link) : (s.setQ q).inp = s.inp := rfl
@[simp] theorem State.setQ_q (s : State) (q : Link) : (s.setQ q).q = q := rfl
@[simp] theorem State.setQ_dc (s : State) (q : Link) : (s.setQ q).dc = s.dc := rfl
@[simp] theorem State.setQ_recs (s : State) (q : Link) : (s.setQ q).recs = s.recs := rfl
@[simp] theorem State.setQ_ftrace (s : State) (q : Link) : (s.setQ q).ftrace = s.ftrace := rfl
@[simp] theorem State.setQ_errs (s : State) (q : Link) : (s.setQ q).errs = s.errs := rfl
@[simp] theorem State.setQ_work (s : State) (q : Link) : (s.setQ q).work = s.work := rfl
@[simp] theorem State.setQ_agenda (s : State) (q : Link) : (s.setQ q).agenda = s.agenda := rfl
@[simp] theorem State.setQ_draws (s : State) (q : Link) : (s.setQ q).draws = s.draws := rfl

@[simp] theorem State.setDc_cfg (s : State) (dc : Decoder) : (s.setDc dc).cfg = s.cfg := rfl
@[simp] theorem State.setDc_fr (s : State) (dc : Decoder) : (s.setDc dc).fr = s.fr := rfl
@[simp] theorem State.setDc_inp (s : State) (dc : Decoder) : (s.setDc dc).inp = s.inp := rfl
@[simp] theorem State.setDc_q (s : State) (dc : Decoder) : (s.setDc dc).q = s.q := rfl
@[simp] theorem State.setDc_dc (s : State) (dc : Decoder) : (s.setDc dc).dc = dc := rfl
@[simp] theorem State.setDc_recs (s : State) (dc : Decoder) : (s.setDc dc).recs = s.recs := rfl
@[simp] theorem State.setDc_ftrace (s : State) (dc : Decoder) : (s.setDc dc).ftrace = s.ftrace := rfl
@[simp] theorem State.setDc_errs (s : State) (dc : Decoder) : (s.setDc dc).errs = s.errs := rfl
@[simp] theorem State.setDc_work (s : State) (dc : Decoder) : (s.setDc dc).work = s.work := rfl
@[simp] theorem State.setDc_agenda (s : State) (dc : Decoder) : (s.setDc dc).agenda = s.agenda := rfl
@[simp] theorem State.setDc_draws (s : State) (dc : Decoder) : (s.setDc dc).draws = s.draws := rfl

@[simp] theorem State.setRecs_cfg (s : State) (recs : List (Record × HandlerCtx)) : (s.setRecs recs).cfg = s.cfg := rfl
@[simp] theorem State.setRecs_fr (s : State) (recs : List (Record × HandlerCtx)) : (s.setRecs recs).fr = s.fr := rfl
@[simp] theorem State.setRecs_inp (s : State) (recs : List (Record × HandlerCtx)) : (s.setRecs recs).inp = s.inp := rfl
@[simp] theorem State.setRecs_q (s : State) (recs : List (Record × HandlerCtx)) : (s.setRecs recs).q = s.q := rfl
@[simp] theorem State.setRecs_dc (s : State) (recs : List (Record × HandlerCtx)) : (s.setRecs recs).dc = s.dc := rfl
@[simp] theorem State.setRecs_recs (s : State) (recs : List (Record × HandlerCtx)) : (s.setRecs recs).recs = recs := rfl
@[simp] theorem State.setRecs_ftrace (s : State) (recs : List (Record × HandlerCtx)) : (s.setRecs recs).ftrace = s.ftrace := rfl
@[simp] theorem State.setRecs_errs (s : State) (recs : List (Record × HandlerCtx)) : (s.setRecs recs).errs = s.errs := rfl
@[simp] theorem State.setRecs_work (s : State) (recs : List (Record × HandlerCtx)) : (s.setRecs recs).work = s.work := rfl
@[simp] theorem State.setRecs_agenda (s : State) (recs : List (Record × HandlerCtx)) : (s.setRecs recs).agenda = s.agenda := rfl
@[simp] theorem State.setRecs_draws (s : State) (recs : List (Record × HandlerCtx)) : (s.setRecs recs).draws = s.draws := rfl

@[simp] theorem State.setFtrace_cfg (s : State) (ftrace : List Published) : (s.setFtrace ftrace).cfg = s.cfg := rfl
@[simp] theorem State.setFtrace_fr (s : State) (ftrace : List Published) : (s.setFtrace ftrace).fr = s.fr := rfl
@[simp] theorem State.setFtrace_inp (s : State) (ftrace : List Published) : (s.setFtrace ftrace).inp = s.inp := rfl
@[simp] theorem State.setFtrace_q (s : State) (ftrace : List Published) : (s.setFtrace ftrace).q = s.q := rfl
@[simp] theorem State.setFtrace_dc (s : State) (ftrace : List Published) : (s.setFtrace ftrace).dc = s.dc := rfl
@[simp] theorem State.setFtrace_recs (s : State) (ftrace : List Published) : (s.setFtrace ftrace).recs = s.recs := rfl
@[simp] theorem State.setFtrace_ftrace (s : State) (ftrace : List Published) : (s.setFtrace ftrace).ftrace = ftrace := rfl
@[simp] theorem State.setFtrace_errs (s : State) (ftrace : List Published) : (s.setFtrace ftrace).errs = s.errs := rfl
@[simp] theorem State.setFtrace_work (s : State) (ftrace : List Published) : (s.setFtrace ftrace).work = s.work := rfl
@[simp] theorem State.setFtrace_agenda (s : State) (ftrace : List Published) : (s.setFtrace ftrace).agenda = s.agenda := rfl
@[simp] theorem State.setFtrace_draws (s : State) (ftrace : List Published) : (s.setFtrace ftrace).draws = s.draws := rfl

@[simp] theorem State.setErrs_cfg (s : State) (errs : List (Agent × ErrCode)) : (s.setErrs errs).cfg = s.cfg := rfl
@[simp] theorem State.setErrs_fr (s : State) (errs : List (Agent × ErrCode)) : (s.setErrs errs).fr = s.fr := rfl
@[simp] theorem State.setErrs_inp (s : State) (errs : List (Agent × ErrCode)) : (s.setErrs errs).inp = s.inp := rfl
@[simp] theorem State.setErrs_q (s : State) (errs : List (Agent × ErrCode)) : (s.setErrs errs).q = s.q := rfl
@[simp] theorem State.setErrs_dc (s : State) (errs : List (Agent × ErrCode)) : (s.setErrs errs).dc = s.dc := rfl
@[simp] theorem State.setErrs_recs (s : State) (errs : List (Agent × ErrCode)) : (s.setErrs errs).recs = s.recs := rfl
@[simp] theorem State.setErrs_ftrace (s : State) (errs : List (Agent × ErrCode)) : (s.setErrs errs).ftrace = s.ftrace := rfl
@[simp] theorem State.setErrs_errs (s : State) (errs : List (Agent × ErrCode)) : (s.setErrs errs).errs = errs := rfl
@[simp] theorem State.setErrs_work (s : State) (errs : List (Agent × ErrCode)) : (s.setErrs errs).work = s.work := rfl
@[simp] theorem State.setErrs_agenda (s : State) (errs : List (Agent × ErrCode)) : (s.setErrs errs).agenda = s.agenda := rfl
@[simp] theorem State.setErrs_draws (s : State) (errs : List (Agent × ErrCode)) : (s.setErrs errs).draws = s.draws := rfl

@[simp] theorem State.setWork_cfg (s : State) (work : Option Work) : (s.setWork work).cfg = s.cfg := rfl
@[simp] theorem State.setWork_fr (s : State) (work : Option Work) : (s.setWork work).fr = s.fr := rfl
@[simp] theorem State.setWork_inp (s : State) (work : Option Work) : (s.setWork work).inp = s.inp := rfl
@[simp] theorem State.setWork_q (s : State) (work : Option Work) : (s.setWork work).q = s.q := rfl
@[simp] theorem State.setWork_dc (s : State) (work : Option Work) : (s.setWork work).dc = s.dc := rfl
@[simp] theorem State.setWork_recs (s : State) (work : Option Work) : (s.setWork work).recs = s.recs := rfl
@[simp] theorem State.setWork_ftrace (s : State) (work : Option Work) : (s.setWork work).ftrace = s.ftrace := rfl
@[simp] theorem State.setWork_errs (s : State) (work : Option Work) : (s.setWork work).errs = s.errs := rfl
@[simp] theorem State.setWork_work (s : State) (work : Option Work) : (s.setWork work).work = work := rfl
@[simp] theorem State.setWork_agenda (s : State) (work : Option Work) : (s.setWork work).agenda = s.agenda := rfl
@[simp] theorem State.setWork_draws (s : State) (work : Option Work) : (s.setWork work).draws = s.draws := rfl

@[simp] theorem State.setAgenda_cfg (s : State) (agenda : List Event) : (s.setAgenda agenda).cfg = s.cfg := rfl
@[simp] theorem State.setAgenda_fr (s : State) (agenda : List Event) : (s.setAgenda agenda).fr = s.fr := rfl
@[simp] theorem State.setAgenda_inp (s : State) (agenda : List Event) : (s.setAgenda agenda).inp = s.inp := rfl
@[simp] theorem State.setAgenda_q (s : State) (agenda : List Event) : (s.setAgenda agenda).q = s.q := rfl
@[simp] theorem State.setAgenda_dc (s : State) (agenda : List Event) : (s.setAgenda agenda).dc = s.dc := rfl
@[simp] theorem State.setAgenda_recs (s : State) (agenda : List Event) : (s.setAgenda agenda).recs = s.recs := rfl
@[simp] theorem State.setAgenda_ftrace (s : State) (agenda : List Event) : (s.setAgenda agenda).ftrace = s.ftrace := rfl
@[simp] theorem State.setAgenda_errs (s : State) (agenda : List Event) : (s.setAgenda agenda).errs = s.errs := rfl
@[simp] theorem State.setAgenda_work (s : State) (agenda : List Event) : (s.setAgenda agenda).work = s.work := rfl
@[simp] theorem State.setAgenda_agenda (s : State) (agenda : List Event) : (s.setAgenda agenda).agenda = agenda := rfl
@[simp] theorem State.setAgenda_draws (s : State) (agenda : List Event) : (s.setAgenda agenda).draws = s.draws := rfl

@[simp] theorem State.setDraws_cfg (s : State) (draws : Nat) : (s.setDraws draws).cfg = s.cfg := rfl
@[simp] theorem State.setDraws_fr (s : State) (draws : Nat) : (s.setDraws draws).fr = s.fr := rfl
@[simp] theorem State.setDraws_inp (s : State) (draws : Nat) : (s.setDraws draws).inp = s.inp := rfl
@[simp] theorem State.setDraws_q (s : State) (draws : Nat) : (s.setDraws draws).q = s.q := rfl
@[simp] theorem State.setDraws_dc (s : State) (draws : Nat) : (s.setDraws draws).dc = s.dc := rfl
@[simp] theorem State.setDraws_recs (s : State) (draws : Nat) : (s.setDraws draws).recs = s.recs := rfl
@[simp] theorem State.setDraws_ftrace (s : State) (draws : Nat) : (s.setDraws draws).ftrace = s.ftrace := rfl
@[simp] theorem State.setDraws_errs (s : State) (draws : Nat) : (s.setDraws draws).errs = s.errs := rfl
@[simp] theorem State.setDraws_work (s : State) (draws : Nat) : (s.setDraws draws).work = s.work := rfl
@[simp] theorem State.setDraws_agenda (s : State) (draws : Nat) : (s.setDraws draws).agenda = s.agenda := rfl
@[simp] theorem State.setDraws_draws (s : State) (draws : Nat) : (s.setDraws draws).draws = draws := rfl

end Sys2Proof.Machine
end

