-- ==== Sys2Proof/Laws/Framing.lean ====
section
/-! SUPPORT. What the Framer's enabling conditions say, and what its selected step is. -/

namespace Sys2Proof.Machine

/-- FR_PULL is enabled exactly when the Framer runs, needs a byte and has one. -/
theorem frPullEnabled_iff (s : State) :
    frPullEnabled s = true ↔
      s.fr.stage = .running ∧ need s.cfg s.fr = true ∧ ∃ v rest, s.inp = .byte v :: rest := by
  simp only [frPullEnabled, framerRunning, Bool.and_eq_true, decide_eq_true_eq, and_assoc]
  refine and_congr_right fun _ => and_congr_right fun _ => ?_
  constructor
  · intro h
    split at h
    · exact ⟨_, _, ‹_›⟩
    · simp at h
  · rintro ⟨v, rest, h⟩
    simp [h]

/-- FR_READ_FAIL is enabled exactly when the Framer runs, needs a byte and meets END. -/
theorem frReadFailEnabled_iff (s : State) :
    frReadFailEnabled s = true ↔
      s.fr.stage = .running ∧ need s.cfg s.fr = true ∧ ∃ rest, s.inp = .eos :: rest := by
  simp only [frReadFailEnabled, framerRunning, Bool.and_eq_true, decide_eq_true_eq, and_assoc]
  refine and_congr_right fun _ => and_congr_right fun _ => ?_
  constructor
  · intro h
    split at h
    · exact ⟨_, ‹_›⟩
    · simp at h
  · rintro ⟨rest, h⟩
    simp [h]

/-- FR_CORRELATE is enabled exactly when the Framer runs in READ with a frame's length of bits. -/
theorem frCorrelateEnabled_iff (s : State) :
    frCorrelateEnabled s = true ↔ s.fr.stage = .running ∧ s.fr.phase = .read ∧ s.cfg.frameBits ≤ s.fr.cur := by
  simp [frCorrelateEnabled, framerRunning, and_assoc]

/-- A frame is ready exactly in DEOFFSET with enough bits. -/
theorem frameReady_iff (c : Cfg) (fr : Framer) :
    frameReady c fr = true ↔ fr.phase = .deoffset ∧ fr.syncOff + c.frameBits ≤ fr.cur := by
  simp [frameReady]

/-- FR_EMIT is enabled exactly when the Framer runs, a frame is ready and Q is open with room. -/
theorem frEmitEnabled_iff (s : State) :
    frEmitEnabled s = true ↔
      s.fr.stage = .running ∧ frameReady s.cfg s.fr = true ∧ s.q.closed = false ∧
        s.q.items.length < s.cfg.fifoDepth := by
  simp [frEmitEnabled, framerRunning, and_assoc]

/-- FR_PUBLISH_FAIL is enabled exactly when the Framer runs, a frame is ready and Q is closed. -/
theorem frPublishFailEnabled_iff (s : State) :
    frPublishFailEnabled s = true ↔
      s.fr.stage = .running ∧ frameReady s.cfg s.fr = true ∧ s.q.closed = true := by
  simp [frPublishFailEnabled, framerRunning, and_assoc]

/-- The selected step is one that is enabled. -/
theorem framerStep_cases {s : State} {i : Instr} (h : framerStep s = some i) :
    (i = .frPull ∧ frPullEnabled s = true) ∨ (i = .frReadFail ∧ frReadFailEnabled s = true) ∨
      (i = .frCorrelate ∧ frCorrelateEnabled s = true) ∨ (i = .frEmit ∧ frEmitEnabled s = true) ∨
      (i = .frPublishFail ∧ frPublishFailEnabled s = true) := by
  unfold framerStep at h
  split at h
  · simp_all
  · split at h
    · simp_all
    · split at h
      · simp_all
      · split at h
        · simp_all
        · split at h
          · simp_all
          · simp at h

end Sys2Proof.Machine
end

