-- ==== Sys2Proof/Laws/Memory.lean ====
section
/-! SUPPORT. The laws of the byte-addressed store CAL: read after write, the canonical form, and that equal
contents are equal data. -/

namespace Sys2Proof.Machine

/-- The canonical form as a property: rising addresses and no entry that reads as an unlisted one. -/
theorem Memory.wf_iff (m : Memory) :
    m.wf = true ↔ m.Pairwise (fun x y => x.1 < y.1) ∧ ∀ cell ∈ m, cell.2 ≠ unlistedByte := by
  induction m with
  | nil => simp [Memory.wf]
  | cons x m ih =>
    obtain ⟨k, v⟩ := x
    cases m with
    | nil => simp [Memory.wf]
    | cons y m =>
      obtain ⟨k', v'⟩ := y
      simp only [Memory.wf, Bool.and_eq_true, bne_iff_ne, decide_eq_true_eq, ih]
      constructor
      · rintro ⟨⟨hv, hk⟩, hp, ha⟩
        refine ⟨List.pairwise_cons.2 ⟨?_, hp⟩, ?_⟩
        · intro z hz
          rcases List.mem_cons.1 hz with rfl | hz
          · exact hk
          · exact hk.trans ((List.pairwise_cons.1 hp).1 z hz)
        · intro z hz
          rcases List.mem_cons.1 hz with rfl | hz
          · exact hv
          · exact ha z hz
      · rintro ⟨hp, ha⟩
        have hp' := List.pairwise_cons.1 hp
        exact ⟨⟨ha (k, v) (by simp), hp'.1 (k', v') (by simp)⟩, hp'.2, fun z hz => ha z (List.mem_cons_of_mem _ hz)⟩

/-- The tail of a canonical store is canonical. -/
theorem Memory.wf_tail {x : Host.Cell} {m : Memory} (h : Memory.wf (x :: m) = true) : m.wf = true := by
  rw [Memory.wf_iff] at h ⊢
  exact ⟨(List.pairwise_cons.1 h.1).2, fun z hz => h.2 z (List.mem_cons_of_mem _ hz)⟩

/-- An address below every listed one reads as unlisted. -/
theorem Memory.get_below {m : Memory} {a : Nat} (h : ∀ cell ∈ m, a < cell.1) : m.get a = unlistedByte := by
  induction m with
  | nil => rfl
  | cons x m ih =>
    obtain ⟨k, v⟩ := x
    have hk : a < k := h (k, v) (by simp)
    simp only [Memory.get, if_neg (Nat.ne_of_gt hk)]
    exact ih fun z hz => h z (List.mem_cons_of_mem _ hz)

/-- Every address listed after the head of a canonical store is above it. -/
theorem Memory.head_lt {x : Host.Cell} {m : Memory} (h : Memory.wf (x :: m) = true) :
    ∀ cell ∈ m, x.1 < cell.1 := (List.pairwise_cons.1 ((Memory.wf_iff _).1 h).1).1

/-- A write leaves every other address alone. -/
theorem Memory.get_set_other (m : Memory) (a a' : Nat) (b : Byte) (h : a' ≠ a) : (m.set a b).get a' = m.get a' := by
  induction m with
  | nil =>
    simp only [Memory.set]
    split <;> simp [Memory.get, h.symm]
  | cons x m ih =>
    obtain ⟨k, v⟩ := x
    simp only [Memory.set]
    split
    · split <;> simp [Memory.get, h.symm]
    · split
      · subst_vars
        split <;> simp [Memory.get, h.symm]
      · simp only [Memory.get, ih]

/-- A read after a write to the same address gives the value written. -/
theorem Memory.get_set_same (m : Memory) (a : Nat) (b : Byte) (h : m.wf = true) : (m.set a b).get a = b := by
  induction m with
  | nil =>
    simp only [Memory.set]
    split <;> simp_all [Memory.get]
  | cons x m ih =>
    obtain ⟨k, v⟩ := x
    have hm := Memory.wf_tail h
    have hlt := Memory.head_lt h
    simp only [Memory.set]
    split
    · rename_i hak
      split
      · rename_i hb
        rw [hb]
        refine Memory.get_below fun z hz => ?_
        rcases List.mem_cons.1 hz with rfl | hz
        · exact hak
        · exact hak.trans (hlt z hz)
      · simp [Memory.get]
    · split
      · rename_i hak
        split
        · rename_i hb
          rw [hb]
          exact Memory.get_below fun z hz => hak ▸ hlt z hz
        · simp [Memory.get]
      · rename_i hna
        simp only [Memory.get, if_neg (Ne.symm hna), ih hm]

/-- The cells of a written store are old cells or the new one. -/
theorem Memory.mem_set {m : Memory} {a : Nat} {b : Byte} {z : Host.Cell} (h : z ∈ m.set a b) :
    z ∈ m ∨ (z = (a, b) ∧ b ≠ unlistedByte) := by
  induction m with
  | nil =>
    simp only [Memory.set] at h
    split at h <;> simp_all
  | cons x m ih =>
    obtain ⟨k, v⟩ := x
    simp only [Memory.set] at h
    split at h
    · split at h
      · exact .inl h
      · rcases List.mem_cons.1 h with rfl | h
        · exact .inr ⟨rfl, ‹_›⟩
        · exact .inl h
    · split at h
      · split at h
        · exact .inl (List.mem_cons_of_mem _ h)
        · rcases List.mem_cons.1 h with rfl | h
          · exact .inr ⟨rfl, ‹_›⟩
          · exact .inl (List.mem_cons_of_mem _ h)
      · rcases List.mem_cons.1 h with rfl | h
        · exact .inl (by simp)
        · exact (ih h).imp_left (List.mem_cons_of_mem _)

/-- A write keeps the canonical form. -/
theorem Memory.set_wf (m : Memory) (a : Nat) (b : Byte) (h : m.wf = true) : (m.set a b).wf = true := by
  induction m with
  | nil =>
    simp only [Memory.set]
    split <;> simp_all [Memory.wf]
  | cons x m ih =>
    obtain ⟨k, v⟩ := x
    have hm := Memory.wf_tail h
    have hlt := Memory.head_lt h
    have hall := ((Memory.wf_iff _).1 h).2
    have hpw := ((Memory.wf_iff _).1 h).1
    simp only [Memory.set]
    split
    · rename_i hak
      split
      · exact h
      · rename_i hb
        rw [Memory.wf_iff]
        refine ⟨List.pairwise_cons.2 ⟨fun z hz => ?_, hpw⟩, fun z hz => ?_⟩
        · rcases List.mem_cons.1 hz with rfl | hz
          · exact hak
          · exact hak.trans (hlt z hz)
        · rcases List.mem_cons.1 hz with rfl | hz
          · exact hb
          · exact hall z hz
    · split
      · rename_i hak
        split
        · exact hm
        · rename_i hb
          rw [Memory.wf_iff]
          refine ⟨List.pairwise_cons.2 ⟨fun z hz => hak ▸ hlt z hz, (List.pairwise_cons.1 hpw).2⟩, fun z hz => ?_⟩
          rcases List.mem_cons.1 hz with rfl | hz
          · exact hb
          · exact hall z (List.mem_cons_of_mem _ hz)
      · rename_i hlt1 hne
        have ih' := (Memory.wf_iff _).1 (ih hm)
        rw [Memory.wf_iff]
        refine ⟨List.pairwise_cons.2 ⟨fun z hz => ?_, ih'.1⟩, fun z hz => ?_⟩
        · rcases Memory.mem_set hz with hz | ⟨rfl, _⟩
          · exact hlt z hz
          · exact lt_of_le_of_ne (not_lt.1 hlt1) (Ne.symm hne)
        · rcases List.mem_cons.1 hz with rfl | hz
          · exact hall _ (by simp)
          · exact ih'.2 z hz

/-- A write below a bound keeps every listed address below it. -/
theorem Memory.set_below {m : Memory} {a len : Nat} {b : Byte} (ha : a < len) (h : Memory.below len m = true) :
    Memory.below len (m.set a b) = true := by
  simp only [Memory.below, List.all_eq_true, decide_eq_true_eq] at h ⊢
  intro z hz
  rcases Memory.mem_set hz with hz | ⟨rfl, _⟩
  · exact h z hz
  · exact ha

/-- A range write keeps the canonical form. -/
theorem Memory.setRange_wf (m : Memory) (o : Nat) (bytes : List Byte) (h : m.wf = true) :
    (m.setRange o bytes).wf = true := by
  induction bytes generalizing m o with
  | nil => exact h
  | cons b bytes ih => exact ih _ _ (Memory.set_wf _ _ _ h)

/-- A range write below a bound keeps every listed address below it. -/
theorem Memory.setRange_below {m : Memory} {o len : Nat} {bytes : List Byte} (ho : o + bytes.length ≤ len)
    (h : Memory.below len m = true) : Memory.below len (m.setRange o bytes) = true := by
  induction bytes generalizing m o with
  | nil => exact h
  | cons b bytes ih =>
    simp only [List.length_cons] at ho
    exact ih (by omega) (Memory.set_below (by omega) h)

/-- A range write leaves every address outside the range alone. -/
theorem Memory.get_setRange_other (m : Memory) (o : Nat) (bytes : List Byte) (a : Nat)
    (h : a < o ∨ o + bytes.length ≤ a) : (m.setRange o bytes).get a = m.get a := by
  induction bytes generalizing m o with
  | nil => rfl
  | cons b bytes ih =>
    simp only [List.length_cons] at h
    rw [Memory.setRange, ih _ _ (by omega), Memory.get_set_other _ _ _ _ (by omega)]

/-- A read inside a range after the range write gives the byte written there. -/
theorem Memory.get_setRange_same (m : Memory) (o : Nat) (bytes : List Byte) (i : Nat) (b : Byte)
    (hm : m.wf = true) (h : bytes[i]? = some b) : (m.setRange o bytes).get (o + i) = b := by
  induction bytes generalizing m o i with
  | nil => simp at h
  | cons v bytes ih =>
    cases i with
    | zero =>
      simp only [List.getElem?_cons_zero, Option.some.injEq] at h
      rw [Memory.setRange, Memory.get_setRange_other _ _ _ _ (by omega), Nat.add_zero,
        Memory.get_set_same _ _ _ hm, h]
    | succ i =>
      simp only [List.getElem?_cons_succ] at h
      rw [Memory.setRange, show o + (i + 1) = o + 1 + i by omega]
      exact ih _ _ _ (Memory.set_wf _ _ _ hm) h

/-- Two canonical stores with the same contents are the same data. -/
theorem Memory.ext_of_get (m m' : Memory) (hm : m.wf = true) (hm' : m'.wf = true)
    (h : ∀ a, m.get a = m'.get a) : m = m' := by
  induction m generalizing m' with
  | nil =>
    cases m' with
    | nil => rfl
    | cons y m' =>
      have := h y.1
      simp only [Memory.get, if_pos] at this
      exact absurd this.symm (((Memory.wf_iff _).1 hm').2 y (by simp))
  | cons x m ih =>
    obtain ⟨k, v⟩ := x
    have hv : v ≠ unlistedByte := ((Memory.wf_iff _).1 hm).2 (k, v) (by simp)
    cases m' with
    | nil =>
      have := h k
      simp only [Memory.get, if_pos] at this
      exact absurd this hv
    | cons y m' =>
      obtain ⟨k', v'⟩ := y
      have hv' : v' ≠ unlistedByte := ((Memory.wf_iff _).1 hm').2 (k', v') (by simp)
      have hkk : k = k' := by
        rcases Nat.lt_trichotomy k k' with hlt | heq | hgt
        · have hk := h k
          rw [Memory.get_below (m := (k', v') :: m') (a := k)] at hk
          · simp only [Memory.get, if_pos] at hk
            exact absurd hk hv
          · intro z hz
            rcases List.mem_cons.1 hz with rfl | hz
            · exact hlt
            · exact hlt.trans (Memory.head_lt hm' z hz)
        · exact heq
        · have hk := h k'
          rw [Memory.get_below (m := (k, v) :: m) (a := k')] at hk
          · simp only [Memory.get, if_pos] at hk
            exact absurd hk.symm hv'
          · intro z hz
            rcases List.mem_cons.1 hz with rfl | hz
            · exact hgt
            · exact hgt.trans (Memory.head_lt hm z hz)
      subst hkk
      have hvv : v = v' := by simpa [Memory.get] using h k
      subst hvv
      congr 1
      refine ih m' (Memory.wf_tail hm) (Memory.wf_tail hm') fun a => ?_
      rcases eq_or_ne k a with rfl | hne
      · rw [Memory.get_below (Memory.head_lt hm), Memory.get_below (Memory.head_lt hm')]
      · simpa [Memory.get, hne] using h a

end Sys2Proof.Machine
end

