-- ==== Sys2Proof/Laws/Operands.lean ====
section
/-! SUPPORT. What the bounds-checked readers and writers can answer. -/

namespace Sys2Proof.Machine

/-- `strict` is application. -/
@[simp] theorem strict_eq {w : Nat} {α : Type} (v : BitVec w) (k : BitVec w → α) : strict v k = k v := by
  unfold strict
  split <;> rename_i h
  · rw [show v = 0 from BitVec.eq_of_toNat_eq (by simpa using h)]
  · rw [← Nat.succ_eq_add_one, ← h]
    simp

/-- Everything the decoder of a subframe can answer: its fields, and the rest of the region behind the bytes that the
walk steps over. -/
theorem decodeSubframe_ok {c : Cfg} {bytes after : List Byte} {sf : Subframe}
    (h : decodeSubframe c bytes = .ok (sf, after)) :
    ∃ (tag len lo hi : Byte) (rest tail : List Byte), bytes = tag :: len :: rest ∧
      len.toNat + c.sfOverhead ≤ bytes.length ∧ rest.drop len.toNat = lo :: hi :: tail ∧
      sf = ⟨tag, rest.take len.toNat, halfOfBytes lo hi⟩ ∧ after = bytes.drop (len.toNat + c.sfOverhead) := by
  unfold decodeSubframe at h
  split at h
  · split at h
    · cases h
    · split at h
      · cases h
        exact ⟨_, _, _, _, _, _, rfl, not_lt.1 ‹_›, ‹_›, rfl, rfl⟩
      · cases h
  · cases h

/-- An overhead of four bytes or more covers the CRC of every subframe inside the region. -/
theorem decodeSubframe_ne_noCrc {c : Cfg} (h : 4 ≤ c.sfOverhead) (bytes : List Byte) :
    decodeSubframe c bytes ≠ .error .noCrc := by
  unfold decodeSubframe
  split
  · split
    · simp
    · rename_i tag len rest hle
      split
      · simp
      · rename_i hno
        have hl : 2 ≤ (rest.drop len.toNat).length := by
          simp only [List.length_cons, not_lt] at hle
          rw [List.length_drop]
          omega
        match hd : rest.drop len.toNat, hl with
        | lo :: hi :: tail, _ => exact absurd hd (hno lo hi tail)
  · simp

/-- A computation that reads first answers only after the read has answered. -/
theorem bind_ok_iff {α β : Type} (x : Except Fault α) (f : α → Except Fault β) (b : β) :
    (x >>= f) = .ok b ↔ ∃ a, x = .ok a ∧ f a = .ok b := by
  cases x with
  | error e => simp [bind, Except.bind]
  | ok a => simp [bind, Except.bind]

/-- A computation after a read that answers. -/
@[simp] theorem bind_of_ok {α β : Type} (a : α) (f : α → Except Fault β) : ((.ok a : Except Fault α) >>= f) = f a :=
  rfl

/-- A computation that returns. -/
@[simp] theorem pure_eq_ok {α : Type} (a : α) : (pure a : Except Fault α) = .ok a := rfl

/-- A byte is read exactly where there is one. -/
theorem readAt_ok_iff (st : Store) (a : List Byte) (i : Nat) (v : Byte) :
    readAt st a i = .ok v ↔ a[i]? = some v := by
  unfold readAt
  split <;> simp_all

/-- A byte inside the store is read. -/
theorem readAt_of_lt (st : Store) (a : List Byte) (i : Nat) (h : i < a.length) : readAt st a i = .ok a[i] := by
  rw [readAt_ok_iff]
  exact List.getElem?_eq_getElem h

/-- A range is read exactly where it lies inside the store. -/
theorem slice_ok_iff (st : Store) (a : List Byte) (o len : Nat) (r : List Byte) :
    slice st a o len = .ok r ↔ o + len ≤ a.length ∧ r = (a.drop o).take len := by
  unfold slice
  split
  · rename_i hle
    rw [Except.ok.injEq]
    exact ⟨fun h => ⟨hle, h.symm⟩, fun h => h.2.symm⟩
  · rename_i hle
    exact ⟨fun h => (nomatch h), fun h => absurd h.1 hle⟩

/-- A range inside the store is read. -/
theorem slice_of_le (st : Store) (a : List Byte) (o len : Nat) (h : o + len ≤ a.length) :
    slice st a o len = .ok ((a.drop o).take len) := by
  rw [slice_ok_iff]
  exact ⟨h, rfl⟩

/-- A range that was read has its length. -/
theorem slice_length {st : Store} {a : List Byte} {o len : Nat} {r : List Byte} (h : slice st a o len = .ok r) :
    r.length = len := by
  obtain ⟨hle, rfl⟩ := (slice_ok_iff _ _ _ _ _).1 h
  rw [List.length_take, List.length_drop]
  omega

/-- Bytes are read at a list of positions exactly where each has one. -/
theorem readAll_ok_iff (st : Store) (a : List Byte) (ps : List Nat) (r : List Byte) :
    readAll st a ps = .ok r ↔ ps.map (fun i => a[i]?) = r.map some := by
  induction ps generalizing r with
  | nil => cases r <;> simp [readAll]
  | cons p ps ih =>
    simp only [readAll, List.mapM_cons] at ih ⊢
    constructor
    · intro h
      obtain ⟨v, hv, h⟩ := (bind_ok_iff _ _ _).1 h
      obtain ⟨vs, hvs, h⟩ := (bind_ok_iff _ _ _).1 h
      simp only [pure_eq_ok, Except.ok.injEq] at h
      subst h
      simp [(readAt_ok_iff _ _ _ _).1 hv, (ih vs).1 hvs]
    · intro h
      cases r with
      | nil => simp at h
      | cons v vs =>
        simp only [List.map_cons, List.cons.injEq] at h
        rw [(readAt_ok_iff st a p v).2 h.1, bind_of_ok, (ih vs).2 h.2]
        rfl

/-- Bytes inside the store are read. -/
theorem readAll_of_lt (st : Store) (a : List Byte) (ps : List Nat) (h : ∀ p ∈ ps, p < a.length) :
    ∃ r, readAll st a ps = .ok r ∧ r.length = ps.length := by
  induction ps with
  | nil => exact ⟨[], rfl, rfl⟩
  | cons p ps ih =>
    obtain ⟨vs, hvs, hl⟩ := ih fun q hq => h q (List.mem_cons_of_mem _ hq)
    refine ⟨a[p]'(h p (by simp)) :: vs, ?_, by simp [hl]⟩
    simp only [readAll, List.mapM_cons] at hvs ⊢
    rw [readAt_of_lt st a p (h p (by simp)), bind_of_ok, hvs]
    rfl

/-- A `u16` inside the store is read. -/
theorem u16le_of_lt (st : Store) (a : List Byte) (o : Nat) (h : o + 1 < a.length) :
    u16le st a o = .ok (halfOfBytes a[o] a[o + 1]) := by
  unfold u16le
  rw [readAt_of_lt st a o (by omega), bind_of_ok, readAt_of_lt st a (o + 1) h, bind_of_ok]
  rfl

/-- A `u32` inside the store is read. -/
theorem u32le_of_lt (st : Store) (a : List Byte) (o : Nat) (h : o + 3 < a.length) :
    u32le st a o = .ok (halfOfBytes a[o + 2] a[o + 3] ++ halfOfBytes a[o] a[o + 1]) := by
  unfold u32le
  rw [u16le_of_lt st a o (by omega), bind_of_ok, u16le_of_lt st a (o + 2) (by omega), bind_of_ok]
  rfl

/-- An `s16` inside the store is read. -/
theorem s16le_of_lt (st : Store) (a : List Byte) (o : Nat) (h : o + 1 < a.length) :
    s16le st a o = .ok (halfOfBytes a[o] a[o + 1]).toInt := by
  unfold s16le
  rw [u16le_of_lt st a o h, bind_of_ok]
  rfl

/-- An `s32` inside the store is read. -/
theorem s32le_of_lt (st : Store) (a : List Byte) (o : Nat) (h : o + 3 < a.length) :
    s32le st a o = .ok (halfOfBytes a[o + 2] a[o + 3] ++ halfOfBytes a[o] a[o + 1]).toInt := by
  unfold s32le
  rw [u32le_of_lt st a o h, bind_of_ok]
  rfl

/-- Everything a list of writes can do: the length stays, and every other position keeps its byte. -/
theorem writeAll_frame {st : Store} {a r : List Byte} {xs : List (Nat × Byte)} (h : writeAll st a xs = .ok r) :
    r.length = a.length ∧ ∀ i, i ∉ xs.map Prod.fst → r[i]? = a[i]? := by
  induction xs generalizing a with
  | nil =>
    simp only [writeAll, Except.ok.injEq] at h
    subst h
    exact ⟨rfl, fun _ _ => rfl⟩
  | cons x xs ih =>
    obtain ⟨p, v⟩ := x
    obtain ⟨a', ha', h⟩ := (bind_ok_iff _ _ _).1 h
    unfold writeAt at ha'
    split at ha'
    · simp only [Except.ok.injEq] at ha'
      subst ha'
      obtain ⟨hl, hf⟩ := ih h
      refine ⟨by simpa using hl, fun i hi => ?_⟩
      simp only [List.map_cons, List.mem_cons, not_or] at hi
      rw [hf i hi.2, List.getElem?_set_ne (Ne.symm hi.1)]
    · simp at ha'

/-- Writes inside the store answer. -/
theorem writeAll_of_lt (st : Store) (a : List Byte) (xs : List (Nat × Byte)) (h : ∀ x ∈ xs, x.1 < a.length) :
    ∃ r, writeAll st a xs = .ok r := by
  induction xs generalizing a with
  | nil => exact ⟨a, rfl⟩
  | cons x xs ih =>
    obtain ⟨p, v⟩ := x
    have hp : p < a.length := h (p, v) (by simp)
    obtain ⟨r, hr⟩ := ih (a.set p v) (by simpa using fun x y hx => h (x, y) (List.mem_cons_of_mem _ hx))
    exact ⟨r, by rw [writeAll, writeAt, if_pos hp, bind_of_ok, hr]⟩

/-- After writes at positions that differ, each position holds the byte written there. -/
theorem writeAll_get {st : Store} {a r : List Byte} {xs : List (Nat × Byte)} (h : writeAll st a xs = .ok r)
    (hn : (xs.map Prod.fst).Nodup) {x : Nat × Byte} (hx : x ∈ xs) : r[x.1]? = some x.2 := by
  induction xs generalizing a with
  | nil => simp at hx
  | cons y xs ih =>
    obtain ⟨p, v⟩ := y
    obtain ⟨a', ha', h⟩ := (bind_ok_iff _ _ _).1 h
    simp only [List.map_cons, List.nodup_cons] at hn
    rcases List.mem_cons.1 hx with rfl | hx
    · rw [(writeAll_frame h).2 _ hn.1]
      unfold writeAt at ha'
      split at ha'
      · simp only [Except.ok.injEq] at ha'
        subst ha'
        rename_i hp
        rw [List.getElem?_set_self hp]
      · simp at ha'
    · exact ih h hn.2 hx

end Sys2Proof.Machine
end

