-- ==== Sys2Proof/Laws/PerInstr.lean ====
section
/-! SUPPORT. Facts about every instruction as syntax, one lemma per constructor. -/

namespace Sys2Proof.Laws

/-- An encoded operation that is well formed has at least one byte and at most as many as the longest one. -/
def EncodedLength.Statement (i : Instr) : Prop :=
  ∀ (c : Cfg) (bytes : List Byte), i.wf c = true → encode c i = some bytes →
    1 ≤ bytes.length ∧ bytes.length ≤ longestBytes

/-- The bytes of a subframe whose payload fits its length byte. -/
theorem encodeSubframe_bounds (sf : Subframe) (h : payloadFits sf.payload = true) :
    1 ≤ (encodeSubframe sf).length ∧ (encodeSubframe sf).length ≤ longestBytes := by
  simp only [payloadFits, decide_eq_true_eq] at h
  simp only [encodeSubframe, longestBytes, List.length_cons, List.length_append, List.length_nil]
  omega

theorem EncodedLength.sfStatus (payload : List Byte) (crc : Half) : EncodedLength.Statement (.sfStatus payload crc) := by
  intro c bytes h he
  cases he
  exact encodeSubframe_bounds _ h

theorem EncodedLength.sfPtu (payload : List Byte) (crc : Half) : EncodedLength.Statement (.sfPtu payload crc) := by
  intro c bytes h he
  cases he
  exact encodeSubframe_bounds _ h

theorem EncodedLength.sfGpspos (payload : List Byte) (crc : Half) : EncodedLength.Statement (.sfGpspos payload crc) := by
  intro c bytes h he
  cases he
  exact encodeSubframe_bounds _ h

theorem EncodedLength.sfGpsinfo (payload : List Byte) (crc : Half) : EncodedLength.Statement (.sfGpsinfo payload crc) := by
  intro c bytes h he
  cases he
  exact encodeSubframe_bounds _ h

theorem EncodedLength.sfGpsraw (payload : List Byte) (crc : Half) : EncodedLength.Statement (.sfGpsraw payload crc) := by
  intro c bytes h he
  cases he
  exact encodeSubframe_bounds _ h

theorem EncodedLength.sfXdata (payload : List Byte) (crc : Half) : EncodedLength.Statement (.sfXdata payload crc) := by
  intro c bytes h he
  cases he
  exact encodeSubframe_bounds _ h

theorem EncodedLength.sfEmpty (payload : List Byte) (crc : Half) : EncodedLength.Statement (.sfEmpty payload crc) := by
  intro c bytes h he
  cases he
  exact encodeSubframe_bounds _ h

theorem EncodedLength.sfUnknown (tag : Byte) (payload : List Byte) (crc : Half) : EncodedLength.Statement (.sfUnknown tag payload crc) := by
  intro c bytes h he
  cases he
  simp only [Instr.wf, Bool.and_eq_true] at h
  exact encodeSubframe_bounds _ h.1

theorem EncodedLength.ftExtended : EncodedLength.Statement .ftExtended := by
  intro c bytes _ he
  cases he
  simp [longestBytes]

theorem EncodedLength.ftNormal (value : Byte) : EncodedLength.Statement (.ftNormal value) := by
  intro c bytes _ he
  cases he
  simp [longestBytes]

theorem EncodedLength.frPull : EncodedLength.Statement .frPull := by
  intro c bytes _ he
  cases he

theorem EncodedLength.frReadFail : EncodedLength.Statement .frReadFail := by
  intro c bytes _ he
  cases he

theorem EncodedLength.frCorrelate : EncodedLength.Statement .frCorrelate := by
  intro c bytes _ he
  cases he

theorem EncodedLength.frEmit : EncodedLength.Statement .frEmit := by
  intro c bytes _ he
  cases he

theorem EncodedLength.frPublishFail : EncodedLength.Statement .frPublishFail := by
  intro c bytes _ he
  cases he

theorem EncodedLength.decFrame : EncodedLength.Statement .decFrame := by
  intro c bytes _ he
  cases he

theorem EncodedLength.descramble : EncodedLength.Statement .descramble := by
  intro c bytes _ he
  cases he

theorem EncodedLength.deinterleave (b : Nat) : EncodedLength.Statement (.deinterleave b) := by
  intro c bytes _ he
  cases he

theorem EncodedLength.rsCorrect : EncodedLength.Statement .rsCorrect := by
  intro c bytes _ he
  cases he

theorem EncodedLength.reinterleave (b : Nat) : EncodedLength.Statement (.reinterleave b) := by
  intro c bytes _ he
  cases he

theorem EncodedLength.fecStage : EncodedLength.Statement .fecStage := by
  intro c bytes _ he
  cases he

theorem EncodedLength.crc16 (o len : Nat) : EncodedLength.Statement (.crc16 o len) := by
  intro c bytes _ he
  cases he

theorem EncodedLength.crcOk (off len : Nat) : EncodedLength.Statement (.crcOk off len) := by
  intro c bytes _ he
  cases he

theorem EncodedLength.mode : EncodedLength.Statement .mode := by
  intro c bytes _ he
  cases he

theorem EncodedLength.walk : EncodedLength.Statement .walk := by
  intro c bytes _ he
  cases he

theorem EncodedLength.calMerge (k : Byte) (data : List Byte) : EncodedLength.Statement (.calMerge k data) := by
  intro c bytes _ he
  cases he

theorem EncodedLength.calCompleteCheck : EncodedLength.Statement .calCompleteCheck := by
  intro c bytes _ he
  cases he

theorem EncodedLength.burstkill : EncodedLength.Statement .burstkill := by
  intro c bytes _ he
  cases he

theorem EncodedLength.deliverRecord : EncodedLength.Statement .deliverRecord := by
  intro c bytes _ he
  cases he

theorem EncodedLength.reset (cfg : Cfg) : EncodedLength.Statement (.reset cfg) := by
  intro c bytes _ he
  cases he

theorem EncodedLength.push (bytes : List Byte) : EncodedLength.Statement (.push bytes) := by
  intro c bytes _ he
  cases he

theorem EncodedLength.pushEnd : EncodedLength.Statement .pushEnd := by
  intro c bytes _ he
  cases he

theorem EncodedLength.closeOutput : EncodedLength.Statement .closeOutput := by
  intro c bytes _ he
  cases he

theorem EncodedLength.quiesceFramer : EncodedLength.Statement .quiesceFramer := by
  intro c bytes _ he
  cases he

theorem EncodedLength.quiesceDecoder : EncodedLength.Statement .quiesceDecoder := by
  intro c bytes _ he
  cases he

theorem EncodedLength.rebindFramer : EncodedLength.Statement .rebindFramer := by
  intro c bytes _ he
  cases he

theorem EncodedLength.resumeFramer : EncodedLength.Statement .resumeFramer := by
  intro c bytes _ he
  cases he

theorem EncodedLength.resumeDecoder : EncodedLength.Statement .resumeDecoder := by
  intro c bytes _ he
  cases he

end Sys2Proof.Laws
end

