-- ==== Sys2Proof/Laws/Pipeline.lean ====
section
/-! SUPPORT. What the operations of a frame decode can answer: one inversion lemma for each shared operation. -/

namespace Sys2Proof.Machine

/-- The PRN byte where the table has one. -/
theorem prnByte_of_lt {c : Cfg} {i : Nat} (hp : 0 < c.prnPeriod) (h : i % c.prnPeriod < 64) :
    prnByte c i = c.prn[i % c.prnPeriod] := dif_pos ⟨hp, h⟩

/-- Outside a frame decode a pipeline operation changes nothing. -/
theorem onPipe_outside (f : Cfg → Pipe → Except Fault Pipe) (s : State) (h : s.work = none) :
    onPipe f s = .next s := by
  simp [onPipe, h]

/-- Inside a frame decode a pipeline operation that answers takes its result into the state. -/
theorem onPipe_inside (f : Cfg → Pipe → Except Fault Pipe) (s : State) (w : Work) (p : Pipe)
    (h : s.work = some w) (hf : f s.cfg ⟨s.dc, s.draws, w⟩ = .ok p) :
    onPipe f s = .next (((s.setDc p.dc).setDraws p.draws).setWork (some p.w)) := by
  simp [onPipe, h, hf]

/-- Everything a pipeline operation can do when it answers. -/
theorem onPipe_next {f : Cfg → Pipe → Except Fault Pipe} {s t : State} (h : onPipe f s = .next t) :
    (s.work = none ∧ t = s) ∨
      ∃ w p, s.work = some w ∧ f s.cfg ⟨s.dc, s.draws, w⟩ = .ok p ∧
        t = ((s.setDc p.dc).setDraws p.draws).setWork (some p.w) := by
  unfold onPipe at h
  split at h
  · cases h
    exact .inl ⟨‹_›, rfl⟩
  · split at h
    · cases h
      exact .inr ⟨_, _, ‹_›, ‹_›, rfl⟩
    · cases h

/-- Everything a block of the FEC stage can do: it is corrected and written back, or it fails and its positions
are drawn. -/
theorem fecBlock_cases {c : Cfg} {p p' : Pipe} {b : Nat} (h : fecBlock c p b = .ok p') :
    ∃ r, deinterleaveBlock c p.w.msgLen b p.w.frm = .ok r ∧
      ((∃ cw frm, rsCorrect c p.w.msgLen r = some cw ∧ reinterleaveBlock c p.w.msgLen b cw p.w.frm = .ok frm ∧
          p' = { p with dc := setRsOk p.dc b true, w := { p.w with frm := frm, r := r, ok := true, cw := cw } }) ∨
        (∃ frm, rsCorrect c p.w.msgLen r = none ∧ drawBlock c p.w.msgLen b p.draws p.w.frm = .ok frm ∧
          p' = ⟨setRsOk p.dc b false, p.draws + (blockPositions c p.w.msgLen b).length,
            { p.w with frm := frm, r := r, ok := false }⟩)) := by
  unfold fecBlock at h
  obtain ⟨r, hr, h⟩ := (bind_ok_iff _ _ _).1 h
  refine ⟨r, hr, ?_⟩
  split at h
  · obtain ⟨frm, hfrm, h⟩ := (bind_ok_iff _ _ _).1 h
    simp only [pure_eq_ok, Except.ok.injEq] at h
    exact .inl ⟨_, frm, ‹_›, hfrm, h.symm⟩
  · obtain ⟨frm, hfrm, h⟩ := (bind_ok_iff _ _ _).1 h
    simp only [pure_eq_ok, Except.ok.injEq] at h
    exact .inr ⟨frm, ‹_›, hfrm, h.symm⟩

/-- Everything a merge can do: nothing for a fragment number outside the block, else the write, the bit and the
completion check. -/
theorem calMerge_cases {c : Cfg} {k : Byte} {data : List Byte} {dc dc' : Decoder}
    (h : calMerge c k data dc = .ok dc') :
    (c.calFragCount ≤ k.toNat ∧ dc' = dc) ∨
      (k.toNat < c.calFragCount ∧ k.toNat * c.calFragSize + data.length ≤ c.calLen ∧
        dc' = calCompleteCheck
          { dc with
            cal := dc.cal.setRange (k.toNat * c.calFragSize) data
            bitmap := dc.bitmap.set k.toNat false }) := by
  unfold calMerge at h
  split at h
  · simp only [Except.ok.injEq] at h
    exact .inl ⟨‹_›, h.symm⟩
  · obtain ⟨cal, hcal, h⟩ := (bind_ok_iff _ _ _).1 h
    unfold calWrite at hcal
    split at hcal
    · simp only [Except.ok.injEq] at hcal
      simp only [pure_eq_ok, Except.ok.injEq] at h
      subst hcal
      exact .inr ⟨not_le.1 ‹_›, ‹_›, h.symm⟩
    · simp at hcal

/-- Everything one turn of the walk can do: the subframe acts when its CRC holds, and the offset moves on in
either case. -/
theorem subframeTurn_cases {act : Cfg → List Byte → Pipe → Except Fault Pipe} {payload : List Byte} {crc : Half}
    {c : Cfg} {p p' : Pipe} (h : subframeTurn act payload crc c p = .ok p') :
    (crcGate c payload crc = true ∧ ∃ q, act c payload p = .ok q ∧ p' = advance c payload q) ∨
      (crcGate c payload crc = false ∧ p' = advance c payload p) := by
  unfold subframeTurn at h
  cases hg : crcGate c payload crc with
  | false =>
    simp only [hg, Bool.false_eq_true, if_false, Except.map, Except.ok.injEq] at h
    exact .inr ⟨rfl, h.symm⟩
  | true =>
    simp only [hg, if_true] at h
    cases hq : act c payload p with
    | error e => simp [hq, Except.map] at h
    | ok q =>
      simp only [hq, Except.map, Except.ok.injEq] at h
      exact .inl ⟨rfl, q, rfl, h.symm⟩

/-- A subframe acts on the record and the Decoder's state alone (44_subframe_parser.md R176). -/
theorem actOf_cases {k : SubKind} {c : Cfg} {payload : List Byte} {p q : Pipe} (h : actOf k c payload p = .ok q) :
    ∃ dc record, q = { p with dc := dc, w := { p.w with record := record } } := by
  have same : ∀ {x : Pipe}, (.ok p : Except Fault Pipe) = .ok x →
      ∃ dc record, x = { p with dc := dc, w := { p.w with record := record } } := by
    rintro x ⟨⟩
    exact ⟨p.dc, p.w.record, rfl⟩
  cases k
  case status =>
    simp only [actOf, statusAct] at h
    split at h
    · exact same h
    · obtain ⟨_, -, h⟩ := (bind_ok_iff _ _ _).1 h
      obtain ⟨_, -, h⟩ := (bind_ok_iff _ _ _).1 h
      obtain ⟨dc, -, h⟩ := (bind_ok_iff _ _ _).1 h
      obtain ⟨_, -, h⟩ := (bind_ok_iff _ _ _).1 h
      obtain ⟨_, -, h⟩ := (bind_ok_iff _ _ _).1 h
      obtain ⟨_, -, h⟩ := (bind_ok_iff _ _ _).1 h
      cases h
      exact ⟨dc, _, rfl⟩
  case gpspos =>
    simp only [actOf, gpsposAct] at h
    split at h
    · exact same h
    · obtain ⟨_, -, h⟩ := (bind_ok_iff _ _ _).1 h
      obtain ⟨_, -, h⟩ := (bind_ok_iff _ _ _).1 h
      obtain ⟨_, -, h⟩ := (bind_ok_iff _ _ _).1 h
      obtain ⟨_, -, h⟩ := (bind_ok_iff _ _ _).1 h
      obtain ⟨_, -, h⟩ := (bind_ok_iff _ _ _).1 h
      obtain ⟨_, -, h⟩ := (bind_ok_iff _ _ _).1 h
      cases h
      exact ⟨p.dc, _, rfl⟩
  all_goals exact same h

/-- What one turn of the walk leaves: the record, the Decoder's state and the offset may differ, nothing else. -/
theorem subframeTurn_frame {k : SubKind} {payload : List Byte} {crc : Half} {c : Cfg} {p p' : Pipe}
    (h : subframeTurn (actOf k) payload crc c p = .ok p') :
    ∃ dc record, p' = { p with
      dc := dc, w := { p.w with record := record, off := p.w.off + payload.length + c.sfOverhead } } := by
  obtain ⟨-, q, hq, rfl⟩ | ⟨-, rfl⟩ := subframeTurn_cases h
  · obtain ⟨dc, record, rfl⟩ := actOf_cases hq
    exact ⟨dc, record, rfl⟩
  · exact ⟨p.dc, p.w.record, rfl⟩

/-- Everything one turn of the walk's loop can do: the walk ends, or it takes the subframe at the offset. -/
theorem walkLoop_succ_cases {c : Cfg} {fuel : Nat} {p p' : Pipe} (h : walkLoop c (fuel + 1) p = .ok p') :
    (fetchSubframe c p.w = .ok none ∧ p' = p) ∨
      ∃ sf q, fetchSubframe c p.w = .ok (some sf) ∧
        subframeTurn (actOf (subKind c sf.tag)) sf.payload sf.crc c p = .ok q ∧ walkLoop c fuel q = .ok p' := by
  rw [walkLoop] at h
  obtain ⟨o, ho, h⟩ := (bind_ok_iff _ _ _).1 h
  cases o with
  | none =>
    simp only [pure_eq_ok, Except.ok.injEq] at h
    exact .inl ⟨ho, h.symm⟩
  | some sf =>
    obtain ⟨q, hq, h⟩ := (bind_ok_iff _ _ _).1 h
    exact .inr ⟨sf, q, ho, hq, h⟩

/-- Everything DEC_FRAME can do when it answers: it waits, or it consumes the head of Q and delivers one record. -/
theorem execDecFrame_next {s t : State} (h : execDecFrame s = .next t) :
    (decFrameEnabled s = false ∧ t = s) ∨
      ∃ f rest p, s.dc.stage = .running ∧ s.q.items = f :: rest ∧
        decodePipeline s.cfg ⟨s.dc, s.draws, startWork s.cfg f.frame⟩ = .ok p ∧
        t = deliver (((s.setQ { s.q with items := rest }).setDc p.dc).setDraws p.draws) p.w.record := by
  unfold execDecFrame at h
  split at h
  · rename_i he
    simp only [decFrameEnabled, Bool.and_eq_true, decide_eq_true_eq, Bool.not_eq_true'] at he
    split at h
    · simp_all
    · split at h
      · cases h
        exact .inr ⟨_, _, _, he.1, ‹_›, ‹_›, rfl⟩
      · cases h
  · rename_i he
    cases h
    exact .inl ⟨by simpa using he, rfl⟩

end Sys2Proof.Machine
end

