-- ==== Sys2Proof/Laws/ReedSolomon.lean ====
section
/-! SUPPORT. What the symbol corrector can answer (42_reed_solomon.md R146). -/

namespace Sys2Proof.Machine

/-- The distance of two words that start with a symbol each. -/
theorem hamming_cons (x y : Byte) (u v : List Byte) :
    hamming (x :: u) (y :: v) = (if x = y then 0 else 1) + hamming u v := by
  simp [hamming]

/-- Words of one length at distance 0 are equal. -/
theorem eq_of_hamming_zero {u v : List Byte} (hl : u.length = v.length) (h : hamming u v = 0) : u = v := by
  induction u generalizing v with
  | nil => cases v <;> simp_all
  | cons x u ih =>
    cases v with
    | nil => simp at hl
    | cons y v =>
      rw [hamming_cons] at h
      split at h
      · rw [‹x = y›, ih (by simpa using hl) (by omega)]
      · omega

/-- A word has distance 0 from itself. -/
@[simp] theorem hamming_self (u : List Byte) : hamming u u = 0 := by
  induction u with
  | nil => rfl
  | cons x u ih => simp [hamming_cons, ih]

/-- `allBytes` holds every byte. -/
theorem mem_allBytes (y : Byte) : y ∈ allBytes :=
  List.mem_map.2 ⟨y.toNat, List.mem_range.2 y.isLt, by simp⟩

/-- `nearWords` holds exactly the words of the same length within the distance. -/
theorem mem_nearWords_iff (t : Nat) (r w : List Byte) :
    w ∈ nearWords t r ↔ w.length = r.length ∧ hamming w r ≤ t := by
  induction r generalizing t w with
  | nil => cases t <;> cases w <;> simp [nearWords, hamming]
  | cons x r ih =>
    cases t with
    | zero =>
      simp only [nearWords, List.mem_singleton, Nat.le_zero]
      refine ⟨?_, fun h => eq_of_hamming_zero h.1 h.2⟩
      rintro rfl
      simp
    | succ t =>
      simp only [nearWords, List.mem_append, List.mem_map, List.mem_flatMap, List.mem_filter, ih]
      cases w with
      | nil => simp
      | cons y w =>
        rw [hamming_cons]
        by_cases hy : y = x
        · simp [hy]
        · simp [hy, Ne.symm hy, mem_allBytes]
          omega

/-- Everything among the candidates is accepted by R146. -/
theorem rsAccepts_of_mem {c : Cfg} {k : Nat} {syn r cw : List Byte} (h : cw ∈ rsCandidates c k syn r) :
    rsAccepts c k r cw = true := by
  unfold rsCandidates at h
  split at h
  · exact (List.mem_filter.1 h).2
  · have := (List.mem_filter.1 h).2
    simp_all

/-- Where the two systems do not serve, the candidates are all the words that R146 accepts. -/
theorem mem_rsCandidates_of_not_regular {c : Cfg} {k : Nat} {syn r cw : List Byte}
    (hr : rsRegular c (errorBound c k r) = false) (hm : isMultiple c cw = true) (ha : rsAccepts c k r cw = true) :
    cw ∈ rsCandidates c k syn r := by
  have h := ha
  simp only [rsAccepts, Bool.and_eq_true, decide_eq_true_eq] at h
  simp [rsCandidates, hr, mem_nearWords_iff, h.1.1.1, h.1.2, hm, ha]

/-- Everything the corrector can answer: a received codeword, or one of the candidates. -/
theorem rsCorrect_some {c : Cfg} {k : Nat} {r cw : List Byte} (h : rsCorrect c k r = some cw) :
    (isCodeword c r = true ∧ cw = r) ∨
      (isCodeword c r = false ∧ cw ∈ rsCandidates c k (syndromes c r) r) := by
  simp only [rsCorrect] at h
  split at h
  · exact .inl ⟨‹_›, by simpa using h.symm⟩
  · rename_i hs
    refine .inr ⟨by simpa [isCodeword] using hs, ?_⟩
    split at h
    · cases h
    · simp_all
    · exact List.mem_of_getElem? h

/-- The corrector fails exactly on a word that is no codeword and has no candidate. -/
theorem rsCorrect_eq_none_iff (c : Cfg) (k : Nat) (r : List Byte) :
    rsCorrect c k r = none ↔ isCodeword c r = false ∧ rsCandidates c k (syndromes c r) r = [] := by
  simp only [rsCorrect, isCodeword]
  split
  · simp [‹allZero _ = true›]
  · simp only [Bool.not_eq_true] at *
    split
    · simp_all
    · simp_all
    · rename_i hz _ h0 _
      have hp := List.length_pos_iff.2 h0
      have hlt := Nat.mod_lt (Config.rsChoice c k r) hp
      simp only [List.getElem?_eq_none_iff]
      exact ⟨fun h => absurd h (by omega), fun h => absurd h.2 h0⟩

/-- The corrector answers the only candidate of a word that is no codeword. -/
theorem rsCorrect_of_singleton {c : Cfg} {k : Nat} {r cw : List Byte} (hs : isCodeword c r = false)
    (h : rsCandidates c k (syndromes c r) r = [cw]) : rsCorrect c k r = some cw := by
  unfold isCodeword at hs
  simp [rsCorrect, hs, h]

end Sys2Proof.Machine
end

