-- ==== Sys2Proof/Laws/Step.lean ====
section
/-! SUPPORT. What the Framer's steps, the host operations and one step of the block can answer: one inversion
lemma for each. -/

namespace Sys2Proof.Machine

/-- Everything FR_PULL can do: it waits, or it moves one byte into the buffer. -/
theorem execFrPull_next {s t : State} (h : execFrPull s = .next t) :
    (frPullEnabled s = false ∧ t = s) ∨
      ∃ v rest, s.fr.stage = .running ∧ need s.cfg s.fr = true ∧ s.inp = .byte v :: rest ∧
        t = (s.setInp rest).setFr { s.fr with buf := s.fr.buf ++ bitsOf v } := by
  unfold execFrPull at h
  cases he : frPullEnabled s with
  | false =>
    rw [if_neg (by simp [he])] at h
    cases h
    exact .inl ⟨rfl, rfl⟩
  | true =>
    obtain ⟨hs, hn, v, rest, hi⟩ := (frPullEnabled_iff s).1 he
    rw [if_pos he, hi] at h
    cases h
    exact .inr ⟨v, rest, hs, hn, hi, rfl⟩

/-- Everything FR_READ_FAIL can do: it waits, or it consumes END and takes ReadError. -/
theorem execFrReadFail_next {s t : State} (h : execFrReadFail s = .next t) :
    (frReadFailEnabled s = false ∧ t = s) ∨
      ∃ rest, s.fr.stage = .running ∧ need s.cfg s.fr = true ∧ s.inp = .eos :: rest ∧
        t = raiseError .eRead (s.setInp rest) := by
  unfold execFrReadFail at h
  cases he : frReadFailEnabled s with
  | false =>
    rw [if_neg (by simp [he])] at h
    cases h
    exact .inl ⟨rfl, rfl⟩
  | true =>
    obtain ⟨hs, hn, rest, hi⟩ := (frReadFailEnabled_iff s).1 he
    rw [if_pos he, hi] at h
    cases h
    exact .inr ⟨rest, hs, hn, hi, rfl⟩

/-- Everything FR_CORRELATE can do: it waits, or it takes the correlation's result. -/
theorem execFrCorrelate_next {s t : State} (h : execFrCorrelate s = .next t) :
    (frCorrelateEnabled s = false ∧ t = s) ∨
      (s.fr.stage = .running ∧ s.fr.phase = .read ∧ s.cfg.frameBits ≤ s.fr.cur ∧
        t = s.setFr { s.fr with
          syncOff := (corr s.cfg (s.fr.buf.take s.cfg.frameBits)).1
          inv := (corr s.cfg (s.fr.buf.take s.cfg.frameBits)).2
          phase := .deoffset }) := by
  unfold execFrCorrelate at h
  cases he : frCorrelateEnabled s with
  | false =>
    rw [if_neg (by simp [he])] at h
    cases h
    exact .inl ⟨rfl, rfl⟩
  | true =>
    obtain ⟨hs, hp, hc⟩ := (frCorrelateEnabled_iff s).1 he
    rw [if_pos he] at h
    cases h
    exact .inr ⟨hs, hp, hc, rfl⟩

/-- Everything FR_EMIT can do: it waits, or it publishes the ready frame. -/
theorem execFrEmit_next {s t : State} (h : execFrEmit s = .next t) :
    (frEmitEnabled s = false ∧ t = s) ∨
      (s.fr.stage = .running ∧ frameReady s.cfg s.fr = true ∧ s.q.closed = false ∧
        s.q.items.length < s.cfg.fifoDepth ∧
        t = ((s.setQ (publish s.q (extractFrame s.cfg s.fr) s.fr.inv)).setFtrace
          (s.ftrace ++ [⟨extractFrame s.cfg s.fr, s.fr.inv, s.fr.syncOff⟩])).setFr
            { s.fr with buf := s.fr.buf.drop (s.fr.syncOff + s.cfg.frameBits), phase := .read }) := by
  unfold execFrEmit at h
  cases he : frEmitEnabled s with
  | false =>
    rw [if_neg (by simp [he])] at h
    cases h
    exact .inl ⟨rfl, rfl⟩
  | true =>
    obtain ⟨hs, hr, hc, hd⟩ := (frEmitEnabled_iff s).1 he
    rw [if_pos he] at h
    cases h
    exact .inr ⟨hs, hr, hc, hd, rfl⟩

/-- Everything FR_PUBLISH_FAIL can do: it waits, or it takes PublishError. -/
theorem execFrPublishFail_next {s t : State} (h : execFrPublishFail s = .next t) :
    (frPublishFailEnabled s = false ∧ t = s) ∨
      (s.fr.stage = .running ∧ frameReady s.cfg s.fr = true ∧ s.q.closed = true ∧ t = raiseError .ePublish s) := by
  unfold execFrPublishFail at h
  cases he : frPublishFailEnabled s with
  | false =>
    rw [if_neg (by simp [he])] at h
    cases h
    exact .inl ⟨rfl, rfl⟩
  | true =>
    obtain ⟨hs, hr, hc⟩ := (frPublishFailEnabled_iff s).1 he
    rw [if_pos he] at h
    cases h
    exact .inr ⟨hs, hr, hc, rfl⟩

/-- Everything a step can do: it continues the frame decode in progress, or it takes the next event. -/
theorem step_next {s t : State} (h : step s = .next t) :
    (∃ w, s.work = some w ∧ decodeStep s w = .next t) ∨
      (s.work = none ∧
        ((s.agenda = [] ∧ t = s) ∨
          (∃ rest, s.agenda = .framer :: rest ∧ framerTurn (s.setAgenda rest) = .next t) ∨
          (∃ rest, s.agenda = .decoder :: rest ∧ execDecFrame (s.setAgenda rest) = .next t) ∨
          (∃ op rest, s.agenda = .host op :: rest ∧ exec op.toInstr (s.setAgenda rest) = .next t) ∨
          (∃ rest, s.agenda = .run :: rest ∧ runTurn rest s = .next t))) := by
  unfold step at h
  split at h
  · exact .inl ⟨_, ‹_›, h⟩
  · refine .inr ⟨‹_›, ?_⟩
    split at h
    · cases h
      exact .inl ⟨‹_›, rfl⟩
    · exact .inr (.inl ⟨_, ‹_›, h⟩)
    · exact .inr (.inr (.inl ⟨_, ‹_›, h⟩))
    · exact .inr (.inr (.inr (.inl ⟨_, _, ‹_›, h⟩)))
    · exact .inr (.inr (.inr (.inr ⟨_, ‹_›, h⟩)))

/-- The operation a subframe decodes to is one turn of the walk with the act of its tag. -/
theorem exec_toInstr (sf : Subframe) (s : State) :
    exec (sf.toInstr s.cfg) s = onPipe (subframeTurn (actOf (subKind s.cfg sf.tag)) sf.payload sf.crc) s := by
  unfold Subframe.toInstr
  cases subKind s.cfg sf.tag <;> rfl

/-- A run goes on from the next state of its first step. -/
theorem run_succ_of_next {s t : State} {k : Nat} (h : step s = .next t) :
    Host.Core.run Sys2Proof.core (k + 1) s = Host.Core.run Sys2Proof.core k t := by
  simp only [Host.Core.run, Sys2Proof.core, h]

/-- The walk's loop is the block's steps at the walk, one for each of its turns and one that goes on to delivery. -/
theorem run_walkLoop {fuel : Nat} {s : State} {w : Work} {p' : Pipe} (hw : s.work = some w) (hs : w.stage = .walk)
    (h : walkLoop s.cfg fuel ⟨s.dc, s.draws, w⟩ = .ok p') :
    ∃ k, Host.Core.run Sys2Proof.core k s =
      .next (((s.setDc p'.dc).setDraws p'.draws).setWork (some { p'.w with stage := .deliver })) := by
  induction fuel generalizing s w with
  | zero => cases h
  | succ fuel ih =>
    obtain ⟨hf, rfl⟩ | ⟨sf, q, hf, ht, hl⟩ := walkLoop_succ_cases h
    · refine ⟨1, ?_⟩
      have : step s = .next (s.setWork (some { w with stage := .deliver })) := by
        simp only [step, hw, decodeStep, hs, hf]
      rw [run_succ_of_next this]
      rfl
    · have : step s = .next (((s.setDc q.dc).setDraws q.draws).setWork (some q.w)) := by
        simp only [step, hw, decodeStep, hs, hf, exec_toInstr]
        exact onPipe_inside _ s w q hw ht
      obtain ⟨dc, record, hq⟩ := subframeTurn_frame ht
      obtain ⟨k, hk⟩ := ih (s := ((s.setDc q.dc).setDraws q.draws).setWork (some q.w)) (w := q.w) rfl
        (by rw [hq]; exact hs) hl
      refine ⟨k + 1, ?_⟩
      rw [run_succ_of_next this]
      exact hk

/-- Everything one turn of RUN can do: it ends, or an enabled agent takes its step. -/
theorem runTurn_next {rest : List Event} {s t : State} (h : runTurn rest s = .next t) :
    (framerStep s = none ∧ decFrameEnabled s = false ∧ t = s.setAgenda rest) ∨
      (∃ i n, framerStep s = some i ∧ exec i (s.setDraws n) = .next t) ∨
      (decFrameEnabled s = true ∧ ∃ n, execDecFrame (s.setDraws n) = .next t) := by
  unfold runTurn at h
  split at h
  · cases h
    exact .inl ⟨‹_›, ‹_›, rfl⟩
  · exact .inr (.inl ⟨_, s.draws, ‹_›, h⟩)
  · exact .inr (.inr ⟨‹_›, s.draws, h⟩)
  · split at h
    · exact .inr (.inl ⟨_, _, ‹_›, h⟩)
    · exact .inr (.inr ⟨‹_›, _, h⟩)

end Sys2Proof.Machine
end

