-- ==== Sys2Proof/Tests/Slice0.lean ====
section
/-! SUPPORT. Tests: ill-formed terms that WellFormed refuses, words written out from the spec's formats, the
spec's own examples, and a state that meets the hypotheses of each statement. Every expected result is the
spec's (95_test_vectors.md and the examples of the rules), but for the witnesses. -/

namespace Sys2Proof.Machine.Tests

set_option Elab.async false

/-- The configuration of the spec's small framer examples (40_framer.md R103, R108). -/
def tiny : Cfg :=
  { Cfg.rs41 with syncLen := 1, syncPattern := 0xB4, frameLen := 3, fifoDepth := 1, geoZero := 0, handlerCtx := 7 }

/-- The default configuration with its OPEN parameters given a value. -/
def full : Cfg := { Cfg.rs41 with fifoDepth := 1, geoZero := 0, handlerCtx := 7 }

/-- A small configuration that meets both groups of R4 and the layout bounds. -/
def mini : Cfg :=
  { tiny with
    frameLen := 60, parOff := 2, parLen := 8, ftypeOff := 10, dataOff := 11, dataLenNormal := 30
    dataLenExt := 49, rsT := 2, rsNroots := 4, rsK := 251, rsMsgOff := 10, rsMsgNormal := 15, rsMsgExt := 25
    serialLen := 2, statusFragSeqOff := 4, statusFragDataOff := 5, calFragSize := 2, statusMinLen := 7
    calFragCount := 3, calLen := 6, bkCalOffset := 2 }

/-- The state after reset with a configuration. -/
def start (c : Cfg) : State := State.resetWith c [] 0

/-- A running Framer with bits buffered and items in IN. -/
def framing (c : Cfg) (phase : Phase) (buf : Bits) (off : Nat) (inp : List InItem) : State :=
  ((start c).setFr ⟨.running, phase, buf, off, false⟩).setInp inp

/-- Inside a frame decode of a frame, at a stage. -/
def decoding (c : Cfg) (frm : List Byte) (stage : Stage) : State :=
  (start c).setWork (some { startWork c frm with stage := stage })

/-- A frame of zeros. -/
def zeros (c : Cfg) : List Byte := List.replicate c.frameLen 0

/-- The next state of an outcome, if it is one. -/
def after : Host.Outcome State Fault Refusal → Option State
  | .next s => some s
  | _ => none

/-- The working state of the next state. -/
def workAfter (o : Host.Outcome State Fault Refusal) : Option Work := (after o).bind (·.work)

/-- An outcome with a next state is one. -/
theorem next_of_after {o : Host.Outcome State Fault Refusal} (h : (after o).isSome = true) : ∃ t, o = .next t := by
  cases o with
  | next t => exact ⟨t, rfl⟩
  | fault e => simp [after] at h
  | refused e => simp [after] at h

/-! WellFormed refuses an ill-formed term of each check. -/

theorem test_wf_payload_too_long : (Instr.sfStatus (List.replicate 256 0) 0).wf Cfg.rs41 = false := by decide +kernel
theorem test_wf_payload_longest : (Instr.sfXdata (List.replicate 255 0) 0).wf Cfg.rs41 = true := by decide +kernel
theorem test_wf_unknown_with_named_tag : (Instr.sfUnknown 0x79 [] 0).wf Cfg.rs41 = false := by decide +kernel
theorem test_wf_unknown_payload_too_long : (Instr.sfUnknown 0x05 (List.replicate 256 0) 0).wf Cfg.rs41 = false := by
  decide +kernel
theorem test_wf_normal_with_extended_value : (Instr.ftNormal 0xF0).wf Cfg.rs41 = false := by decide +kernel
theorem test_wf_deinterleave_block_2 : (Instr.deinterleave 2).wf Cfg.rs41 = false := by decide +kernel
theorem test_wf_reinterleave_block_2 : (Instr.reinterleave 2).wf Cfg.rs41 = false := by decide +kernel
theorem test_wf_crc16_length : (Instr.crc16 0 256).wf Cfg.rs41 = false := by decide +kernel
theorem test_wf_crcOk_length : (Instr.crcOk 0 256).wf Cfg.rs41 = false := by decide +kernel
theorem test_wf_fragment_length : (Instr.calMerge 0 (List.replicate 15 0)).wf Cfg.rs41 = false := by decide +kernel
theorem test_wf_reset_sync_length : (Instr.reset { tiny with syncLen := 0 }).wf Cfg.rs41 = false := by decide +kernel
theorem test_wf_reset_sync_too_long : (Instr.reset { full with syncLen := 9 }).wf Cfg.rs41 = false := by decide +kernel
theorem test_wf_reset_pattern : (Instr.reset { tiny with syncPattern := 0x1B4 }).wf Cfg.rs41 = false := by decide +kernel
theorem test_wf_reset_frame_length : (Instr.reset { full with frameLen := 7 }).wf Cfg.rs41 = false := by decide +kernel
theorem test_wf_reset_fifo_depth : (Instr.reset { tiny with fifoDepth := 0 }).wf Cfg.rs41 = false := by decide +kernel
theorem test_wf_named_tags_repeat : { full with stPtu := 0x79 }.tagsDistinct = false := by decide +kernel
theorem test_cfg_default_groups :
    full.framerOk = true ∧ full.decoderOk = true ∧ full.layoutOk = true ∧ full.tagsDistinct = true := by decide +kernel
theorem test_cfg_framer_only : tiny.framerOk = true ∧ tiny.decoderOk = false := by decide +kernel
theorem test_cfg_frame_below_518 : { full with frameLen := 517 }.decoderOk = false := by decide +kernel
theorem test_cfg_layout : { full with ftypeOff := 518 }.layoutOk = false := by decide +kernel
theorem test_cfg_layout_overhead : { full with sfOverhead := 3 }.layoutOk = false := by decide +kernel

/-! Words written out from 30_encoding.md R75 and R77 (tag, length, payload, CRC low byte first) and from R73,
one for each encoded constructor. -/

theorem test_decode_status :
    decode Cfg.rs41 [0x79, 0x02, 0xAA, 0xBB, 0x0A, 0xF9, 0x00] = .ok (.sfStatus [0xAA, 0xBB] 0xF90A, [0x00]) := by
  decide +kernel
theorem test_decode_ptu : decode Cfg.rs41 [0x7A, 0x00, 0xFF, 0xFF] = .ok (.sfPtu [] 0xFFFF, []) := by decide +kernel
theorem test_decode_gpspos :
    decode Cfg.rs41 [0x7B, 0x01, 0x80, 0xA7, 0x4F] = .ok (.sfGpspos [0x80] 0x4FA7, []) := by decide +kernel
theorem test_decode_gpsinfo : decode Cfg.rs41 [0x7C, 0x00, 0x01, 0x02] = .ok (.sfGpsinfo [] 0x0201, []) := by decide +kernel
theorem test_decode_gpsraw : decode Cfg.rs41 [0x7D, 0x00, 0x01, 0x02] = .ok (.sfGpsraw [] 0x0201, []) := by decide +kernel
theorem test_decode_xdata :
    decode Cfg.rs41 [0x7E, 0x01, 0x41, 0x15, 0xB9] = .ok (.sfXdata [0x41] 0xB915, []) := by decide +kernel
theorem test_decode_empty : decode Cfg.rs41 [0x76, 0x00, 0xFF, 0xFF] = .ok (.sfEmpty [] 0xFFFF, []) := by decide +kernel
theorem test_decode_unknown :
    decode Cfg.rs41 [0x05, 0x02, 0x10, 0x20, 0x34, 0x12] = .ok (.sfUnknown 0x05 [0x10, 0x20] 0x1234, []) := by decide +kernel
theorem test_decode_frame_type_extended : decodeFtype Cfg.rs41 0xF0 = .ftExtended := by decide +kernel
theorem test_decode_frame_type_normal : decodeFtype Cfg.rs41 0x0F = .ftNormal 0x0F := by decide +kernel
theorem test_decode_no_header : decode Cfg.rs41 [0x79] = .error .noHeader := by decide +kernel
theorem test_decode_beyond_region : decode Cfg.rs41 [0x79, 0x01, 0x00, 0x00] = .error .beyondRegion := by decide +kernel
theorem test_table_word_status : decodeTableWord 16 0x0079 = some (.sfStatus [] 0) := by decide +kernel
theorem test_table_word_extended : decodeTableWord 8 0xF0 = some .ftExtended := by decide +kernel
theorem test_table_word_unknown : decodeTableWord 16 0x0105 = some (.sfUnknown 0x05 [0] 0) := by decide +kernel
theorem test_fetch_word_extended : (workAfter (step ((start full).withFetchWord 8 0xF0))).map
    (fun w => (w.ext, w.regionLen, w.stage, w.off)) = some (true, 461, .walk, 0) := by decide +kernel
theorem test_fetch_word_status : (workAfter (step ((start full).withFetchWord 8 0x79))).map
    (fun w => (w.ext, w.regionLen, w.stage, w.off)) = some (false, 263, .walk, 4) := by decide +kernel

/-! The spec's examples, one step each. -/

/-- R101: 101, then 0xF0. -/
theorem test_pull : (after (exec .frPull (framing tiny .read [true, false, true] 0 [.byte 0xF0]))).map (·.fr.buf) =
    some [true, false, true, true, true, true, true, false, false, false, false] := by decide +kernel

/-- R102: 20 bits and END. -/
theorem test_read_fail : (after (exec .frReadFail (framing tiny .read (List.replicate 20 true) 0 [.eos]))).map
    (fun t => (t.errs, t.fr, t.inp)) = some ([(.framer, .eRead)], Framer.reset, []) := by decide +kernel

/-- R103: 05 A0 91. -/
theorem test_correlate :
    (after (exec .frCorrelate (framing tiny .read (bitsOfBytes [0x05, 0xA0, 0x91]) 0 []))).map
      (fun t => (t.fr.syncOff, t.fr.inv, t.fr.phase)) = some (5, false, .deoffset) := by decide +kernel

/-- R106: the complement 4B is found inverted. -/
theorem test_correlate_inverted :
    corr tiny (bitsOfBytes [0x02, 0x58, 0x00]) = (5, true) := by decide +kernel

/-- R108: 05 A0 91 A2 at offset 5. -/
theorem test_emit :
    (after (exec .frEmit (framing tiny .deoffset (bitsOfBytes [0x05, 0xA0, 0x91, 0xA2]) 5 []))).map
      (fun t => (t.ftrace, t.fr.buf)) =
    some ([⟨[0xB4, 0x12, 0x34], false, 5⟩], [false, true, false]) := by decide +kernel

/-- R111: closed output. -/
theorem test_publish_fail :
    (after (exec .frPublishFail
      ((framing tiny .deoffset (bitsOfBytes [0x05, 0xA0, 0x91, 0xA2]) 5 []).setQ ⟨[], true⟩))).map
      (fun t => (t.errs, t.ftrace, t.q.closed)) = some ([(.framer, .ePublish)], [], true) := by decide +kernel

/-- R130: 00 FF 5A. -/
theorem test_descramble : descrambleFrom Cfg.rs41 0 [0x00, 0xFF, 0x5A] = [0x69, 0x83, 0x9B] := by decide +kernel

/-- R130: with a period of 2 the third byte uses PRN[0] again. -/
theorem test_descramble_period :
    descrambleFrom { Cfg.rs41 with prnPeriod := 2 } 0 [0x00, 0xFF, 0x00] = [0x69, 0x83, 0x69] := by decide +kernel

/-- R133: the sync header of an RS41 frame. -/
theorem test_descramble_header :
    descrambleFrom Cfg.rs41 0 [0xF7, 0x92, 0xAC, 0x77, 0xBB, 0x96, 0xB7, 0xE0] =
      [0x86, 0x35, 0xF4, 0x40, 0x93, 0xDF, 0x1A, 0x60] := by decide +kernel

/-- R140: the products and the inverse. -/
theorem test_field : gmul Cfg.rs41 0x80 0x02 = 0x1D ∧ gmul Cfg.rs41 0x53 0xCA = 0x8F ∧
    ginv Cfg.rs41 0x53 = 0x8C := by decide +kernel

/-- R142: the generator. -/
theorem test_generator : generator Cfg.rs41 =
    [0x75, 0x90, 0xD9, 0x7F, 0xF7, 0xED, 0x01, 0xCE, 0x2B, 0x3D, 0x48, 0x82, 0x49, 0xE5, 0x96, 0x73, 0x66, 0xD8,
      0xED, 0xB2, 0x46, 0xA9, 0x76, 0x7A, 0x01] := by decide +kernel

/-- R146: one error at position 30. -/
theorem test_correct_one_error :
    rsCorrect Cfg.rs41 132 ((List.replicate 255 0).set 30 0x5A) = some (List.replicate 255 0) := by decide +kernel

/-- 42_reed_solomon.md §5: the nearest codeword has an error in the padding. -/
theorem test_correct_padding_refused :
    rsCorrect Cfg.rs41 132 (List.replicate 132 0 ++ (generator Cfg.rs41).take 24 ++ List.replicate 99 0) = none := by
  decide +kernel

/-- A root skip of 3, under which positions 85 apart share their powers. -/
def skip3 : Cfg := { full with rsPrim := 3, rsT := 2, rsNroots := 4, rsK := 251 }

/-- R146 with a root skip of 3: one error, whose position is the only one of its power before the padding. -/
theorem test_correct_root_skip :
    rsCorrect skip3 15 ((List.replicate 255 0).set 3 0x5A) = some (List.replicate 255 0) := by decide +kernel

/-- R146, R142 with a double root: of the words within distance 1 of `5 + x + 5x²` that vanish at 1, only `5 + 5x²` is
a multiple of `(x + 1)²`. -/
theorem test_correct_double_root :
    rsCorrect { full with rsPrim := 0, rsT := 1, rsNroots := 2, rsK := 253 } 1 [5, 1, 5] = some [5, 0, 5] := by
  decide +kernel

/-- R145: block 1 starts with the parity at byte 32 and the message at byte 57. -/
theorem test_deinterleave :
    (workAfter (exec (.deinterleave 1) (decoding full (((zeros full).set 32 0xAA).set 57 0xBB) .fec))).map
      (fun w => (w.r.getD 0 0, w.r.getD 24 0, w.r.length)) = some (0xAA, 0xBB, 255) := by decide +kernel

/-- R160: "123456789". -/
theorem test_crc_check :
    crc16 Cfg.rs41 [0x31, 0x32, 0x33, 0x34, 0x35, 0x36, 0x37, 0x38, 0x39] = 0x29B1 := by decide +kernel

/-- R161: 7E 01 41 15 B9 passes, 7E 01 41 B9 15 fails. -/
theorem test_crc_ok :
    (workAfter (exec (.crcOk 0 1)
      (decoding mini (List.replicate 11 0 ++ [0x7E, 0x01, 0x41, 0x15, 0xB9] ++ List.replicate 44 0) .walk))).map
        (·.crcOk) = some true ∧
    crcGate Cfg.rs41 [0x41] 0x15B9 = false := by decide +kernel

/-- R172: 0xF0 makes the region 461 bytes long. -/
theorem test_mode :
    (workAfter (exec .mode (decoding full ((zeros full).set 56 0xF0) .mode))).map
      (fun w => (w.ext, w.regionLen, w.stage)) = some (true, 461, .walk) := by decide +kernel

/-- The payload of the example of R177. -/
def statusExample : List Byte :=
  [0x34, 0x12, 0x53, 0x31, 0x32, 0x33, 0x34, 0x35, 0x36, 0x37] ++ List.replicate 13 0 ++ [0x31] ++
    [0, 0, 0, 0, 0, 0, 0x58, 0x02] ++ List.replicate 8 0

/-- R177: its sequence number, serial, burst-kill timer and fragment. -/
theorem test_status :
    (workAfter (exec (.sfStatus statusExample 0x1E18) (decoding full [] .walk))).map
      (fun w => (w.record.seq, w.record.serial, w.record.burstkill, w.off)) =
      some (0x1234, [0x53, 0x31, 0x32, 0x33, 0x34, 0x35, 0x36, 0x37], 600, 44) ∧
    (after (exec (.sfStatus statusExample 0x1E18) (decoding full [] .walk))).map
      (fun t => (t.dc.cal, t.dc.bitmap[49]?)) = some ([(790, 0x58), (791, 0x02)], some false) := by decide +kernel

/-- The payload of the example of R181. -/
def gpsExample : List Byte :=
  [0x80, 0x9F, 0xAB, 0x17, 0xE5, 0x8B, 0xB0, 0x06, 0x79, 0xBC, 0x25, 0x1D, 0x2E, 0xFB, 0x37, 0x02, 0xFA, 0x00]

/-- R181: its CRC and raw components. -/
theorem test_gpspos : crc16 Cfg.rs41 gpsExample = 0x4FA7 ∧
    s32le .payload gpsExample 0 = .ok 397123456 ∧ s32le .payload gpsExample 4 = .ok 112233445 ∧
    s32le .payload gpsExample 8 = .ok 489012345 ∧ s16le .payload gpsExample 12 = .ok (-1234) ∧
    s16le .payload gpsExample 14 = .ok 567 ∧ s16le .payload gpsExample 16 = .ok 250 := by decide +kernel

/-- R181: the record's fields are the collaborator's values of them. -/
theorem test_gpspos_record :
    (workAfter (exec (.sfGpspos gpsExample 0x4FA7) (decoding full [] .walk))).map (fun w => (w.record.lat, w.off)) =
      some ((Config.geoPos 0 397123456 112233445 489012345).1, 22) := by rfl

/-- The region of the walk of 44_subframe_parser.md §5. -/
def walkExample : List Byte :=
  [0x7E, 0x01, 0x41, 0x15, 0xB9] ++ [0x79, 0x02, 0xAA, 0xBB, 0x00, 0x00] ++ [0x7B, 0x12] ++ gpsExample ++
    [0xA7, 0x4F] ++ [0x76, 0x00, 0xFF, 0xFF] ++ [0x05, 0xFF] ++ List.replicate 224 0

/-- 44_subframe_parser.md §5: the walk ends at 37, the position acts, the serial stays. -/
theorem test_walk :
    (workAfter (exec .walk (decoding full (List.replicate 57 0 ++ walkExample ++ List.replicate 198 0) .walk))).map
      (fun w => (w.off, w.record.seq, w.record.serial)) = some (37, 0, List.replicate 8 0) := by decide +kernel

/-- R149, R150: one wrong parity byte of block 0 is corrected. -/
theorem test_fec_stage :
    (workAfter (exec .fecStage (decoding mini ((zeros mini).set 3 0x5A) .fec))).map (·.frm) = some (zeros mini) ∧
    (after (exec .fecStage (decoding mini ((zeros mini).set 3 0x5A) .fec))).map (·.dc.rsOk) =
      some [true, true] := by decide +kernel

/-- R148: the symbols go back to bytes 2 to 5 and 10, 12, …. -/
theorem test_reinterleave :
    (workAfter (exec (.reinterleave 0) ((start mini).setWork (some { startWork mini (zeros mini) with
      ok := true, cw := (List.range 255).map (BitVec.ofNat 8) })))).map
        (fun w => (w.frm.drop 2).take 11) = some [0, 1, 2, 3, 0, 0, 0, 0, 4, 0, 5] := by decide +kernel

/-- R190: the record goes to the handler with its context. -/
theorem test_deliver : (after (exec .deliverRecord (decoding full [] .deliver))).map
    (fun t => (t.recs.map (·.2), t.work.isSome)) = some ([7], false) := by decide +kernel

/-- R200, R201, R202. -/
theorem test_host_inputs :
    (after (exec (.push [1, 2]) ((start tiny).setInp [.eos]))).map (·.inp) = some [.eos, .byte 1, .byte 2] ∧
    (after (exec .pushEnd (start tiny))).map (·.inp) = some [.eos] ∧
    (after (exec .closeOutput (start tiny))).map (·.q.closed) = some true := by decide +kernel

/-- R206: RESUME FRAMER reopens the output. -/
theorem test_resume_framer : (after (exec .resumeFramer ((start tiny).setQ ⟨[], true⟩))).map
    (fun t => (t.fr.stage, t.q.closed)) = some (.running, false) := by decide +kernel

/-- R174: the walk of 44_subframe_parser.md §5 ends at its last subframe. -/
theorem test_walk_bound_stop : decodeSubframe full ([0x05, 0xFF] ++ List.replicate 224 0) = .error .beyondRegion := by
  decide +kernel

/-- R173 with an overhead of 0: a region of zeros keeps the walk at offset 0 (notes/assumptions/25.md). -/
theorem test_walk_stuck :
    walkOp { mini with sfOverhead := 0 } ⟨Decoder.reset mini, 0, startWork mini (zeros mini)⟩ = .error .walkStuck := by
  decide +kernel

/-- R178: fragment 51 has no place. -/
theorem test_merge_out_of_range :
    after (exec (.calMerge 51 (List.replicate 16 0xAB)) (start full)) = some (start full) := by decide +kernel

/-- R178, R179: the third of three fragments completes the calibration. -/
theorem test_merge_completes :
    (after (exec (.calMerge 2 [0x01, 0x02])
      ((start mini).setDc { (start mini).dc with bitmap := [false, false, true] }))).map
        (fun t => (t.dc.cal, t.dc.calibrated)) = some ([(4, 0x01), (5, 0x02)], true) := by decide +kernel

/-- R180: 0xFFFF means disabled. -/
theorem test_burstkill_disabled :
    (workAfter (exec .burstkill
      ((decoding full [] .walk).setDc { (start full).dc with cal := [(790, 0xFF), (791, 0xFF)] }))).map (·.burst) =
      some (-1) := by decide +kernel

/-- R206: RESUME DECODER is refused under a framer-only configuration. -/
theorem test_resume_decoder_framer_only :
    (after (exec .resumeDecoder (start tiny))).map (·.dc.stage) = some .stopped ∧
    (after (exec .resumeDecoder (start full))).map (·.dc.stage) = some .running := by decide +kernel

/-- R203, R205: quiesce, then rebind; a running Framer is not rebound. -/
theorem test_rebind :
    (after (exec .rebindFramer (framing tiny .read [] 0 [.byte 1]))).map (·.inp) = some [.byte 1] ∧
    (after (exec .rebindFramer ((start tiny).setInp [.byte 1, .eos]))).map (·.inp) = some [] := by decide +kernel

/-- R84: lines of the script. -/
theorem test_script :
    loadScript ["CFG SYNC_LEN=1 SYNC_PATTERN=0xB4 FRAME_LEN=3 # small".toList, "RESET".toList,
      "PUSH 05 a0".toList, "RUN".toList] =
    some [.host (.reset { Cfg.rs41 with syncLen := 1, syncPattern := 0xB4, frameLen := 3 }),
      .host (.push [0x05, 0xA0]), .run] := by rfl

/-- The configuration of a script's RESET, if that is its first event. -/
def scriptCfg (lines : List String) : Option Cfg :=
  match loadScript (lines.map (·.toList)) with
  | some (.host (.reset c) :: _) => some c
  | _ => none

/-- 00_scope.md §4 and R3: decimal, hexadecimal and binary numbers, the negative sentinel, a byte of the PRN table,
the scale. -/
theorem test_script_fields :
    (scriptCfg ["CFG FRAME_LEN=0b1010 CAL_LEN=48 EXT_FLAG=0xF1 BK_DISABLED=-2", "CFG PRN[3]=0x5A PRN_PERIOD=16 GPS_SCALE=1/50",
      "CFG SF_OVERHEAD=5 GEO_POS=1", "RESET"]).map
      (fun c => ([c.frameLen, c.calLen, c.prnPeriod, c.sfOverhead, c.geoPos], c.gpsScale, c.bkDisabled,
        [c.extFlag, c.prn[3]])) = some ([10, 48, 16, 5, 1], (1, 50), -2, [0xF1, 0x5A]) := by decide +kernel

/-- R4: a pattern of 65 bits reaches RESET as it is written, and the framer group refuses it; a byte field takes no
value of nine bits. -/
theorem test_script_large_values :
    (scriptCfg ["CFG SYNC_PATTERN=0x10000000000000000", "RESET"]).map (fun c => (c.syncPattern, c.framerOk)) =
      some (2 ^ 64, false) ∧
    scriptCfg ["CFG WHITEN_MASK=0x1FF", "RESET"] = none := by decide +kernel

/-! Witnesses: for each statement with hypotheses, a state and operands that meet them together. -/

/-- For SubframeDecodeOfEncode. -/
theorem witness_SubframeDecodeOfEncode :
    ∃ c i bytes, c.tagsDistinct = true ∧ c.sfOverhead = 4 ∧ Instr.wf c i = true ∧ encode c i = some bytes ∧ i ≠ .ftExtended ∧
      ∀ v, i ≠ .ftNormal v :=
  ⟨full, .sfXdata [0x41] 0xB915, [0x7E, 0x01, 0x41, 0x15, 0xB9], by decide +kernel, by decide +kernel, by decide +kernel, by decide +kernel, nofun, nofun⟩

/-- For SubframeEncodeOfDecode. -/
theorem witness_SubframeEncodeOfDecode : full.sfOverhead = 4 ∧
    decode full [0x76, 0x00, 0xFF, 0xFF, 0x05] = .ok (.sfEmpty [] 0xFFFF, [0x05]) := by decide +kernel

/-- For DecodeRefusesWhatDoesNotFit: each of the three answers, the third only below an overhead of 4. -/
theorem witness_DecodeRefusesWhatDoesNotFit :
    decode full [0x79] = .error .noHeader ∧ decode full [0x79, 0x00, 0x00] = .error .beyondRegion ∧
    decode { full with sfOverhead := 3 } [0x79, 0x00, 0x00] = .error .noCrc := by decide +kernel

/-- For ResetPutsEveryComponent. -/
theorem witness_ResetPutsEveryComponent : full.framerOk = true := by decide +kernel

/-- The state after reset meets the invariant: for InvariantKeptByStep and NoOutOfBoundsAccess. -/
theorem start_mini_inv : Inv (start mini) where
  cfgOk := by decide +kernel
  framer := ⟨by decide +kernel, by decide +kernel, by decide +kernel, by decide +kernel, by decide +kernel⟩
  link := ⟨by decide +kernel, by decide +kernel⟩
  decoder := ⟨by decide +kernel, by decide +kernel, by decide +kernel, by decide +kernel, by decide +kernel, by decide +kernel, by decide +kernel⟩
  noWork := by decide +kernel

/-- For InvariantKeptByStep: with an event to take. -/
theorem witness_InvariantKeptByStep :
    ∃ s t, Inv s ∧ step s = .next t ∧ s ≠ t :=
  ⟨(start mini).setAgenda [.host .pushEnd], _,
    ⟨start_mini_inv.cfgOk, start_mini_inv.framer, start_mini_inv.link, start_mini_inv.decoder, rfl⟩, rfl, by decide +kernel⟩

/-- For NoOutOfBoundsAccess: both groups and the layout hold. -/
theorem witness_NoOutOfBoundsAccess :
    Inv (start mini) ∧ (mini.decoderOk = true → mini.layoutOk = true) ∧ mini.decoderOk = true :=
  ⟨start_mini_inv, by decide +kernel, by decide +kernel⟩

/-- For FramerStepsAreExclusive: each of the five steps is selected somewhere, and none where Q is full. -/
theorem witness_FramerStepsAreExclusive :
    framerStep (framing tiny .read [] 0 [.byte 1]) = some .frPull ∧
    framerStep (framing tiny .deoffset (List.replicate 24 true) 1 [.eos]) = some .frReadFail ∧
    framerStep (framing tiny .read (List.replicate 24 true) 0 [.eos]) = some .frCorrelate ∧
    framerStep (framing tiny .deoffset (List.replicate 25 true) 1 [.eos]) = some .frEmit ∧
    framerStep ((framing tiny .deoffset (List.replicate 25 true) 1 []).setQ ⟨[], true⟩) = some .frPublishFail ∧
    framerStep ((framing tiny .deoffset (List.replicate 25 true) 1 []).setQ ⟨[⟨[1, 2, 3], false⟩], false⟩) = none := by
  decide +kernel

/-- For FramerBlockedExactly: waiting for input, waiting for room, and stopped with a full Q. -/
theorem witness_FramerBlockedExactly :
    (∃ s : State, s.q.items.length ≤ s.cfg.fifoDepth ∧ s.fr.stage = .running ∧ need s.cfg s.fr = true ∧ s.inp = []) ∧
    (∃ (s : State) (f : QFrame) (rest : List QFrame), s.q.items.length ≤ s.cfg.fifoDepth ∧ s.fr.stage = .running ∧
      frameReady s.cfg s.fr = true ∧ s.q.closed = false ∧ s.q.items.length = s.cfg.fifoDepth ∧
      s.q.items = f :: rest) :=
  ⟨⟨framing tiny .read [] 0 [], by decide +kernel⟩,
    ⟨(framing tiny .deoffset (List.replicate 25 true) 1 []).setQ ⟨[⟨[1, 2, 3], false⟩], false⟩, ⟨[1, 2, 3], false⟩, [],
      by decide +kernel⟩⟩

/-- For FramerBlockedExactly: a stopped Framer that RESUME FRAMER unblocks, and one that then waits for input. -/
theorem witness_FramerBlockedExactly_resume :
    (∃ s t : State, s.q.items.length ≤ s.cfg.fifoDepth ∧ s.fr.stage = .stopped ∧ exec .resumeFramer s = .next t ∧
      framerStep t = some .frPull) ∧
    (∃ s t : State, s.q.items.length ≤ s.cfg.fifoDepth ∧ s.fr.stage = .stopped ∧ exec .resumeFramer s = .next t ∧
      framerStep t = none) :=
  ⟨⟨(start tiny).setInp [.byte 1], _, by decide +kernel, by decide +kernel, rfl, by decide +kernel⟩,
    ⟨start tiny, _, by decide +kernel, by decide +kernel, rfl, by decide +kernel⟩⟩

/-- For FrPullResult: one bit short of a frame. -/
theorem witness_FrPullResult : ∃ (s : State) (v : Byte) (rest : List InItem),
    s.fr.stage = .running ∧ need s.cfg s.fr = true ∧ s.inp = .byte v :: rest :=
  ⟨framing tiny .read (List.replicate 23 true) 0 [.byte 0xF0], 0xF0, [], by decide +kernel⟩

/-- For ReadErrorEntry. -/
theorem witness_ReadErrorEntry : ∃ (s : State) (rest : List InItem),
    s.fr.stage = .running ∧ need s.cfg s.fr = true ∧ s.inp = .eos :: rest :=
  ⟨framing tiny .deoffset (List.replicate 24 true) 1 [.eos, .byte 1], [.byte 1], by decide +kernel⟩

/-- For PublishErrorEntry: exactly enough bits. -/
theorem witness_PublishErrorEntry : ∃ s : State, s.fr.stage = .running ∧ s.fr.phase = .deoffset ∧
    s.fr.syncOff + s.cfg.frameBits ≤ s.fr.cur ∧ s.q.closed = true :=
  ⟨(framing tiny .deoffset (List.replicate 25 true) 1 []).setQ ⟨[], true⟩, by decide +kernel⟩

/-- For FrCorrelateResult: exactly a frame of bits. -/
theorem witness_FrCorrelateResult : ∃ s : State, s.fr.stage = .running ∧ s.fr.phase = .read ∧
    s.cfg.frameBits ≤ s.fr.cur :=
  ⟨framing tiny .read (List.replicate 24 true) 0 [], by decide +kernel⟩

/-- For DistancesAreHamming. -/
theorem witness_DistancesAreHamming : ∃ (c : Cfg) (w : Bits), w.length = c.syncBits :=
  ⟨tiny, bitsOfBytes [0xB5], by decide +kernel⟩

/-- For CorrelationBestMatch and CorrelationShortCircuit: a direct zero and a complementary zero at offset 0. -/
theorem witness_CorrelationBestMatch : ∃ (c : Cfg) (w : Bits), c.framerOk = true ∧ w.length = c.frameBits :=
  ⟨tiny, bitsOfBytes [0x05, 0xA0, 0x91], by decide +kernel⟩

/-- For CorrelationShortCircuit. -/
theorem witness_CorrelationShortCircuit :
    (∃ (c : Cfg) (w : Bits), c.framerOk = true ∧ w.length = c.frameBits ∧
      directDistance c (w.take c.syncBits) = 0) ∧
    (∃ (c : Cfg) (w : Bits), c.framerOk = true ∧ w.length = c.frameBits ∧
      directDistance c (w.take c.syncBits) = c.syncBits) :=
  ⟨⟨tiny, bitsOfBytes [0xB4, 0x00, 0x00], by decide +kernel⟩, ⟨tiny, bitsOfBytes [0x4B, 0x00, 0x00], by decide +kernel⟩⟩

/-- For SyncCorrectness: one bit error at offset 5. -/
theorem witness_SyncCorrectness : ∃ (c : Cfg) (w : Bits) (off e : Nat), c.framerOk = true ∧
    w.length = c.frameBits ∧ off ≤ c.frameBits - c.syncBits ∧ bestDistanceAt c w off ≤ e ∧
    (∀ o, o < off → e < bestDistanceAt c w o) ∧
    (∀ o, o < c.frameBits - c.syncBits + 1 → off < o → e ≤ bestDistanceAt c w o) :=
  ⟨tiny, bitsOfBytes [0x05, 0xA0, 0x91], 5, 0, by decide +kernel⟩

/-- For FrEmitResult. -/
theorem witness_FrEmitResult : ∃ s : State, s.fr.stage = .running ∧ s.fr.phase = .deoffset ∧
    s.fr.syncOff + s.cfg.frameBits ≤ s.fr.cur ∧ s.q.closed = false ∧ s.q.items.length < s.cfg.fifoDepth :=
  ⟨framing tiny .deoffset (bitsOfBytes [0x05, 0xA0, 0x91, 0xA2]) 5 [], by decide +kernel⟩

/-- For ExtractionTakesBitsAtAnyOffset: exactly enough bits, at an odd offset. -/
theorem witness_ExtractionTakesBitsAtAnyOffset : ∃ (c : Cfg) (fr : Framer), fr.syncOff + c.frameBits ≤ fr.cur :=
  ⟨tiny, ⟨.running, .deoffset, List.replicate 29 true, 5, false⟩, by decide +kernel⟩

/-- For PackingMirrorsIntake. -/
theorem witness_PackingMirrorsIntake : (bitsOfBytes [0xB4, 0x12]).length % 8 = 0 := by decide +kernel

/-- For FramesAreAFunctionOfTheStream: a stream with one frame. -/
theorem witness_FramesAreAFunctionOfTheStream : ∃ (s : State) (bytes : List Byte), s.cfg.framerOk = true ∧
    s.work = none ∧ s.fr = { Framer.reset with stage := .running } ∧ s.inp = bytes.map .byte ∧
    s.q.closed = false ∧ s.q.items.length + 8 * bytes.length / s.cfg.frameBits ≤ s.cfg.fifoDepth ∧
    streamFrames s.cfg (bytes.length + 1) (bitsOfBytes bytes) = [⟨[0xB4, 0x12, 0x34], false, 5⟩] :=
  ⟨framing tiny .read [] 0 [.byte 0x05, .byte 0xA0, .byte 0x91, .byte 0xA2], [0x05, 0xA0, 0x91, 0xA2], by decide +kernel⟩

/-- For PushChunkingHasNoEffect. -/
theorem witness_PushChunkingHasNoEffect : ∃ (s t : State) (i : Instr), framerStep s = some i ∧ exec i s = .next t :=
  ⟨framing tiny .read [] 0 [.byte 1], _, .frPull, by decide +kernel, rfl⟩

/-- The frame of zeros as it is sent. -/
def sentFrame : List Byte := scrambleFrom mini 0 (zeros mini)

/-- A frame waits in Q for a running Decoder, while the Framer can pull. -/
def bothEnabled : State :=
  ((framing mini .read [] 0 [.byte 1]).setDc { (start mini).dc with stage := .running }).setQ
    ⟨[⟨sentFrame, false⟩], false⟩

/-- For AgentStepsCommute and EveryRunOfAgentStepsEnds. -/
theorem witness_AgentStepsCommute : framerStep bothEnabled = some .frPull ∧ decFrameEnabled bothEnabled = true ∧
    (∃ a, exec .frPull bothEnabled = .next a) ∧ ∃ b, exec .decFrame bothEnabled = .next b :=
  ⟨by decide +kernel, by decide +kernel, next_of_after (by decide +kernel), next_of_after (by decide +kernel)⟩

/-- For EveryRunOfAgentStepsEnds. -/
theorem witness_EveryRunOfAgentStepsEnds : bothEnabled.cfg.framerOk = true := by decide +kernel

/-- For OnlyDecoderAndResetWriteCalibration. -/
theorem witness_OnlyDecoderAndResetWriteCalibration : ∃ (i : Instr) (s t : State), exec i s = .next t ∧
    (∀ cfg, i ≠ .reset cfg) ∧ (i ∈ framerSteps ∨ ∃ op : HostOp, i = op.toInstr) :=
  ⟨.closeOutput, start mini, _, rfl, nofun, .inr ⟨.closeOutput, rfl⟩⟩

/-- For CalibrationIsSticky: a calibrated Decoder, and a bit that is 0. -/
theorem witness_CalibrationIsSticky : ∃ s t : State, NoResetNext s ∧ step s = .next t ∧ s.dc.calibrated = true ∧
    s.dc.bitmap[0]? = some false :=
  ⟨(start mini).setDc ⟨.stopped, [], [false, false, false], true, [false, false]⟩, _, nofun, rfl, by decide +kernel⟩

/-- For ErrorEntriesArePrecise: a step that takes an error entry. -/
theorem witness_ErrorEntriesArePrecise : ∃ s t : State, NoResetNext s ∧ step s = .next t ∧ t.errs ≠ s.errs :=
  ⟨(framing tiny .read [] 0 [.eos]).setAgenda [.framer], _, nofun, rfl, by decide +kernel⟩

/-- For LinksAreFifos: a step that consumes a frame. -/
theorem witness_LinksAreFifos : (bothEnabled.setAgenda [.decoder]).work = none ∧
    NoResetNext (bothEnabled.setAgenda [.decoder]) ∧ (∃ t, step (bothEnabled.setAgenda [.decoder]) = .next t) ∧
    (after (step (bothEnabled.setAgenda [.decoder]))).map (fun t => (t.q.items.length, t.recs.length)) = some (0, 1) :=
  ⟨rfl, nofun, next_of_after (by decide +kernel), by decide +kernel⟩

/-- For StageStatusChangesOnlyAsSaid: a step that changes both kinds of status is a host operation. -/
theorem witness_StageStatusChangesOnlyAsSaid :
    (∃ s t : State, NoResetNext s ∧ step s = .next t ∧ t.fr.stage ≠ s.fr.stage) ∧
    (∃ s t : State, NoResetNext s ∧ step s = .next t ∧ t.dc.stage ≠ s.dc.stage) :=
  ⟨⟨(start mini).setAgenda [.host .resumeFramer], _, nofun, rfl, by decide +kernel⟩,
    ⟨(start mini).setAgenda [.host .resumeDecoder], _, nofun, rfl, by decide +kernel⟩⟩

/-- For DecoderReadsNeitherStatusNorPolarity and DecFrameIsItsPipeline. -/
theorem witness_DecoderReadsNeitherStatusNorPolarity : (∃ t, exec .decFrame bothEnabled = .next t) ∧
    bothEnabled.q.items = [⟨sentFrame, false⟩] ∧ bothEnabled.dc.stage = .running :=
  ⟨next_of_after (by decide +kernel), by decide +kernel, by decide +kernel⟩

/-- For DecFrameIsItsPipeline. -/
theorem witness_DecFrameIsItsPipeline : ∃ (s : State) (f : QFrame) (rest : List QFrame), s.work = none ∧
    s.dc.stage = .running ∧ s.q.items = f :: rest ∧ 0 < s.cfg.sfOverhead :=
  ⟨bothEnabled, ⟨sentFrame, false⟩, [], by decide +kernel⟩

/-- For DecFrameDeliversOneRecord. -/
theorem witness_DecFrameDeliversOneRecord : Inv bothEnabled ∧ bothEnabled.cfg.layoutOk = true ∧
    bothEnabled.dc.stage = .running ∧ bothEnabled.q.items = ⟨sentFrame, false⟩ :: [] :=
  ⟨{ cfgOk := by decide +kernel
     framer := ⟨by decide +kernel, by decide +kernel, by decide +kernel, by decide +kernel, by decide +kernel⟩
     link := ⟨by decide +kernel, by decide +kernel⟩
     decoder := ⟨by decide +kernel, by decide +kernel, by decide +kernel, by decide +kernel, by decide +kernel, by decide +kernel, by decide +kernel⟩
     noWork := by decide +kernel }, by decide +kernel, by decide +kernel, by decide +kernel⟩

/-- For DescrambleResult. -/
theorem witness_DescrambleResult : ∃ (s : State) (w : Work) (v p : Byte), s.work = some w ∧
    w.frm[59]? = some v ∧ 0 < s.cfg.prnPeriod ∧ s.cfg.prn.toList[59 % s.cfg.prnPeriod]? = some p :=
  ⟨decoding mini (zeros mini) .descramble, { startWork mini (zeros mini) with stage := .descramble }, 0, 0xAE, rfl,
    by decide +kernel⟩

/-- For BytesAreAField and AlphaIsPrimitive. -/
theorem witness_BytesAreAField : full.gfPoly = 0x11D := by decide +kernel

/-- For AlphaIsPrimitive. -/
theorem witness_AlphaIsPrimitive : Cfg.rs41.gfPoly = 0x11D := by decide +kernel

/-- For EncoderWritesCodewords. -/
theorem witness_EncoderWritesCodewords : (List.replicate 231 (0x0F : Byte)).length = 231 := by decide +kernel

/-- The working state of a frame of zeros under the small configuration. -/
def zeroWork : Work := { startWork mini (zeros mini) with stage := .fec, cw := List.replicate 255 0, r := [] }

/-- The zero frame fits its configuration: for the statements about the frame. -/
theorem zeroWork_fits : FrameFits mini zeroWork := ⟨by decide +kernel, by decide +kernel, by decide +kernel⟩

/-- For DeinterleaveResult: the last block. -/
theorem witness_DeinterleaveResult : ∃ (s : State) (w : Work) (b : Nat), s.work = some w ∧ FrameFits s.cfg w ∧
    b < s.cfg.rsIlv ∧ w.msgLen = s.cfg.msgLen w.extPre :=
  ⟨(start mini).setWork (some zeroWork), zeroWork, 1, rfl, zeroWork_fits, by decide +kernel, by decide +kernel⟩

/-- For RsCorrectResult: a word that is corrected, and one that is not. -/
theorem witness_RsCorrectResult :
    (∃ cw, rsCorrect mini 15 (List.replicate 255 0) = some cw) ∧
    rsCorrect mini 15 [] = some [] ∧
    (∃ (s : State) (w : Work), s.work = some w ∧ rsCorrect s.cfg w.msgLen w.r = none) :=
  ⟨⟨List.replicate 255 0, by decide +kernel⟩, by decide +kernel,
    ⟨(start mini).setWork (some { zeroWork with r := [1, 1, 1, 1] }), { zeroWork with r := [1, 1, 1, 1] }, rfl,
      by decide +kernel⟩⟩

/-- For RsCorrectResult: a code with a double root, and a received word that fails under it. -/
theorem witness_RsCorrectResult_not_regular : ∃ (c : Cfg) (r : List Byte),
    rsRegular c (errorBound c 0 r) = false ∧ rsCorrect c 0 r = none :=
  ⟨{ full with rsPrim := 0, rsT := 1, rsNroots := 2, rsK := 253 }, [5, 1], by decide +kernel, by decide +kernel⟩

/-- For CorrectorFindsTheNearestCodeword: a received word that is no codeword, one symbol away from one. -/
theorem witness_CorrectorFindsTheNearestCodeword : ∃ (k : Nat) (r cw : List Byte), r.length = 255 ∧ k ≤ 231 ∧
    cw.length = 255 ∧ isCodeword Cfg.rs41 cw = true ∧ isCodeword Cfg.rs41 r = false ∧ hamming cw r = 1 ∧
    cw.all (fun x => x == 0) = true :=
  ⟨132, (List.replicate 255 0).set 155 0x5A, List.replicate 255 0, by decide +kernel⟩

/-- For ReinterleaveResult: after a success and after a failure. -/
theorem witness_ReinterleaveResult : ∃ (s : State) (w : Work) (b : Nat), s.work = some w ∧ FrameFits s.cfg w ∧
    b < s.cfg.rsIlv ∧ w.msgLen = s.cfg.msgLen w.extPre ∧ w.cw.length = s.cfg.rsN ∧
    (blockPositions s.cfg w.msgLen b).Nodup ∧ w.ok = true :=
  ⟨(start mini).setWork (some { zeroWork with ok := true }), { zeroWork with ok := true }, 1, rfl,
    ⟨by decide +kernel, by decide +kernel, by decide +kernel⟩, by decide +kernel, by decide +kernel, by decide +kernel, by decide +kernel, by decide +kernel⟩

/-- For FecStageResult: the zero frame, both blocks. -/
theorem witness_FecStageResult : ∃ (s : State) (w : Work), s.work = some w ∧ FrameFits s.cfg w ∧
    s.dc.rsOk.length = s.cfg.rsIlv ∧
    ((List.range s.cfg.rsIlv).flatMap (blockPositions s.cfg (s.cfg.msgLen (extendedFrame s.cfg w.frm)))).Nodup ∧
    ∃ cw, rsCorrect s.cfg (s.cfg.msgLen (extendedFrame s.cfg w.frm))
      (gathered s.cfg (s.cfg.msgLen (extendedFrame s.cfg w.frm)) 1 w.frm) = some cw :=
  ⟨(start mini).setWork (some zeroWork), zeroWork, rfl, zeroWork_fits, by decide +kernel, by decide +kernel,
    ⟨List.replicate 255 0, by decide +kernel⟩⟩

/-- For FecStageResult: a block that fails. -/
theorem witness_FecStageResult_failure :
    rsCorrect mini 15 (gathered mini 15 0 ([0, 0, 1, 1, 1, 1] ++ List.replicate 54 0)) = none := by decide +kernel

/-- For TwelveErrorsAreCorrected: the zero frame, received with twelve changed positions of block 0. -/
theorem witness_TwelveErrorsAreCorrected : ∃ (s : State) (w : Work) (sent : List Byte), s.cfg = Cfg.rs41 ∧
    s.work = some w ∧ w.frm.length = 518 ∧ sent.length = 518 ∧ s.dc.rsOk.length = 2 ∧
    extendedFrame s.cfg w.frm = extendedFrame s.cfg sent ∧
    isCodeword s.cfg (gathered s.cfg (s.cfg.msgLen (extendedFrame s.cfg sent)) 0 sent) = true ∧
    differAt (blockPositions s.cfg (s.cfg.msgLen (extendedFrame s.cfg sent)) 0) w.frm sent = 12 :=
  ⟨decoding Cfg.rs41 (List.replicate 8 0 ++ List.replicate 12 1 ++ List.replicate 498 0) .fec,
    { startWork Cfg.rs41 (List.replicate 8 0 ++ List.replicate 12 1 ++ List.replicate 498 0) with stage := .fec },
    List.replicate 518 0, rfl, rfl, by decide +kernel, by decide +kernel, by decide +kernel, by decide +kernel,
    by decide +kernel, by decide +kernel⟩

/-- For CrcOperationsResult: the last bytes of the region. -/
theorem witness_CrcOperationsResult : ∃ (s : State) (w : Work) (o len : Nat), s.work = some w ∧
    RegionFits s.cfg w ∧ len ≤ 255 ∧ o + len + 4 = w.regionLen :=
  ⟨(start mini).setWork (some zeroWork), zeroWork, 24, 2, rfl, show 41 ≤ 60 by decide +kernel, by decide +kernel, by decide +kernel⟩

/-- For SingleBitErrorsAreDetected. -/
theorem witness_SingleBitErrorsAreDetected :
    full.crcPoly.getLsbD 0 = true ∧ crcGate full [0x41] 0xB915 = true := by decide +kernel

/-- For ModeAndFrameTypeResults: before correction, and at the mode. -/
theorem witness_ModeAndFrameTypeResults :
    (∃ (s : State) (w : Work), s.work = some w ∧ (w.stage = .descramble ∨ w.stage = .fec)) ∧
    (∃ (s : State) (w : Work), s.work = some w ∧ s.cfg.ftypeOff < w.frm.length ∧
      ¬(w.stage = .descramble ∨ w.stage = .fec)) :=
  ⟨⟨(start mini).setWork (some zeroWork), zeroWork, rfl, by decide +kernel⟩,
    ⟨(start mini).setWork (some { zeroWork with stage := .mode }), { zeroWork with stage := .mode }, rfl, by decide +kernel,
      by decide +kernel⟩⟩

/-- For WalkResult. -/
theorem witness_WalkResult : ∃ (s : State) (w : Work), s.work = some w ∧ FrameFits s.cfg w ∧ RegionFits s.cfg w :=
  ⟨(start mini).setWork (some zeroWork), zeroWork, rfl, zeroWork_fits, show 41 ≤ 60 by decide +kernel⟩

/-- For StatusSubframeResult: a payload of exactly the minimum length, with the last fragment number. -/
theorem witness_StatusSubframeResult : ∃ (s : State) (w : Work) (payload : List Byte) (crc : Half),
    s.work = some w ∧ s.cfg.decoderOk = true ∧ s.cfg.layoutOk = true ∧ s.dc.cal.wf = true ∧
    crcGate s.cfg payload crc = true ∧ s.cfg.statusMinLen = payload.length ∧ (payload.getD s.cfg.statusFragSeqOff 0).toNat = 49 :=
  ⟨decoding full [] .walk, { startWork full [] with stage := .walk }, statusExample, 0x1E18, rfl, by decide +kernel,
    by decide +kernel, by decide +kernel, by decide +kernel, by decide +kernel, by decide +kernel⟩

/-- For GpsSubframeResult: a payload of exactly the minimum length. -/
theorem witness_GpsSubframeResult : ∃ (s : State) (w : Work) (payload : List Byte) (crc : Half),
    s.work = some w ∧ s.cfg.decoderOk = true ∧ s.cfg.layoutOk = true ∧ crcGate s.cfg payload crc = true ∧
    s.cfg.gpsposMinLen = payload.length :=
  ⟨decoding full [] .walk, { startWork full [] with stage := .walk }, gpsExample, 0x4FA7, rfl, by decide +kernel,
    by decide +kernel, by decide +kernel, by decide +kernel⟩

/-- For SubframesThatOnlyMoveTheOffset: one byte short of each minimum, and a CRC that fails. -/
theorem witness_SubframesThatOnlyMoveTheOffset :
    (∃ (s : State) (w : Work), s.work = some w ∧ (List.replicate 39 (0 : Byte)).length < s.cfg.statusMinLen ∧
      (List.replicate 17 (0 : Byte)).length < s.cfg.gpsposMinLen ∧ crcGate s.cfg [0xAA, 0xBB] 0 = false) :=
  ⟨decoding full [] .walk, { startWork full [] with stage := .walk }, rfl, by decide +kernel⟩

/-- For CalMergeResult and CalMergeOrderDoesNotMatter: the last fragment, and the first number outside. -/
theorem witness_CalMergeResult : ∃ (s : State) (data : List Byte), s.cfg.decoderOk = true ∧
    s.dc.cal.wf = true ∧ data.length = s.cfg.calFragSize ∧ s.cfg.calFragCount ≤ (51 : Byte).toNat ∧
    (50 : Byte).toNat < s.cfg.calFragCount :=
  ⟨start full, List.replicate 16 0, by decide +kernel⟩

/-- For CalMergeOrderDoesNotMatter. -/
theorem witness_CalMergeOrderDoesNotMatter : ∃ (s m : State) (data : List Byte), s.cfg.decoderOk = true ∧
    s.dc.cal.wf = true ∧ data.length = s.cfg.calFragSize ∧ exec (.calMerge 0 data) s = .next m ∧
    (0 : Byte) ≠ 50 :=
  ⟨start full, _, List.replicate 16 1, by decide +kernel, by decide +kernel, by decide +kernel, rfl, by decide +kernel⟩

/-- For CheckBurstkillDeliverResults. -/
theorem witness_CheckBurstkillDeliverResults : ∃ (s : State) (w : Work), s.work = some w ∧
    s.cfg.bkCalOffset + 2 ≤ s.cfg.calLen :=
  ⟨decoding full [] .deliver, { startWork full [] with stage := .deliver }, rfl, by decide +kernel⟩

/-- For HostOperationResults: both stages stopped. -/
theorem witness_HostOperationResults : ∃ s : State, s.fr.stage = .stopped ∧ s.dc.stage = .stopped ∧
    s.cfg.decoderOk = true :=
  ⟨start full, by decide +kernel⟩

/-- For RefusedAndDisabledOperationsChangeNothing: each refusal's condition. -/
theorem witness_RefusedAndDisabledOperationsChangeNothing :
    (∃ s : State, s.fr.stage = .running ∧ s.dc.stage = .running) ∧ (∃ s : State, s.cfg.decoderOk = false) ∧
    { tiny with syncLen := 0 }.framerOk = false ∧
    (∃ s : State, framerStep s ≠ some .frPull ∧ s.q.items = [] ∧ s.dc.stage = .stopped) :=
  ⟨⟨bothEnabled, by decide +kernel⟩, ⟨start tiny, by decide +kernel⟩, by decide +kernel, ⟨start tiny, by decide +kernel⟩⟩

/-- For StepRunsTheDecodedInstruction: a subframe at the fetch, a frame-type byte at the fetch. -/
theorem witness_StepRunsTheDecodedInstruction :
    (∃ (s : State) (w : Work), s.work = some w ∧ w.stage = .walk ∧ RegionFits s.cfg w ∧
      decode s.cfg ((w.frm.drop s.cfg.dataOff).take w.regionLen |>.drop w.off) =
        .ok (.sfUnknown 0 [] 0, List.replicate 26 0)) ∧
    (∃ (s : State) (w : Work), s.work = some w ∧ w.stage = .mode ∧ w.frm[s.cfg.ftypeOff]? = some 0) :=
  ⟨⟨decoding mini (zeros mini) .walk, { startWork mini (zeros mini) with stage := .walk }, rfl, rfl,
      show 41 ≤ 60 by decide +kernel, by decide +kernel⟩,
    ⟨decoding mini (zeros mini) .mode, { startWork mini (zeros mini) with stage := .mode }, rfl, rfl, by decide +kernel⟩⟩

/-- For StepRunsTheDecodedInstruction: each line of a decode, and the walk's three ends: no header, a subframe beyond the
region, and with an overhead of 3 a CRC beyond it. -/
theorem witness_StepRunsTheDecodedInstruction_ends :
    (∀ stage : Stage, (decoding mini (zeros mini) stage).work = some { startWork mini (zeros mini) with stage := stage }) ∧
    (let w : Work := { startWork mini (zeros mini) with stage := .walk }
     RegionFits mini w ∧ w.regionLen = 30 ∧
      decode mini (((w.frm.drop 11).take 30).drop 29) = .error .noHeader ∧
      decode mini (((w.frm.drop 11).take 30).drop 28) = .error .beyondRegion ∧
      decode { mini with sfOverhead := 3 } (((w.frm.drop 11).take 30).drop 27) = .error .noCrc) :=
  ⟨fun _ => rfl, show 41 ≤ 60 by decide +kernel, by decide +kernel, by decide +kernel, by decide +kernel,
    by decide +kernel⟩

/-- For StepRunsTheDecodedInstruction: the events, with each agent enabled. -/
theorem witness_StepRunsTheDecodedInstruction_events :
    (bothEnabled.setAgenda [.framer]).work = none ∧ framerStep (bothEnabled.setAgenda [.framer]) = some .frPull ∧
    decFrameEnabled (bothEnabled.setAgenda [.run]) = true ∧
    framerStep ((start mini).setAgenda [.run]) = none ∧ decFrameEnabled ((start mini).setAgenda [.run]) = false := by
  decide +kernel

end Sys2Proof.Machine.Tests
end

section
/-! PROOFS. What the shared operations of the Framer, the Decoder and the host leave: the correlation's offset, the
length of a packed frame, the calibration merge, and one inversion lemma for each host operation with a
precondition. -/

namespace Sys2Proof.Machine

/-! The Framer's search and packing. -/

/-- One turn of the search keeps the offset found so far or takes the present one. -/
theorem corrTurn_off (n d o : Nat) (b : Best) : (corrTurn n d o b).off = b.off ∨ (corrTurn n d o b).off = o := by
  simp only [corrTurn]
  split <;> split <;> simp

/-- The search never leaves the offsets it looks at, nor the one it began with. -/
theorem corrLoop_off_le {c : Cfg} {m : Nat} (count o : Nat) (w : Bits) (b : Best) (hb : b.off ≤ m)
    (ho : o + count ≤ m + 1) : (corrLoop c count o w b).off ≤ m := by
  induction count generalizing o w b with
  | zero => exact hb
  | succ count ih =>
    refine ih _ _ _ ?_ (by omega)
    obtain h | h := corrTurn_off c.syncBits (directDistance c (w.take c.syncBits)) o b <;> omega

/-- The correlation's offset leaves room for the sync pattern in the frame (40_framer.md R104, R110). -/
theorem corr_off_le (c : Cfg) (w : Bits) : (corr c w).1 ≤ c.frameBits - c.syncBits := by
  unfold corr
  split
  · exact Nat.zero_le _
  · exact corrLoop_off_le _ _ _ _ (Nat.zero_le _) (by omega)

/-- Packing makes one byte of each eight bits and drops fewer than eight at the end (40_framer.md R109). -/
theorem pack_length : ∀ b : Bits, (pack b).length = b.length / 8
  | _ :: _ :: _ :: _ :: _ :: _ :: _ :: _ :: rest => by
    simp only [pack, List.length_cons, pack_length rest]
    omega
  | [] | [_] | [_, _] | [_, _, _] | [_, _, _, _] | [_, _, _, _, _] | [_, _, _, _, _, _] | [_, _, _, _, _, _, _] => by
    simp [pack]

/-- A ready frame is extracted at its whole length (40_framer.md R109). -/
theorem extractFrame_length {c : Cfg} {fr : Framer} (h : frameReady c fr = true) :
    (extractFrame c fr).length = c.frameLen := by
  obtain ⟨-, hcur⟩ := (frameReady_iff c fr).1 h
  simp only [Framer.cur, Cfg.frameBits] at hcur
  simp only [extractFrame, pack_length, List.length_take, List.length_drop, Cfg.frameBits]
  omega

/-- The Framer needs a byte in READ below a frame's length. -/
theorem need_read {c : Cfg} {fr : Framer} (h : need c fr = true) (hp : fr.phase = .read) : fr.cur < c.frameBits := by
  simpa [need, hp] using h

/-- The Framer needs a byte in DEOFFSET below the end of the frame at the sync offset. -/
theorem need_deoffset {c : Cfg} {fr : Framer} (h : need c fr = true) (hp : fr.phase = .deoffset) :
    fr.cur < fr.syncOff + c.frameBits := by
  simpa [need, hp] using h

/-! The calibration accumulator. -/

@[simp] theorem calCompleteCheck_stage (dc : Decoder) : (calCompleteCheck dc).stage = dc.stage := by
  unfold calCompleteCheck; split <;> rfl

@[simp] theorem calCompleteCheck_cal (dc : Decoder) : (calCompleteCheck dc).cal = dc.cal := by
  unfold calCompleteCheck; split <;> rfl

@[simp] theorem calCompleteCheck_bitmap (dc : Decoder) : (calCompleteCheck dc).bitmap = dc.bitmap := by
  unfold calCompleteCheck; split <;> rfl

@[simp] theorem calCompleteCheck_rsOk (dc : Decoder) : (calCompleteCheck dc).rsOk = dc.rsOk := by
  unfold calCompleteCheck; split <;> rfl

/-- The flag is sticky, and set by a clear bitmap (44_subframe_parser.md R179). -/
@[simp] theorem calCompleteCheck_calibrated (dc : Decoder) :
    (calCompleteCheck dc).calibrated = (dc.calibrated || bitmapClear dc.bitmap) := by
  unfold calCompleteCheck
  split <;> simp [*]

/-- A clear bitmap stays clear when a bit of it is cleared. -/
theorem bitmapClear_set_false {bitmap : List Bool} (k : Nat) (h : bitmapClear bitmap = true) :
    bitmapClear (bitmap.set k false) = true := by
  simp only [bitmapClear, List.all_eq_true, Bool.not_eq_true'] at h ⊢
  intro b hb
  obtain hb | rfl := List.mem_or_eq_of_mem_set hb
  · exact h b hb
  · rfl

/-- A bitmap of at least one bit that are all 1 is not clear. -/
theorem bitmapClear_replicate_true {n : Nat} (h : 0 < n) : bitmapClear (List.replicate n true) = false := by
  simp [bitmapClear, h.ne']

/-- A subframe touches the Decoder's state by a merge or not at all (44_subframe_parser.md R176, R177). -/
theorem actOf_dc {k : SubKind} {c : Cfg} {payload : List Byte} {p q : Pipe} (h : actOf k c payload p = .ok q) :
    q.dc = p.dc ∨ ∃ n data, calMerge c n data p.dc = .ok q.dc := by
  cases k with
  | status =>
    simp only [actOf, statusAct] at h
    split at h
    · cases h
      exact .inl rfl
    · obtain ⟨n, -, h⟩ := (bind_ok_iff _ _ _).1 h
      obtain ⟨data, -, h⟩ := (bind_ok_iff _ _ _).1 h
      obtain ⟨dc, hdc, h⟩ := (bind_ok_iff _ _ _).1 h
      obtain ⟨_, -, h⟩ := (bind_ok_iff _ _ _).1 h
      obtain ⟨_, -, h⟩ := (bind_ok_iff _ _ _).1 h
      obtain ⟨_, -, h⟩ := (bind_ok_iff _ _ _).1 h
      cases h
      exact .inr ⟨n, data, hdc⟩
  | gpspos =>
    simp only [actOf, gpsposAct] at h
    split at h
    · cases h
      exact .inl rfl
    · obtain ⟨_, -, h⟩ := (bind_ok_iff _ _ _).1 h
      obtain ⟨_, -, h⟩ := (bind_ok_iff _ _ _).1 h
      obtain ⟨_, -, h⟩ := (bind_ok_iff _ _ _).1 h
      obtain ⟨_, -, h⟩ := (bind_ok_iff _ _ _).1 h
      obtain ⟨_, -, h⟩ := (bind_ok_iff _ _ _).1 h
      obtain ⟨_, -, h⟩ := (bind_ok_iff _ _ _).1 h
      cases h
      exact .inl rfl
  | ptu | gpsinfo | gpsraw | xdata | empty | unknown =>
    cases h
    exact .inl rfl

/-! The host operations that have a precondition (45_stage_control.md R205, R206, 70_reset_and_hazards.md R250). -/

/-- Everything RESET can do: it is refused, or it resets the block. -/
theorem execReset_next {cfg : Cfg} {s t : State} (h : execReset cfg s = .next t) :
    (cfg.framerOk = false ∧ t = s) ∨ (cfg.framerOk = true ∧ t = State.resetWith cfg s.agenda s.draws) := by
  unfold execReset at h
  split at h
  · cases h
    exact .inr ⟨‹_›, rfl⟩
  · cases h
    exact .inl ⟨Bool.eq_false_of_not_eq_true ‹_›, rfl⟩

/-- Everything REBIND FRAMER can do: it is refused, or it discards the input. -/
theorem execRebindFramer_next {s t : State} (h : execRebindFramer s = .next t) :
    (s.fr.stage ≠ .stopped ∧ t = s) ∨ (s.fr.stage = .stopped ∧ t = s.setInp []) := by
  unfold execRebindFramer at h
  split at h
  · cases h
    exact .inr ⟨‹_›, rfl⟩
  · cases h
    exact .inl ⟨‹_›, rfl⟩

/-- Everything RESUME FRAMER can do: it is refused, or the Framer runs again. -/
theorem execResumeFramer_next {s t : State} (h : execResumeFramer s = .next t) :
    (s.fr.stage ≠ .stopped ∧ t = s) ∨ (s.fr.stage = .stopped ∧ t = returnFromError s) := by
  unfold execResumeFramer at h
  split at h
  · cases h
    exact .inr ⟨‹_›, rfl⟩
  · cases h
    exact .inl ⟨‹_›, rfl⟩

/-- Everything RESUME DECODER can do: it is refused, or the Decoder runs again under the decoder group. -/
theorem execResumeDecoder_next {s t : State} (h : execResumeDecoder s = .next t) :
    (¬(s.dc.stage = .stopped ∧ s.cfg.decoderOk = true) ∧ t = s) ∨
      (s.dc.stage = .stopped ∧ s.cfg.decoderOk = true ∧ t = s.setDc { s.dc with stage := .running }) := by
  unfold execResumeDecoder at h
  split at h
  · rename_i hpre
    cases h
    exact .inr ⟨hpre.1, hpre.2, rfl⟩
  · cases h
    exact .inl ⟨‹_›, rfl⟩

/-! The Framer's five steps (40_framer.md R100). -/

/-- The five steps by name. -/
theorem mem_framerSteps (i : Instr) :
    i ∈ framerSteps ↔
      i = .frPull ∨ i = .frReadFail ∨ i = .frCorrelate ∨ i = .frEmit ∨ i = .frPublishFail := by
  simp [framerSteps]

/-- The Framer's enabled step is one of the five. -/
theorem framerStep_mem {s : State} {i : Instr} (h : framerStep s = some i) : i ∈ framerSteps :=
  (mem_framerSteps i).2 <|
    (framerStep_cases h).imp And.left <| Or.imp And.left <| Or.imp And.left <| Or.imp And.left And.left

end Sys2Proof.Machine
end

section
/-! PROOFS. The invariant of the block is kept by every step (InvariantKeptByStep): each part's invariant is kept by
the operations on that part, a state's by the replacement of a part, and a step is made of those. -/

namespace Sys2Proof.Machine

/-! The Framer's invariant. -/

/-- The reset working state, which is also the one after an error entry or a quiesce. -/
theorem FramerInv.reset (c : Cfg) : FramerInv c Framer.reset where
  stoppedReset _ := rfl
  readBound _ := Nat.zero_le _
  deoffsetLow := nofun
  deoffsetHigh := nofun
  syncOffBound := Nat.zero_le _

/-- A byte more where one is needed: the Framer is at most seven bits beyond what it waited for (40_framer.md
R101). -/
theorem FramerInv.pull {c : Cfg} {fr : Framer} (h : FramerInv c fr) (hs : fr.stage = .running)
    (hn : need c fr = true) (v : Byte) : FramerInv c { fr with buf := fr.buf ++ bitsOf v } := by
  have hlen : (fr.buf ++ bitsOf v).length = fr.cur + 8 := by simp [Framer.cur, bitsOf]
  exact
    { stoppedReset := fun hstop => absurd (hs.symm.trans hstop) (by decide)
      readBound := fun hp => by
        have := need_read hn hp
        simp only [Framer.cur, hlen] at this ⊢
        omega
      deoffsetLow := fun hp => by
        have := h.deoffsetLow hp
        simp only [Framer.cur, hlen] at this ⊢
        omega
      deoffsetHigh := fun hp => by
        have := need_deoffset hn hp
        simp only [Framer.cur, hlen] at this ⊢
        omega
      syncOffBound := h.syncOffBound }

/-- The correlation's result taken over the bits of READ (40_framer.md R103). -/
theorem FramerInv.correlate {c : Cfg} {fr : Framer} (h : FramerInv c fr) (hs : fr.stage = .running)
    (hp : fr.phase = .read) (hcur : c.frameBits ≤ fr.cur) (w : Bits) :
    FramerInv c { fr with syncOff := (corr c w).1, inv := (corr c w).2, phase := .deoffset } where
  stoppedReset hstop := absurd (hs.symm.trans hstop) (by decide)
  readBound := nofun
  deoffsetLow _ := hcur
  deoffsetHigh _ := by
    have : fr.cur ≤ c.frameBits + 7 := h.readBound hp
    simp only [Framer.cur] at this ⊢
    omega
  syncOffBound := corr_off_le c w

/-- The leftover bits after a frame: at most seven (40_framer.md R110). -/
theorem FramerInv.emit {c : Cfg} {fr : Framer} (h : FramerInv c fr) (hs : fr.stage = .running)
    (hr : frameReady c fr = true) :
    FramerInv c { fr with buf := fr.buf.drop (fr.syncOff + c.frameBits), phase := .read } where
  stoppedReset hstop := absurd (hs.symm.trans hstop) (by decide)
  readBound _ := by
    have := h.deoffsetHigh ((frameReady_iff c fr).1 hr).1
    simp only [Framer.cur, List.length_drop] at this ⊢
    omega
  deoffsetLow := nofun
  deoffsetHigh := nofun
  syncOffBound := h.syncOffBound

/-- Running again from the current working state (45_stage_control.md R206). -/
theorem FramerInv.run {c : Cfg} {fr : Framer} (h : FramerInv c fr) : FramerInv c { fr with stage := .running } where
  stoppedReset := nofun
  readBound := h.readBound
  deoffsetLow := h.deoffsetLow
  deoffsetHigh := h.deoffsetHigh
  syncOffBound := h.syncOffBound

/-! The link's invariant. -/

/-- A frame of full length published where there is room. -/
theorem LinkInv.publish {c : Cfg} {q : Link} (h : LinkInv c q) {frame : List Byte} (inv : Bool)
    (hroom : q.items.length < c.fifoDepth) (hlen : frame.length = c.frameLen) :
    LinkInv c (publish q frame inv) where
  depth := by simpa [Machine.publish] using hroom
  frames f hf := by
    obtain hf | rfl : f ∈ q.items ∨ f = ⟨frame, inv⟩ := by simpa [Machine.publish] using hf
    · exact h.frames f hf
    · exact hlen

/-- The head of Q consumed. -/
theorem LinkInv.pop {c : Cfg} {q : Link} (h : LinkInv c q) {f : QFrame} {rest : List QFrame}
    (hq : q.items = f :: rest) : LinkInv c { q with items := rest } where
  depth := by
    have := h.depth
    simp only [hq, List.length_cons] at this
    exact Nat.le_of_succ_le this
  frames g hg := h.frames g (hq ▸ List.mem_cons_of_mem f hg)

/-- Closing and reopening the output leave the frames alone. -/
theorem LinkInv.setClosed {c : Cfg} {q : Link} (h : LinkInv c q) (closed : Bool) :
    LinkInv c { q with closed := closed } := ⟨h.depth, h.frames⟩

/-! The Decoder's invariant. -/

/-- The Decoder after reset. -/
theorem DecoderInv.reset (c : Cfg) : DecoderInv c (Decoder.reset c) where
  calWf := rfl
  calBelow := rfl
  bitmapLength := List.length_replicate
  rsOkLength := List.length_replicate
  calibratedClear := nofun
  clearCalibrated hpos hclear := by
    rw [show bitmapClear (Decoder.reset c).bitmap = false from bitmapClear_replicate_true hpos] at hclear
    cases hclear
  runningOk := nofun

/-- Another run status, where the decoder group allows it (45_stage_control.md R204, R206). -/
theorem DecoderInv.setStage {c : Cfg} {dc : Decoder} (h : DecoderInv c dc) {stage : RunStatus}
    (hs : stage = .running → c.decoderOk = true) : DecoderInv c { dc with stage := stage } :=
  ⟨h.calWf, h.calBelow, h.bitmapLength, h.rsOkLength, h.calibratedClear, h.clearCalibrated, hs⟩

/-- The status of a block recorded (42_reed_solomon.md R150). -/
theorem DecoderInv.setRsOk {c : Cfg} {dc : Decoder} (h : DecoderInv c dc) (b : Nat) (ok : Bool) :
    DecoderInv c (setRsOk dc b ok) :=
  ⟨h.calWf, h.calBelow, h.bitmapLength, List.length_set.trans h.rsOkLength, h.calibratedClear, h.clearCalibrated,
    h.runningOk⟩

/-- A merge keeps the block canonical and within its length, and the flag exactly a clear bitmap
(44_subframe_parser.md R178, R179). -/
theorem DecoderInv.merge {c : Cfg} {dc dc' : Decoder} {k : Byte} {data : List Byte} (h : DecoderInv c dc)
    (hm : calMerge c k data dc = .ok dc') : DecoderInv c dc' := by
  obtain ⟨-, rfl⟩ | ⟨-, hfit, rfl⟩ := calMerge_cases hm
  · exact h
  · exact
      { calWf := by simpa using Memory.setRange_wf _ _ _ h.calWf
        calBelow := by simpa using Memory.setRange_below hfit h.calBelow
        bitmapLength := by simpa using h.bitmapLength
        rsOkLength := by simpa using h.rsOkLength
        calibratedClear := fun hcal => by
          simp only [calCompleteCheck_calibrated, calCompleteCheck_bitmap, Bool.or_eq_true] at hcal ⊢
          exact hcal.elim (fun hold => bitmapClear_set_false _ (h.calibratedClear hold)) id
        clearCalibrated := fun _ hclear => by
          simp only [calCompleteCheck_calibrated, calCompleteCheck_bitmap, Bool.or_eq_true] at hclear ⊢
          exact .inr hclear
        runningOk := by simpa using h.runningOk }

/-! The pipeline of a frame decode keeps the Decoder's invariant. -/

/-- One block of the FEC stage. -/
theorem DecoderInv.fecBlock {c : Cfg} {p p' : Pipe} {b : Nat} (h : DecoderInv c p.dc) (hp : fecBlock c p b = .ok p') :
    DecoderInv c p'.dc := by
  obtain ⟨r, -, ⟨cw, frm, -, -, rfl⟩ | ⟨frm, -, -, rfl⟩⟩ := fecBlock_cases hp
  · exact h.setRsOk b true
  · exact h.setRsOk b false

/-- The blocks of the FEC stage in order. -/
theorem DecoderInv.fecBlocks {c : Cfg} {bs : List Nat} {p p' : Pipe} (h : DecoderInv c p.dc)
    (hp : fecBlocks c bs p = .ok p') : DecoderInv c p'.dc := by
  induction bs generalizing p with
  | nil =>
    cases hp
    exact h
  | cons b bs ih =>
    obtain ⟨q, hq, hp⟩ := (bind_ok_iff _ _ _).1 hp
    exact ih (h.fecBlock hq) hp

/-- One turn of the walk. -/
theorem DecoderInv.subframeTurn {k : SubKind} {payload : List Byte} {crc : Half} {c : Cfg} {p p' : Pipe}
    (h : DecoderInv c p.dc) (hp : subframeTurn (actOf k) payload crc c p = .ok p') : DecoderInv c p'.dc := by
  obtain ⟨-, q, hq, rfl⟩ | ⟨-, rfl⟩ := subframeTurn_cases hp
  · obtain hdc | ⟨n, data, hm⟩ := actOf_dc hq
    · exact hdc ▸ h
    · exact h.merge hm
  · exact h

/-- The turns of the walk. -/
theorem DecoderInv.walkLoop {c : Cfg} {fuel : Nat} {p p' : Pipe} (h : DecoderInv c p.dc)
    (hp : walkLoop c fuel p = .ok p') : DecoderInv c p'.dc := by
  induction fuel generalizing p with
  | zero => cases hp
  | succ fuel ih =>
    obtain ⟨-, rfl⟩ | ⟨sf, q, -, hq, hp⟩ := walkLoop_succ_cases hp
    · exact h
    · exact ih (h.subframeTurn hq) hp

/-- The FEC stage: the mode read before it is no part of the Decoder's state. -/
theorem DecoderInv.fecStage {c : Cfg} {p p' : Pipe} (h : DecoderInv c p.dc) (hp : fecStageOp c p = .ok p') :
    DecoderInv c p'.dc := by
  obtain ⟨ext, -, hp⟩ := (bind_ok_iff _ _ _).1 hp
  obtain ⟨q, hq, hp⟩ := (bind_ok_iff _ _ _).1 hp
  have hblocks : DecoderInv c q.dc := DecoderInv.fecBlocks (p := { p with w := setModePre c ext p.w }) h hq
  cases hp
  exact hblocks

/-- The walk from offset 0. -/
theorem DecoderInv.walk {c : Cfg} {p p' : Pipe} (h : DecoderInv c p.dc) (hp : walkOp c p = .ok p') :
    DecoderInv c p'.dc := by
  obtain ⟨q, hq, hp⟩ := (bind_ok_iff _ _ _).1 hp
  have hturns : DecoderInv c q.dc := DecoderInv.walkLoop (p := { p with w := { p.w with off := 0 } }) h hq
  cases hp
  exact hturns

/-- The whole pipeline: of its four stages, only the FEC stage and the walk write the Decoder's state. -/
theorem DecoderInv.decodePipeline {c : Cfg} {p p' : Pipe} (h : DecoderInv c p.dc)
    (hp : decodePipeline c p = .ok p') : DecoderInv c p'.dc := by
  obtain ⟨p1, h1, hp⟩ := (bind_ok_iff _ _ _).1 hp
  obtain ⟨p2, h2, hp⟩ := (bind_ok_iff _ _ _).1 hp
  obtain ⟨p3, h3, hp⟩ := (bind_ok_iff _ _ _).1 hp
  have hdescrambled : DecoderInv c p1.dc := by
    cases h1
    exact h
  have hcorrected : DecoderInv c p2.dc := hdescrambled.fecStage h2
  have hmode : DecoderInv c p3.dc := by
    obtain ⟨ext, -, h3⟩ := (bind_ok_iff _ _ _).1 h3
    cases h3
    exact hcorrected
  exact hmode.walk hp

/-! The invariant of the block, part by part. -/

/-- `FR` replaced by one that meets its invariant. -/
theorem Inv.setFr {s : State} (h : Inv s) {fr : Framer} (hf : FramerInv s.cfg fr) : Inv (s.setFr fr) :=
  ⟨h.cfgOk, hf, h.link, h.decoder, h.noWork⟩

/-- `Q` replaced by one that meets its invariant. -/
theorem Inv.setQ {s : State} (h : Inv s) {q : Link} (hq : LinkInv s.cfg q) : Inv (s.setQ q) :=
  ⟨h.cfgOk, h.framer, hq, h.decoder, h.noWork⟩

/-- `DC` replaced by one that meets its invariant. -/
theorem Inv.setDc {s : State} (h : Inv s) {dc : Decoder} (hd : DecoderInv s.cfg dc) : Inv (s.setDc dc) :=
  ⟨h.cfgOk, h.framer, h.link, hd, h.noWork⟩

/-- The invariant does not speak of `IN`. -/
theorem Inv.setInp {s : State} (h : Inv s) (inp : List InItem) : Inv (s.setInp inp) :=
  ⟨h.cfgOk, h.framer, h.link, h.decoder, h.noWork⟩

/-- The invariant does not speak of `RECS`. -/
theorem Inv.setRecs {s : State} (h : Inv s) (recs : List (Record × HandlerCtx)) : Inv (s.setRecs recs) :=
  ⟨h.cfgOk, h.framer, h.link, h.decoder, h.noWork⟩

/-- The invariant does not speak of `FTRACE`. -/
theorem Inv.setFtrace {s : State} (h : Inv s) (ftrace : List Published) : Inv (s.setFtrace ftrace) :=
  ⟨h.cfgOk, h.framer, h.link, h.decoder, h.noWork⟩

/-- The invariant does not speak of `ERRS`. -/
theorem Inv.setErrs {s : State} (h : Inv s) (errs : List (Agent × ErrCode)) : Inv (s.setErrs errs) :=
  ⟨h.cfgOk, h.framer, h.link, h.decoder, h.noWork⟩

/-- The invariant does not speak of the agenda. -/
theorem Inv.setAgenda {s : State} (h : Inv s) (agenda : List Event) : Inv (s.setAgenda agenda) :=
  ⟨h.cfgOk, h.framer, h.link, h.decoder, h.noWork⟩

/-- The invariant does not speak of the counter of free values. -/
theorem Inv.setDraws {s : State} (h : Inv s) (draws : Nat) : Inv (s.setDraws draws) :=
  ⟨h.cfgOk, h.framer, h.link, h.decoder, h.noWork⟩

/-- The block right after RESET with a configuration that meets the framer group. -/
theorem Inv.resetWith {c : Cfg} (hc : c.framerOk = true) (agenda : List Event) (draws : Nat) :
    Inv (State.resetWith c agenda draws) :=
  ⟨hc, FramerInv.reset c, ⟨Nat.zero_le _, nofun⟩, DecoderInv.reset c, rfl⟩

/-- An error entry discards the Framer's working state (60_exceptions.md R222, R223). -/
theorem Inv.raiseError {s : State} (h : Inv s) (code : ErrCode) : Inv (raiseError code s) :=
  (h.setErrs _).setFr (FramerInv.reset _)

/-- The return from an error (45_stage_control.md R206). -/
theorem Inv.returnFromError {s : State} (h : Inv s) : Inv (returnFromError s) :=
  (h.setFr h.framer.run).setQ (h.link.setClosed false)

/-! The steps of the block. -/

/-- Each of the Framer's five steps. -/
theorem Inv.exec_framerSteps {i : Instr} {s t : State} (h : Inv s) (hi : i ∈ framerSteps)
    (ht : exec i s = .next t) : Inv t := by
  obtain rfl | rfl | rfl | rfl | rfl := (mem_framerSteps i).1 hi
  · obtain ⟨-, rfl⟩ | ⟨v, rest, hs, hn, -, rfl⟩ := execFrPull_next ht
    · exact h
    · exact (h.setInp rest).setFr (h.framer.pull hs hn v)
  · obtain ⟨-, rfl⟩ | ⟨rest, -, -, -, rfl⟩ := execFrReadFail_next ht
    · exact h
    · exact (h.setInp rest).raiseError _
  · obtain ⟨-, rfl⟩ | ⟨hs, hp, hcur, rfl⟩ := execFrCorrelate_next ht
    · exact h
    · exact h.setFr (h.framer.correlate hs hp hcur _)
  · obtain ⟨-, rfl⟩ | ⟨hs, hr, -, hroom, rfl⟩ := execFrEmit_next ht
    · exact h
    · have hq := h.link.publish s.fr.inv hroom (extractFrame_length hr)
      exact ((h.setQ hq).setFtrace _).setFr (h.framer.emit hs hr)
  · obtain ⟨-, rfl⟩ | ⟨-, -, -, rfl⟩ := execFrPublishFail_next ht
    · exact h
    · exact h.raiseError _

/-- The Decoder's one step DEC_FRAME. -/
theorem Inv.execDecFrame {s t : State} (h : Inv s) (ht : execDecFrame s = .next t) : Inv t := by
  obtain ⟨-, rfl⟩ | ⟨f, rest, p, -, hq, hp, rfl⟩ := execDecFrame_next ht
  · exact h
  · have hdc : DecoderInv s.cfg p.dc := h.decoder.decodePipeline hp
    exact (((h.setQ (h.link.pop hq)).setDc hdc).setDraws p.draws).setRecs _

/-- Each host operation. -/
theorem Inv.exec_hostOp {op : HostOp} {s t : State} (h : Inv s) (ht : exec op.toInstr s = .next t) : Inv t := by
  cases op with
  | reset cfg =>
    obtain ⟨-, rfl⟩ | ⟨hc, rfl⟩ := execReset_next ht
    · exact h
    · exact Inv.resetWith hc _ _
  | push bytes =>
    cases ht
    exact h.setInp _
  | pushEnd =>
    cases ht
    exact h.setInp _
  | closeOutput =>
    cases ht
    exact h.setQ (h.link.setClosed true)
  | quiesceFramer =>
    cases ht
    exact h.setFr (FramerInv.reset _)
  | quiesceDecoder =>
    cases ht
    exact h.setDc (h.decoder.setStage nofun)
  | rebindFramer =>
    obtain ⟨-, rfl⟩ | ⟨-, rfl⟩ := execRebindFramer_next ht
    · exact h
    · exact h.setInp _
  | resumeFramer =>
    obtain ⟨-, rfl⟩ | ⟨-, rfl⟩ := execResumeFramer_next ht
    · exact h
    · exact h.returnFromError
  | resumeDecoder =>
    obtain ⟨-, rfl⟩ | ⟨-, hok, rfl⟩ := execResumeDecoder_next ht
    · exact h
    · exact h.setDc (h.decoder.setStage fun _ => hok)

/-- The Framer's turn. -/
theorem Inv.framerTurn {s t : State} (h : Inv s) (ht : framerTurn s = .next t) : Inv t := by
  unfold Machine.framerTurn at ht
  split at ht
  · exact h.exec_framerSteps (framerStep_mem ‹_›) ht
  · cases ht
    exact h

/-- One turn of RUN. -/
theorem Inv.runTurn {rest : List Event} {s t : State} (h : Inv s) (ht : runTurn rest s = .next t) : Inv t := by
  obtain ⟨-, -, rfl⟩ | ⟨i, n, hi, ht⟩ | ⟨-, n, ht⟩ := runTurn_next ht
  · exact h.setAgenda rest
  · exact (h.setDraws n).exec_framerSteps (framerStep_mem hi) ht
  · exact (h.setDraws n).execDecFrame ht

/-- Settles O8: with no working state, a step is an event of the agenda, and each kind of event keeps the
invariant. -/
theorem invariantKeptByStep : Obligations.InvariantKeptByStep := by
  intro s t h ht
  obtain ⟨w, hw, -⟩ | ⟨-, hevent⟩ := step_next ht
  · cases h.noWork.symm.trans hw
  · obtain ⟨-, rfl⟩ | ⟨rest, -, ht⟩ | ⟨rest, -, ht⟩ | ⟨op, rest, -, ht⟩ | ⟨rest, -, ht⟩ := hevent
    · exact h
    · exact (h.setAgenda rest).framerTurn ht
    · exact (h.setAgenda rest).execDecFrame ht
    · exact (h.setAgenda rest).exec_hostOp ht
    · exact h.runTurn ht

end Sys2Proof.Machine
end

section
/-! PROOFS. Which operations write the configuration and the Decoder's state (OnlyDecoderAndResetWriteCalibration). -/

namespace Sys2Proof.Machine

/-- No pipeline operation writes the configuration. -/
theorem onPipe_cfg {f : Cfg → Pipe → Except Fault Pipe} {s t : State} (h : onPipe f s = .next t) :
    t.cfg = s.cfg := by
  obtain ⟨-, rfl⟩ | ⟨w, p, -, -, rfl⟩ := onPipe_next h <;> rfl

/-- The Framer's steps write neither the configuration nor the Decoder's state. -/
theorem exec_framerSteps_frame {i : Instr} {s t : State} (hi : i ∈ framerSteps) (h : exec i s = .next t) :
    t.cfg = s.cfg ∧ t.dc = s.dc := by
  obtain rfl | rfl | rfl | rfl | rfl := (mem_framerSteps i).1 hi
  · obtain ⟨-, rfl⟩ | ⟨v, rest, -, -, -, rfl⟩ := execFrPull_next h <;> exact ⟨rfl, rfl⟩
  · obtain ⟨-, rfl⟩ | ⟨rest, -, -, -, rfl⟩ := execFrReadFail_next h <;> exact ⟨rfl, rfl⟩
  · obtain ⟨-, rfl⟩ | ⟨-, -, -, rfl⟩ := execFrCorrelate_next h <;> exact ⟨rfl, rfl⟩
  · obtain ⟨-, rfl⟩ | ⟨-, -, -, -, rfl⟩ := execFrEmit_next h <;> exact ⟨rfl, rfl⟩
  · obtain ⟨-, rfl⟩ | ⟨-, -, -, rfl⟩ := execFrPublishFail_next h <;> exact ⟨rfl, rfl⟩

/-- The host operations other than RESET do not write the configuration, and of the Decoder's state at most the run
status (45_stage_control.md R204, R206). -/
theorem exec_hostOp_frame {op : HostOp} {s t : State} (hop : ∀ cfg, op ≠ .reset cfg)
    (h : exec op.toInstr s = .next t) :
    t.cfg = s.cfg ∧ ∃ stage, t.dc = { s.dc with stage := stage } := by
  cases op with
  | reset cfg => exact absurd rfl (hop cfg)
  | push | pushEnd | closeOutput | quiesceFramer | quiesceDecoder =>
    cases h
    exact ⟨rfl, _, rfl⟩
  | rebindFramer => obtain ⟨-, rfl⟩ | ⟨-, rfl⟩ := execRebindFramer_next h <;> exact ⟨rfl, _, rfl⟩
  | resumeFramer => obtain ⟨-, rfl⟩ | ⟨-, rfl⟩ := execResumeFramer_next h <;> exact ⟨rfl, _, rfl⟩
  | resumeDecoder => obtain ⟨-, rfl⟩ | ⟨-, -, rfl⟩ := execResumeDecoder_next h <;> exact ⟨rfl, _, rfl⟩

/-- DEC_FRAME does not write the configuration. -/
theorem execDecFrame_cfg {s t : State} (h : execDecFrame s = .next t) : t.cfg = s.cfg := by
  obtain ⟨-, rfl⟩ | ⟨f, rest, p, -, -, -, rfl⟩ := execDecFrame_next h <;> rfl

/-- CAL_MERGE does not write the configuration. -/
theorem execCalMerge_cfg {k : Byte} {data : List Byte} {s t : State} (h : execCalMerge k data s = .next t) :
    t.cfg = s.cfg := by
  unfold execCalMerge at h
  split at h <;> cases h
  rfl

/-- DELIVER_RECORD does not write the configuration. -/
theorem execDeliverRecord_cfg {s t : State} (h : execDeliverRecord s = .next t) : t.cfg = s.cfg := by
  unfold execDeliverRecord at h
  split at h <;> cases h <;> rfl

/-- No operation but RESET writes the configuration. -/
theorem exec_cfg {i : Instr} {s t : State} (h : exec i s = .next t) (hi : ∀ cfg, i ≠ .reset cfg) :
    t.cfg = s.cfg := by
  have framer (hmem : i ∈ framerSteps) : t.cfg = s.cfg := (exec_framerSteps_frame hmem h).1
  have host (op : HostOp) (hop : i = op.toInstr) : t.cfg = s.cfg :=
    (exec_hostOp_frame (fun cfg hr => hi cfg (hop.trans (congrArg HostOp.toInstr hr))) (hop ▸ h)).1
  cases i with
  | frPull | frReadFail | frCorrelate | frEmit | frPublishFail => exact framer (by decide)
  | reset cfg => exact absurd rfl (hi cfg)
  | push bytes => exact host (.push bytes) rfl
  | pushEnd => exact host .pushEnd rfl
  | closeOutput => exact host .closeOutput rfl
  | quiesceFramer => exact host .quiesceFramer rfl
  | quiesceDecoder => exact host .quiesceDecoder rfl
  | rebindFramer => exact host .rebindFramer rfl
  | resumeFramer => exact host .resumeFramer rfl
  | resumeDecoder => exact host .resumeDecoder rfl
  | decFrame => exact execDecFrame_cfg h
  | calMerge => exact execCalMerge_cfg h
  | calCompleteCheck =>
    cases h
    rfl
  | deliverRecord => exact execDeliverRecord_cfg h
  | ftExtended | ftNormal => exact onPipe_cfg (f := ftypeOp _) h
  | descramble => exact onPipe_cfg (f := descrambleOp) h
  | sfStatus | sfPtu | sfGpspos | sfGpsinfo | sfGpsraw | sfXdata | sfEmpty | sfUnknown | deinterleave | rsCorrect
  | reinterleave | fecStage | crc16 | crcOk | mode | walk | burstkill =>
    exact onPipe_cfg h

/-- Settles O27: by the kind of the operation; the host operations other than RESET leave all of the Decoder's state
but its run status. -/
theorem onlyDecoderAndResetWriteCalibration : Obligations.OnlyDecoderAndResetWriteCalibration := by
  refine ⟨fun i s t h hi => exec_cfg h hi, fun i s t h hi hkind => ?_⟩
  obtain hmem | ⟨op, rfl⟩ := hkind
  · rw [(exec_framerSteps_frame hmem h).2]
    exact ⟨rfl, rfl, rfl, rfl⟩
  · have hop : ∀ cfg, op ≠ .reset cfg := by
      rintro cfg rfl
      exact hi cfg rfl
    obtain ⟨-, stage, hdc⟩ := exec_hostOp_frame hop h
    rw [hdc]
    exact ⟨rfl, rfl, rfl, rfl⟩

end Sys2Proof.Machine
end

section
/-! PROOFS. One step of a frame decode as a pipeline operation, and the invariant at reset (InvariantAtReset). -/

namespace Sys2Proof.Machine

/-- Settles O7: the reset state is that of RESET with the default configuration, which meets the framer group
whatever the depth of Q that it leaves open. -/
theorem invariantAtReset : Obligations.InvariantAtReset :=
  Inv.resetWith (by simp [Cfg.framerOk, Cfg.syncBits, Cfg.rs41]) _ _

/-! A step inside a frame decode, stage by stage (44_subframe_parser.md R170). -/

/-- Inside a frame decode a step continues it. -/
theorem step_of_work {s : State} {w : Work} (hw : s.work = some w) : step s = decodeStep s w := by
  simp only [step, hw]

/-- The operation of a frame-type byte takes the mode that the byte gives (30_encoding.md R73). -/
theorem exec_decodeFtype (c : Cfg) (v : Byte) (s : State) :
    exec (decodeFtype c v) s = onPipe (ftypeOp (v == c.extFlag)) s := by
  unfold decodeFtype
  split
  · rw [beq_iff_eq.2 ‹_›]
    rfl
  · rw [beq_eq_false_iff_ne.2 ‹_›]
    rfl

/-- The step at the mode is MODE: the frame-type byte read and its operation are one. -/
theorem decodeStep_mode {s : State} {w : Work} (hw : s.work = some w) (hs : w.stage = .mode) :
    decodeStep s w = onPipe modeOp s := by
  simp only [decodeStep, hs, fetchFtype, onPipe, hw, modeOp, isExtended]
  cases readAt .frm w.frm s.cfg.ftypeOff with
  | error e => rfl
  | ok v =>
    simp only [bind_of_ok, pure_eq_ok, exec_decodeFtype, onPipe, hw, ftypeOp, readMode, hs, setModePost, if_true]

/-- The step at a subframe of the walk is that subframe's turn. -/
theorem decodeStep_subframe {s : State} {w : Work} {sf : Subframe} (hs : w.stage = .walk)
    (hf : fetchSubframe s.cfg w = .ok (some sf)) :
    decodeStep s w = onPipe (subframeTurn (actOf (subKind s.cfg sf.tag)) sf.payload sf.crc) s := by
  simp only [decodeStep, hs, hf, exec_toInstr]

/-- The step where the walk ends goes on to the delivery. -/
theorem decodeStep_walkEnd {s : State} {w : Work} (hs : w.stage = .walk) (hf : fetchSubframe s.cfg w = .ok none) :
    decodeStep s w = .next (s.setWork (some { w with stage := .deliver })) := by
  simp only [decodeStep, hs, hf]

/-- The step at a walk whose reads leave the region stops. -/
theorem decodeStep_walkFault {s : State} {w : Work} {e : Fault} (hs : w.stage = .walk)
    (hf : fetchSubframe s.cfg w = .error e) : decodeStep s w = .fault e := by
  simp only [decodeStep, hs, hf]

/-- The step at the delivery hands the record over and ends the decode. -/
theorem decodeStep_deliver {s : State} {w : Work} (hw : s.work = some w) (hs : w.stage = .deliver) :
    decodeStep s w = .next ((deliver s w.record).setWork none) := by
  simp only [decodeStep, hs, exec, execDeliverRecord, hw]

end Sys2Proof.Machine
end

section
/-! PROOFS. What a step does to the Decoder's state and to the run statuses (CalibrationIsSticky,
StageStatusChangesOnlyAsSaid): inside a decode DC changes by recorded block results and fragment merges only. -/

namespace Sys2Proof.Machine

/-! The writes of a frame decode. -/

/-- One write of a frame decode to the Decoder's state: a block's result (42_reed_solomon.md R150), or a fragment
(44_subframe_parser.md R178). -/
inductive DecoderWrite (c : Cfg) : Decoder → Decoder → Prop where
  | rsOk (dc : Decoder) (b : Nat) (ok : Bool) : DecoderWrite c dc (setRsOk dc b ok)
  | merge {dc dc' : Decoder} {k : Byte} {data : List Byte} (h : calMerge c k data dc = .ok dc') :
      DecoderWrite c dc dc'

/-- Any number of such writes, one after the other. -/
abbrev DecoderWrites (c : Cfg) : Decoder → Decoder → Prop := Relation.ReflTransGen (DecoderWrite c)

/-- One block of the FEC stage records its result. -/
theorem fecBlock_writes {c : Cfg} {p p' : Pipe} {b : Nat} (h : fecBlock c p b = .ok p') :
    DecoderWrites c p.dc p'.dc := by
  obtain ⟨r, -, ⟨cw, frm, -, -, rfl⟩ | ⟨frm, -, -, rfl⟩⟩ := fecBlock_cases h
  · exact .single (.rsOk _ b true)
  · exact .single (.rsOk _ b false)

/-- The blocks in order. -/
theorem fecBlocks_writes {c : Cfg} {bs : List Nat} {p p' : Pipe} (h : fecBlocks c bs p = .ok p') :
    DecoderWrites c p.dc p'.dc := by
  induction bs generalizing p with
  | nil =>
    cases h
    exact .refl
  | cons b bs ih =>
    obtain ⟨q, hq, h⟩ := (bind_ok_iff _ _ _).1 h
    exact (fecBlock_writes hq).trans (ih h)

/-- The FEC stage. -/
theorem fecStageOp_writes {c : Cfg} {p p' : Pipe} (h : fecStageOp c p = .ok p') : DecoderWrites c p.dc p'.dc := by
  obtain ⟨ext, -, h⟩ := (bind_ok_iff _ _ _).1 h
  obtain ⟨q, hq, h⟩ := (bind_ok_iff _ _ _).1 h
  have hblocks := fecBlocks_writes hq
  cases h
  exact hblocks

/-- MODE writes the working state alone. -/
theorem modeOp_ok {c : Cfg} {p p' : Pipe} (h : modeOp c p = .ok p') :
    ∃ ext, p' = { p with w := { setModePost c ext p.w with stage := .walk } } := by
  obtain ⟨ext, -, h⟩ := (bind_ok_iff _ _ _).1 h
  cases h
  exact ⟨ext, rfl⟩

/-- One turn of the walk merges a fragment or leaves the Decoder's state alone. -/
theorem subframeTurn_writes {k : SubKind} {payload : List Byte} {crc : Half} {c : Cfg} {p p' : Pipe}
    (h : subframeTurn (actOf k) payload crc c p = .ok p') : DecoderWrites c p.dc p'.dc := by
  obtain ⟨-, q, hq, rfl⟩ | ⟨-, rfl⟩ := subframeTurn_cases h
  · obtain hdc | ⟨n, data, hm⟩ := actOf_dc hq
    · exact hdc ▸ .refl
    · exact .single (.merge hm)
  · exact .refl

/-- The turns of the walk. -/
theorem walkLoop_writes {c : Cfg} {fuel : Nat} {p p' : Pipe} (h : walkLoop c fuel p = .ok p') :
    DecoderWrites c p.dc p'.dc := by
  induction fuel generalizing p with
  | zero => cases h
  | succ fuel ih =>
    obtain ⟨-, rfl⟩ | ⟨sf, q, -, hq, h⟩ := walkLoop_succ_cases h
    · exact .refl
    · exact (subframeTurn_writes hq).trans (ih h)

/-- The walk from offset 0. -/
theorem walkOp_writes {c : Cfg} {p p' : Pipe} (h : walkOp c p = .ok p') : DecoderWrites c p.dc p'.dc := by
  obtain ⟨q, hq, h⟩ := (bind_ok_iff _ _ _).1 h
  have hturns := walkLoop_writes hq
  cases h
  exact hturns

/-- The whole pipeline of one frame: of its four stages, only the FEC stage and the walk write the Decoder's
state. -/
theorem decodePipeline_writes {c : Cfg} {p p' : Pipe} (h : decodePipeline c p = .ok p') :
    DecoderWrites c p.dc p'.dc := by
  obtain ⟨p1, h1, h⟩ := (bind_ok_iff _ _ _).1 h
  obtain ⟨p2, h2, h⟩ := (bind_ok_iff _ _ _).1 h
  obtain ⟨p3, h3, h⟩ := (bind_ok_iff _ _ _).1 h
  cases h1
  obtain ⟨ext, rfl⟩ := modeOp_ok h3
  have hwalk := walkOp_writes h
  exact (fecStageOp_writes h2).trans hwalk

/-! What those writes keep. -/

/-- A merge keeps the run status, the flag once set, and every bit once cleared (44_subframe_parser.md R178,
R179). -/
theorem calMerge_keeps {c : Cfg} {k : Byte} {data : List Byte} {dc dc' : Decoder}
    (h : calMerge c k data dc = .ok dc') :
    dc'.stage = dc.stage ∧ (dc.calibrated = true → dc'.calibrated = true) ∧
      ∀ i : Nat, dc.bitmap[i]? = some false → dc'.bitmap[i]? = some false := by
  obtain ⟨-, rfl⟩ | ⟨-, -, rfl⟩ := calMerge_cases h
  · exact ⟨rfl, id, fun _ => id⟩
  · refine ⟨by simp, fun hcal => by simp [hcal], fun i hi => ?_⟩
    rw [calCompleteCheck_bitmap, List.getElem?_set]
    obtain ⟨hlt, -⟩ := List.getElem?_eq_some_iff.1 hi
    split
    · simp_all
    · exact hi

/-- The writes of a decode keep the run status, the flag once set, and every bit once cleared. -/
theorem DecoderWrites.keeps {c : Cfg} {dc dc' : Decoder} (h : DecoderWrites c dc dc') :
    dc'.stage = dc.stage ∧ (dc.calibrated = true → dc'.calibrated = true) ∧
      ∀ i : Nat, dc.bitmap[i]? = some false → dc'.bitmap[i]? = some false := by
  induction h with
  | refl => exact ⟨rfl, id, fun _ => id⟩
  | tail _ hwrite ih =>
    obtain ⟨hstage, hflag, hbits⟩ := ih
    cases hwrite with
    | rsOk b ok => exact ⟨hstage, hflag, hbits⟩
    | merge hm =>
      obtain ⟨hstage', hflag', hbits'⟩ := calMerge_keeps hm
      exact ⟨hstage'.trans hstage, hflag' ∘ hflag, fun i => hbits' i ∘ hbits i⟩

/-! What the steps write. -/

/-- A pipeline operation leaves the Framer alone, and of the Decoder's state it writes what the operation on the
pipe writes. -/
theorem onPipe_frame {f : Cfg → Pipe → Except Fault Pipe} {s t : State} (h : onPipe f s = .next t)
    (hf : ∀ p p', f s.cfg p = .ok p' → DecoderWrites s.cfg p.dc p'.dc) :
    t.fr = s.fr ∧ DecoderWrites s.cfg s.dc t.dc := by
  obtain ⟨-, rfl⟩ | ⟨w, p, -, hp, rfl⟩ := onPipe_next h
  · exact ⟨rfl, .refl⟩
  · exact ⟨rfl, hf _ _ hp⟩

/-- A step inside a frame decode leaves the Framer alone, and writes the Decoder's state as a decode does. -/
theorem decodeStep_frame {s t : State} {w : Work} (hw : s.work = some w) (h : decodeStep s w = .next t) :
    t.fr = s.fr ∧ DecoderWrites s.cfg s.dc t.dc := by
  cases hs : w.stage with
  | descramble =>
    simp only [decodeStep, hs] at h
    refine onPipe_frame (f := descrambleOp) h fun p p' hp => ?_
    cases hp
    exact .refl
  | fec =>
    simp only [decodeStep, hs] at h
    exact onPipe_frame h fun p p' => fecStageOp_writes
  | mode =>
    rw [decodeStep_mode hw hs] at h
    refine onPipe_frame h fun p p' hp => ?_
    obtain ⟨ext, rfl⟩ := modeOp_ok hp
    exact .refl
  | walk =>
    cases hf : fetchSubframe s.cfg w with
    | error e =>
      rw [decodeStep_walkFault hs hf] at h
      cases h
    | ok found =>
      cases found with
      | none =>
        rw [decodeStep_walkEnd hs hf] at h
        cases h
        exact ⟨rfl, .refl⟩
      | some sf =>
        rw [decodeStep_subframe hs hf] at h
        exact onPipe_frame h fun p p' => subframeTurn_writes
  | deliver =>
    rw [decodeStep_deliver hw hs] at h
    cases h
    exact ⟨rfl, .refl⟩

/-- DEC_FRAME leaves the Framer alone, and writes the Decoder's state as a decode does. -/
theorem execDecFrame_frame {s t : State} (h : execDecFrame s = .next t) :
    t.fr = s.fr ∧ DecoderWrites s.cfg s.dc t.dc := by
  obtain ⟨-, rfl⟩ | ⟨f, rest, p, -, -, hp, rfl⟩ := execDecFrame_next h
  · exact ⟨rfl, .refl⟩
  · exact ⟨rfl, decodePipeline_writes hp⟩

/-- A Framer step changes the Framer's status only by an error entry (40_framer.md R102, R111). -/
theorem exec_framerSteps_stage {i : Instr} {s t : State} (hi : i ∈ framerSteps) (h : exec i s = .next t) :
    t.fr.stage = s.fr.stage ∨ ∃ code, t.errs = s.errs ++ [(.framer, code)] := by
  obtain rfl | rfl | rfl | rfl | rfl := (mem_framerSteps i).1 hi
  · obtain ⟨-, rfl⟩ | ⟨v, rest, -, -, -, rfl⟩ := execFrPull_next h <;> exact .inl rfl
  · obtain ⟨-, rfl⟩ | ⟨rest, -, -, -, rfl⟩ := execFrReadFail_next h
    · exact .inl rfl
    · exact .inr ⟨_, rfl⟩
  · obtain ⟨-, rfl⟩ | ⟨-, -, -, rfl⟩ := execFrCorrelate_next h <;> exact .inl rfl
  · obtain ⟨-, rfl⟩ | ⟨-, -, -, -, rfl⟩ := execFrEmit_next h <;> exact .inl rfl
  · obtain ⟨-, rfl⟩ | ⟨-, -, -, rfl⟩ := execFrPublishFail_next h
    · exact .inl rfl
    · exact .inr ⟨_, rfl⟩

/-- Of the host operations other than RESET, each stage's status is written by its own QUIESCE and RESUME alone
(45_stage_control.md R203, R204, R206). -/
theorem exec_hostOp_stage {op : HostOp} {s t : State} (hop : ∀ cfg, op ≠ .reset cfg)
    (h : exec op.toInstr s = .next t) :
    (t.fr.stage = s.fr.stage ∨ op = .quiesceFramer ∨ op = .resumeFramer) ∧
      (t.dc.stage = s.dc.stage ∨ op = .quiesceDecoder ∨ op = .resumeDecoder) := by
  cases op with
  | reset cfg => exact absurd rfl (hop cfg)
  | push | pushEnd | closeOutput =>
    cases h
    exact ⟨.inl rfl, .inl rfl⟩
  | rebindFramer => obtain ⟨-, rfl⟩ | ⟨-, rfl⟩ := execRebindFramer_next h <;> exact ⟨.inl rfl, .inl rfl⟩
  | quiesceFramer =>
    cases h
    exact ⟨.inr (.inl rfl), .inl rfl⟩
  | resumeFramer =>
    obtain ⟨-, rfl⟩ | ⟨-, rfl⟩ := execResumeFramer_next h <;> exact ⟨.inr (.inr rfl), .inl rfl⟩
  | quiesceDecoder =>
    cases h
    exact ⟨.inl rfl, .inr (.inl rfl)⟩
  | resumeDecoder =>
    obtain ⟨-, rfl⟩ | ⟨-, -, rfl⟩ := execResumeDecoder_next h <;> exact ⟨.inl rfl, .inr (.inr rfl)⟩

/-- Everything a step can do to the Framer's status and to the Decoder's state: it is a host operation, or the
Framer's status changes with an error entry at most and the Decoder's state as a decode writes it. -/
theorem step_stage_cases {s t : State} (h : step s = .next t) :
    (∃ op rest, s.agenda = .host op :: rest ∧ exec op.toInstr (s.setAgenda rest) = .next t) ∨
      ((t.fr.stage = s.fr.stage ∨ ∃ code, t.errs = s.errs ++ [(.framer, code)]) ∧
        DecoderWrites s.cfg s.dc t.dc) := by
  obtain ⟨w, hw, h⟩ | ⟨-, ⟨-, rfl⟩ | ⟨rest, -, h⟩ | ⟨rest, -, h⟩ | hhost | ⟨rest, -, h⟩⟩ := step_next h
  · obtain ⟨hfr, hdc⟩ := decodeStep_frame hw h
    exact .inr ⟨.inl (congrArg _ hfr), hdc⟩
  · exact .inr ⟨.inl rfl, .refl⟩
  · unfold framerTurn at h
    split at h
    · have hi := framerStep_mem ‹_›
      exact .inr ⟨exec_framerSteps_stage (s := s.setAgenda rest) hi h, (exec_framerSteps_frame hi h).2 ▸ .refl⟩
    · cases h
      exact .inr ⟨.inl rfl, .refl⟩
  · obtain ⟨hfr, hdc⟩ := execDecFrame_frame h
    exact .inr ⟨.inl (congrArg _ hfr), hdc⟩
  · exact .inl hhost
  · obtain ⟨-, -, rfl⟩ | ⟨i, n, hi, h⟩ | ⟨-, n, h⟩ := runTurn_next h
    · exact .inr ⟨.inl rfl, .refl⟩
    · have hi := framerStep_mem hi
      exact .inr ⟨exec_framerSteps_stage (s := s.setDraws n) hi h, (exec_framerSteps_frame hi h).2 ▸ .refl⟩
    · obtain ⟨hfr, hdc⟩ := execDecFrame_frame h
      exact .inr ⟨.inl (congrArg _ hfr), hdc⟩

/-- An event that is next where no RESET is, is no RESET. -/
theorem NoResetNext.ne_reset {s : State} {op : HostOp} {rest : List Event} (h : NoResetNext s)
    (ha : s.agenda = .host op :: rest) (cfg : Cfg) : op ≠ .reset cfg := by
  rintro rfl
  exact h cfg rest ha

/-- Settles O28: the host operations write no calibration state, and every other step writes the Decoder's state
as a decode does. -/
theorem calibrationIsSticky : Obligations.CalibrationIsSticky := by
  intro s t hn h
  obtain ⟨op, rest, ha, h⟩ | ⟨-, hdc⟩ := step_stage_cases h
  · obtain ⟨-, stage, hdc⟩ := exec_hostOp_frame (hn.ne_reset ha) h
    rw [hdc]
    exact ⟨id, fun _ => id⟩
  · exact hdc.keeps.2

/-- Settles O31: a host operation writes its own stage's status alone, an error entry is recorded in ERRS, and a
decode keeps the Decoder's status. -/
theorem stageStatusChangesOnlyAsSaid : Obligations.StageStatusChangesOnlyAsSaid := by
  intro s t hn h
  obtain ⟨op, rest, ha, h⟩ | ⟨hfr, hdc⟩ := step_stage_cases h
  · obtain ⟨hfr, hdc⟩ := exec_hostOp_stage (hn.ne_reset ha) h
    refine ⟨fun hne => ?_, fun hne => ?_⟩
    · obtain rfl | rfl := hfr.resolve_left hne
      · exact .inl ⟨rest, ha⟩
      · exact .inr (.inl ⟨rest, ha⟩)
    · obtain rfl | rfl := hdc.resolve_left hne
      · exact .inl ⟨rest, ha⟩
      · exact .inr ⟨rest, ha⟩
  · exact ⟨fun hne => .inr (.inr (hfr.resolve_left hne)), fun hne => absurd hdc.keeps.1 hne⟩

end Sys2Proof.Machine
end

section
/-! PROOFS. DEC_FRAME is its pipeline's steps one after the other (DecFrameIsItsPipeline): each stage of the pipeline
is a step of the block that goes on from what the stage leaves or stops with its fault, and the walk is such a step for
each of its turns. -/

namespace Sys2Proof.Machine

/-! Runs of the block. -/

/-- Some number of steps from `s` ends in `o`. -/
def RunsTo (s : State) (o : Host.Outcome State Fault Refusal) : Prop :=
  ∃ k, Host.Core.run Sys2Proof.core k s = o

/-- No step at all. -/
theorem RunsTo.refl (s : State) : RunsTo s (.next s) := ⟨0, rfl⟩

/-- A run that goes on from the next state of its first step. -/
theorem RunsTo.of_next {s t : State} {o : Host.Outcome State Fault Refusal} (h : step s = .next t)
    (ht : RunsTo t o) : RunsTo s o := by
  obtain ⟨k, hk⟩ := ht
  exact ⟨k + 1, (run_succ_of_next h).trans hk⟩

/-- A run that stops at its first step. -/
theorem RunsTo.of_fault {s : State} {e : Fault} (h : step s = .fault e) : RunsTo s (.fault e) :=
  ⟨1, by simp only [Host.Core.run, Sys2Proof.core, h]⟩

/-! A pipeline as an outcome of the block. -/

/-- `s` inside the frame decode that `p` holds. -/
def State.withPipe (s : State) (p : Pipe) : State := ((s.setDc p.dc).setDraws p.draws).setWork (some p.w)

@[simp] theorem State.withPipe_work (s : State) (p : Pipe) : (s.withPipe p).work = some p.w := rfl

/-- How the decode of a frame ends for the block: its record is delivered and no working state is left, or the block
stops with the fault. -/
def decoded (s : State) : Except Fault Pipe → Host.Outcome State Fault Refusal
  | .ok p => .next ((deliver (s.withPipe p) p.w.record).setWork none)
  | .error e => .fault e

/-- DEC_FRAME with a frame to take is the end of the pipeline that begins with it. -/
theorem execDecFrame_of_frame {s : State} {f : QFrame} {rest : List QFrame} (hwork : s.work = none)
    (hrun : s.dc.stage = .running) (hq : s.q.items = f :: rest) :
    execDecFrame s =
      decoded (s.setQ { s.q with items := rest })
        (decodePipeline s.cfg ⟨s.dc, s.draws, startWork s.cfg f.frame⟩) := by
  have henabled : decFrameEnabled s = true := by simp [decFrameEnabled, hrun, hq]
  rw [execDecFrame, if_pos henabled, hq]
  dsimp only
  cases decodePipeline s.cfg ⟨s.dc, s.draws, startWork s.cfg f.frame⟩ with
  | error e => rfl
  | ok p => simp only [decoded, deliver, State.withPipe, State.setWork, State.setRecs, State.setDraws, State.setDc,
      State.setQ, hwork]

/-- Inside a frame decode a pipeline operation that faults stops the block. -/
theorem onPipe_fault {f : Cfg → Pipe → Except Fault Pipe} {s : State} {w : Work} {e : Fault} (hw : s.work = some w)
    (hf : f s.cfg ⟨s.dc, s.draws, w⟩ = .error e) : onPipe f s = .fault e := by
  simp only [onPipe, hw, hf]

/-- A pipeline whose first operation is the block's next step: what is left of it runs from what that operation
leaves, and its fault is the block's. -/
theorem RunsTo.decoded_bind {s : State} {p : Pipe} {f : Cfg → Pipe → Except Fault Pipe}
    {g : Pipe → Except Fault Pipe} (hstep : decodeStep (s.withPipe p) p.w = onPipe f (s.withPipe p))
    (hrest : ∀ q, f s.cfg p = .ok q → RunsTo (s.withPipe q) (decoded s (g q))) :
    RunsTo (s.withPipe p) (decoded s (f s.cfg p >>= g)) := by
  rw [← step_of_work (State.withPipe_work s p)] at hstep
  cases hf : f s.cfg p with
  | error e => exact .of_fault (hstep.trans (onPipe_fault rfl hf))
  | ok q => exact .of_next (hstep.trans (onPipe_inside f _ p.w q rfl hf)) (hrest q hf)

/-! The offset through the stages before the walk. -/

/-- A block of the FEC stage does not move the walk's offset. -/
theorem fecBlock_off {c : Cfg} {p p' : Pipe} {b : Nat} (h : fecBlock c p b = .ok p') : p'.w.off = p.w.off := by
  obtain ⟨r, -, ⟨cw, frm, -, -, rfl⟩ | ⟨frm, -, -, rfl⟩⟩ := fecBlock_cases h <;> rfl

/-- The blocks of the FEC stage do not move the walk's offset. -/
theorem fecBlocks_off {c : Cfg} {bs : List Nat} {p p' : Pipe} (h : fecBlocks c bs p = .ok p') :
    p'.w.off = p.w.off := by
  induction bs generalizing p with
  | nil =>
    cases h
    rfl
  | cons b bs ih =>
    obtain ⟨q, hq, h⟩ := (bind_ok_iff _ _ _).1 h
    exact (ih h).trans (fecBlock_off hq)

/-- The FEC stage goes on to the mode and does not move the walk's offset. -/
theorem fecStageOp_stage_off {c : Cfg} {p p' : Pipe} (h : fecStageOp c p = .ok p') :
    p'.w.stage = .mode ∧ p'.w.off = p.w.off := by
  obtain ⟨ext, -, h⟩ := (bind_ok_iff _ _ _).1 h
  obtain ⟨q, hq, h⟩ := (bind_ok_iff _ _ _).1 h
  have hoff := fecBlocks_off hq
  cases h
  exact ⟨rfl, hoff⟩

/-! The walk. -/

/-- A subframe that the walk takes ends inside the region (44_subframe_parser.md R174). -/
theorem fetchSubframe_fits {c : Cfg} {w : Work} {sf : Subframe} (h : fetchSubframe c w = .ok (some sf)) :
    w.off + sf.payload.length + c.sfOverhead ≤ w.regionLen := by
  obtain ⟨reg, hreg, h⟩ := (bind_ok_iff _ _ _).1 h
  have hlen : reg.length = w.regionLen := slice_length hreg
  split at h
  · rename_i sf' after hd
    obtain ⟨tag, len, lo, hi, rest, tail, hbytes, hfit, -, rfl, -⟩ := decodeSubframe_ok hd
    cases h
    have hdrop : (reg.drop w.off).length = rest.length + 2 := by rw [hbytes]; rfl
    simp only [List.length_drop, List.length_take] at hdrop hfit ⊢
    omega
  all_goals cases h

/-- The turns of the walk are the block's steps to the end of the decode, when the fuel is enough for a turn at every
offset that is left. -/
theorem RunsTo.decoded_walkLoop {s : State} (hover : 0 < s.cfg.sfOverhead) (fuel : Nat) (p : Pipe)
    (hs : p.w.stage = .walk) (hin : p.w.off ≤ p.w.regionLen) (hfuel : p.w.regionLen < p.w.off + fuel) :
    RunsTo (s.withPipe p) (decoded s (walkLoop s.cfg fuel p)) := by
  induction fuel generalizing p with
  | zero => exact absurd hfuel (not_lt.2 hin)
  | succ fuel ih =>
    rw [walkLoop]
    have hstep := step_of_work (State.withPipe_work s p)
    cases hf : fetchSubframe s.cfg p.w with
    | error e => exact .of_fault (hstep.trans (decodeStep_walkFault hs hf))
    | ok found =>
      cases found with
      | none =>
        refine .of_next (hstep.trans (decodeStep_walkEnd hs hf)) (.of_next ?_ (.refl _))
        exact (step_of_work rfl).trans (decodeStep_deliver (w := { p.w with stage := .deliver }) rfl rfl)
      | some sf =>
        refine .decoded_bind (decodeStep_subframe hs hf) fun q hq => ?_
        have hfits := fetchSubframe_fits hf
        obtain ⟨dc, record, rfl⟩ := subframeTurn_frame hq
        refine ih _ hs ?_ ?_
        · simpa using hfits
        · simp only
          omega

/-- The walk that is entered at offset 0. -/
theorem RunsTo.decoded_walk {s : State} {p : Pipe} (hover : 0 < s.cfg.sfOverhead) (hs : p.w.stage = .walk)
    (hoff : p.w.off = 0) : RunsTo (s.withPipe p) (decoded s (walkOp s.cfg p)) := by
  have hturns := RunsTo.decoded_walkLoop hover (p.w.regionLen + 1) p hs (by omega) (by omega)
  have hsame : decoded s (walkOp s.cfg p) = decoded s (walkLoop s.cfg (p.w.regionLen + 1) p) := by
    have hp : ({ p with w := { p.w with off := 0 } } : Pipe) = p := by rw [← hoff]
    rw [walkOp, hp]
    cases walkLoop s.cfg (p.w.regionLen + 1) p <;> rfl
  exact hsame ▸ hturns

/-- The pipeline of one frame is the block's steps from the line DESCRAMBLE to the end of the decode. -/
theorem RunsTo.decoded_pipeline {s : State} {p : Pipe} (hover : 0 < s.cfg.sfOverhead)
    (hs : p.w.stage = .descramble) (hoff : p.w.off = 0) :
    RunsTo (s.withPipe p) (decoded s (decodePipeline s.cfg p)) := by
  refine .decoded_bind (by simp only [decodeStep, hs]; rfl) fun p1 h1 => ?_
  obtain ⟨hs1, hoff1⟩ : p1.w.stage = .fec ∧ p1.w.off = p.w.off := by
    cases h1
    exact ⟨rfl, rfl⟩
  refine .decoded_bind (by simp only [decodeStep, hs1]; rfl) fun p2 h2 => ?_
  obtain ⟨hs2, hoff2⟩ := fecStageOp_stage_off h2
  refine .decoded_bind (decodeStep_mode rfl hs2) fun p3 h3 => ?_
  obtain ⟨ext, rfl⟩ := modeOp_ok h3
  exact .decoded_walk hover rfl (hoff2.trans (hoff1.trans hoff))

/-- Settles O34: the decode begins with the working state that DEC_FRAME itself makes, whose record is R37's, and from
there the pipeline is the block's own steps. -/
theorem decFrameIsItsPipeline : Obligations.DecFrameIsItsPipeline := by
  intro s f rest hwork hrun hq hover
  change RunsTo ((s.setQ { s.q with items := rest }).withPipe ⟨s.dc, s.draws, startWork s.cfg f.frame⟩)
    (execDecFrame s)
  rw [execDecFrame_of_frame hwork hrun hq]
  exact .decoded_pipeline hover rfl rfl

end Sys2Proof.Machine
end

section
/-! PROOFS. The Decoder reads neither `DC.rs_ok` nor the polarity flag (DecoderReadsNeitherStatusNorPolarity): each
operation of a frame decode answers for every `DC.rs_ok` and gives the same but for that field. -/

namespace Sys2Proof.Machine

/-- `DC` with another `rs_ok`. -/
def Decoder.withRsOk (dc : Decoder) (v : List Bool) : Decoder := { dc with rsOk := v }

/-- A pipe whose Decoder has another `rs_ok`. -/
def Pipe.withRsOk (p : Pipe) (v : List Bool) : Pipe := { p with dc := p.dc.withRsOk v }

/-- Where `f` answers, it answers for every other `rs_ok` too, with a result that differs in `rs_ok` alone. -/
def IgnoresRsOk (f : Pipe → Except Fault Pipe) : Prop :=
  ∀ (p q : Pipe) (v : List Bool), f p = .ok q → ∃ v', f (p.withRsOk v) = .ok (q.withRsOk v')

/-! How such operations are made. -/

/-- An operation that always answers, and whose change leaves `rs_ok` as it is. -/
theorem IgnoresRsOk.ofOk {g : Pipe → Pipe} (hg : ∀ p v, g (p.withRsOk v) = (g p).withRsOk v) :
    IgnoresRsOk fun p => .ok (g p) := by
  rintro p q v ⟨⟩
  exact ⟨v, congrArg Except.ok (hg p v)⟩

/-- One operation after the other. -/
theorem IgnoresRsOk.bind {f g : Pipe → Except Fault Pipe} (hf : IgnoresRsOk f) (hg : IgnoresRsOk g) :
    IgnoresRsOk fun p => f p >>= g := by
  intro p q v h
  obtain ⟨p', hp', h⟩ := (bind_ok_iff _ _ _).1 h
  obtain ⟨v', hv'⟩ := hf p p' v hp'
  obtain ⟨v'', hv''⟩ := hg p' q v' h
  exact ⟨v'', (bind_ok_iff _ _ _).2 ⟨_, hv', hv''⟩⟩

/-- An operation after a read of the working state. -/
theorem IgnoresRsOk.read {α : Type} {x : Work → Except Fault α} {f : α → Pipe → Except Fault Pipe}
    (hf : ∀ a, IgnoresRsOk (f a)) : IgnoresRsOk fun p => x p.w >>= fun a => f a p := by
  intro p q v h
  obtain ⟨a, ha, h⟩ := (bind_ok_iff _ _ _).1 h
  obtain ⟨v', hv'⟩ := hf a p q v h
  exact ⟨v', (bind_ok_iff _ _ _).2 ⟨a, ha, hv'⟩⟩

/-- An operation after a read of something else, such as a payload. -/
theorem IgnoresRsOk.after {α : Type} {x : Except Fault α} {f : α → Pipe → Except Fault Pipe}
    (hf : ∀ a, IgnoresRsOk (f a)) : IgnoresRsOk fun p => x >>= fun a => f a p := .read (x := fun _ => x) hf

/-! The stages before the walk. -/

/-- One block of the FEC stage: `rs_ok` is written and not read (42_reed_solomon.md R150). -/
theorem IgnoresRsOk.fecBlock (c : Cfg) (b : Nat) : IgnoresRsOk fun p => fecBlock c p b := by
  intro p q v h
  obtain ⟨r, hr, ⟨cw, frm, hcw, hfrm, rfl⟩ | ⟨frm, hcw, hfrm, rfl⟩⟩ := fecBlock_cases h
  · exact ⟨v.set b true, by simp only [Machine.fecBlock, Pipe.withRsOk, hr, bind_of_ok, hcw, hfrm]; rfl⟩
  · exact ⟨v.set b false, by simp only [Machine.fecBlock, Pipe.withRsOk, hr, bind_of_ok, hcw, hfrm]; rfl⟩

/-- The blocks in order. -/
theorem IgnoresRsOk.fecBlocks (c : Cfg) (bs : List Nat) : IgnoresRsOk (fecBlocks c bs) := by
  induction bs with
  | nil => exact .ofOk fun _ _ => rfl
  | cons b bs ih => exact (IgnoresRsOk.fecBlock c b).bind ih

/-- The FEC stage. -/
theorem IgnoresRsOk.fecStageOp (c : Cfg) : IgnoresRsOk (fecStageOp c) :=
  .read (x := fun w => isExtended c w.frm) fun ext =>
    (IgnoresRsOk.ofOk (g := fun p => { p with w := setModePre c ext p.w }) fun _ _ => rfl).bind <|
      (IgnoresRsOk.fecBlocks c (List.range c.rsIlv)).bind <| .ofOk fun _ _ => rfl

/-- MODE. -/
theorem IgnoresRsOk.modeOp (c : Cfg) : IgnoresRsOk (modeOp c) :=
  .read (x := fun w => isExtended c w.frm) fun _ => .ofOk fun _ _ => rfl

/-! The walk. -/

/-- The completion check neither reads nor writes `rs_ok`. -/
theorem calCompleteCheck_withRsOk (dc : Decoder) (v : List Bool) :
    calCompleteCheck (dc.withRsOk v) = (calCompleteCheck dc).withRsOk v := by
  cases hclear : bitmapClear dc.bitmap <;> simp [calCompleteCheck, Decoder.withRsOk, hclear]

/-- A merge neither reads nor writes `rs_ok`. -/
theorem calMerge_withRsOk {c : Cfg} {k : Byte} {data : List Byte} {dc dc' : Decoder} (v : List Bool)
    (h : calMerge c k data dc = .ok dc') : calMerge c k data (dc.withRsOk v) = .ok (dc'.withRsOk v) := by
  obtain ⟨hk, rfl⟩ | ⟨hk, hfit, rfl⟩ := calMerge_cases h
  · rw [calMerge, if_pos hk]
  · rw [calMerge, if_neg (not_le.2 hk), calWrite, if_pos hfit, bind_of_ok]
    exact congrArg Except.ok (calCompleteCheck_withRsOk { dc with cal := _, bitmap := _ } v)

/-- What a subframe does: SF_STATUS goes on from the merge, the others leave the Decoder's state alone
(44_subframe_parser.md R176). -/
theorem IgnoresRsOk.actOf (k : SubKind) (c : Cfg) (payload : List Byte) : IgnoresRsOk (actOf k c payload) := by
  cases k with
  | status =>
    intro p q v h
    refine ⟨v, ?_⟩
    simp only [Machine.actOf, statusAct] at h ⊢
    split at h
    · cases h
      exact if_pos ‹_›
    · obtain ⟨n, hn, h⟩ := (bind_ok_iff _ _ _).1 h
      obtain ⟨data, hdata, h⟩ := (bind_ok_iff _ _ _).1 h
      obtain ⟨dc, hdc, h⟩ := (bind_ok_iff _ _ _).1 h
      rw [if_neg ‹_›, hn, bind_of_ok, hdata, bind_of_ok,
        show calMerge c n data (p.withRsOk v).dc = _ from calMerge_withRsOk v hdc, bind_of_ok]
      obtain ⟨serial, hserial, h⟩ := (bind_ok_iff _ _ _).1 h
      obtain ⟨seq, hseq, h⟩ := (bind_ok_iff _ _ _).1 h
      obtain ⟨burst, hburst, h⟩ := (bind_ok_iff _ _ _).1 h
      cases h
      rw [hserial, bind_of_ok, hseq, bind_of_ok, show burstkill c (dc.withRsOk v).cal = _ from hburst]
      rfl
  | gpspos =>
    change IgnoresRsOk (gpsposAct c payload)
    unfold gpsposAct
    by_cases hlen : payload.length < c.gpsposMinLen
    · simp only [if_pos hlen]
      exact .ofOk fun _ _ => rfl
    · simp only [if_neg hlen]
      exact .after fun _ => .after fun _ => .after fun _ => .after fun _ => .after fun _ => .after fun _ =>
        .ofOk fun _ _ => rfl
  | ptu | gpsinfo | gpsraw | xdata | empty | unknown => exact .ofOk fun _ _ => rfl

/-- One turn of the walk. -/
theorem IgnoresRsOk.subframeTurn (k : SubKind) (payload : List Byte) (crc : Half) (c : Cfg) :
    IgnoresRsOk (subframeTurn (Machine.actOf k) payload crc c) := by
  intro p q v h
  unfold Machine.subframeTurn
  obtain ⟨hg, p', hp', rfl⟩ | ⟨hg, rfl⟩ := subframeTurn_cases h
  · obtain ⟨v', hv'⟩ := IgnoresRsOk.actOf k c payload p p' v hp'
    exact ⟨v', by rw [if_pos hg, hv']; rfl⟩
  · exact ⟨v, by rw [if_neg (by simp [hg])]; rfl⟩

/-- The turns of the walk. -/
theorem IgnoresRsOk.walkLoop (c : Cfg) (fuel : Nat) : IgnoresRsOk (walkLoop c fuel) := by
  induction fuel with
  | zero =>
    intro p q v h
    cases h
  | succ fuel ih =>
    intro p q v h
    rw [Machine.walkLoop]
    obtain ⟨hf, rfl⟩ | ⟨sf, p', hf, ht, hl⟩ := walkLoop_succ_cases h
    · exact ⟨v, (bind_ok_iff _ _ _).2 ⟨none, hf, rfl⟩⟩
    · obtain ⟨v', hv'⟩ := IgnoresRsOk.subframeTurn _ _ _ c p p' v ht
      obtain ⟨v'', hv''⟩ := ih p' q v' hl
      exact ⟨v'', (bind_ok_iff _ _ _).2 ⟨some sf, hf, (bind_ok_iff _ _ _).2 ⟨_, hv', hv''⟩⟩⟩

/-- The walk from offset 0. -/
theorem IgnoresRsOk.walkOp (c : Cfg) : IgnoresRsOk (walkOp c) := by
  intro p q v h
  obtain ⟨p', hp', h⟩ := (bind_ok_iff _ _ _).1 h
  obtain ⟨v', hv'⟩ := IgnoresRsOk.walkLoop c _ _ p' v hp'
  cases h
  exact ⟨v', (bind_ok_iff _ _ _).2 ⟨_, hv', rfl⟩⟩

/-- The whole pipeline of one frame. -/
theorem IgnoresRsOk.decodePipeline (c : Cfg) : IgnoresRsOk (decodePipeline c) :=
  (IgnoresRsOk.ofOk (g := fun p => { p with w := { p.w with frm := descrambleFrom c 0 p.w.frm, stage := .fec } })
    fun _ _ => rfl).bind <|
    (IgnoresRsOk.fecStageOp c).bind <| (IgnoresRsOk.modeOp c).bind <| .walkOp c

/-! DEC_FRAME. -/

/-- DEC_FRAME of two states that differ in `DC.rs_ok` alone: where the one answers the other does, and what they leave
differs there alone (42_reed_solomon.md R150). -/
theorem execDecFrame_withRsOk {s t : State} (v : List Bool) (h : execDecFrame s = .next t) :
    ∃ v', execDecFrame (s.setDc (s.dc.withRsOk v)) = .next (t.setDc (t.dc.withRsOk v')) := by
  obtain ⟨hdis, rfl⟩ | ⟨f, rest, p, hrun, hq, hp, rfl⟩ := execDecFrame_next h
  · have hdis' : decFrameEnabled (t.setDc (t.dc.withRsOk v)) = false := hdis
    exact ⟨v, by rw [execDecFrame, if_neg (by simp [hdis'])]⟩
  · obtain ⟨v', hv'⟩ := IgnoresRsOk.decodePipeline _ _ _ v hp
    have henabled : decFrameEnabled (s.setDc (s.dc.withRsOk v)) = true := by
      simp [decFrameEnabled, Decoder.withRsOk, hrun, hq]
    refine ⟨v', ?_⟩
    rw [execDecFrame, if_pos henabled, State.setDc_q, hq]
    simp only [Pipe.withRsOk] at hv'
    simp only [State.setDc_cfg, State.setDc_dc, State.setDc_draws, hv']
    rfl

/-- DEC_FRAME does not read the polarity flag of the frame that it takes (40_framer.md R117). -/
theorem execDecFrame_setInv {s : State} {f : QFrame} {rest : List QFrame} (b : Bool) (hq : s.q.items = f :: rest)
    (hrun : s.dc.stage = .running) :
    execDecFrame (s.setQ { s.q with items := ⟨f.frame, b⟩ :: rest }) = execDecFrame s := by
  have henabled : decFrameEnabled s = true := by simp [decFrameEnabled, hrun, hq]
  have henabled' : decFrameEnabled (s.setQ { s.q with items := ⟨f.frame, b⟩ :: rest }) = true := by
    simp [decFrameEnabled, hrun]
  rw [execDecFrame, execDecFrame, if_pos henabled, if_pos henabled', hq]
  rfl

/-- Settles O32: of `rs_ok` the pipeline is indifferent operation by operation, and of a frame it takes the bytes. -/
theorem decoderReadsNeitherStatusNorPolarity : Obligations.DecoderReadsNeitherStatusNorPolarity := by
  refine ⟨fun s t v h => ?_, fun s f rest b hq hrun => execDecFrame_setInv b hq hrun⟩
  obtain ⟨v', hv'⟩ := execDecFrame_withRsOk v h
  exact ⟨_, hv', rfl⟩

end Sys2Proof.Machine
end

section
/-! PROOFS. What one step of the block runs, at each stage of a decode and at each kind of event
(StepRunsTheDecodedInstruction). -/

namespace Sys2Proof.Machine

/-! The decoder of operations and the fetch of a subframe. -/

/-- An operation is read exactly where a subframe is, and it is the subframe's. -/
theorem decode_ok {c : Cfg} {bytes rest : List Byte} {i : Instr} (h : decode c bytes = .ok (i, rest)) :
    ∃ sf, decodeSubframe c bytes = .ok (sf, rest) ∧ i = sf.toInstr c := by
  unfold decode at h
  split at h <;> cases h
  exact ⟨_, ‹_›, rfl⟩

/-- No operation is read exactly where no subframe is, and for the same reason. -/
theorem decode_error {c : Cfg} {bytes : List Byte} {e : DecodeError} (h : decode c bytes = .error e) :
    decodeSubframe c bytes = .error e := by
  unfold decode at h
  split at h <;> cases h
  assumption

/-- The region inside the frame is read (30_encoding.md R72). -/
theorem region_of_fits {c : Cfg} {w : Work} (h : RegionFits c w) :
    region c w = .ok ((w.frm.drop c.dataOff).take w.regionLen) := slice_of_le _ _ _ _ h

/-- The walk takes the subframe that stands at its offset. -/
theorem fetchSubframe_of_ok {c : Cfg} {w : Work} {reg after : List Byte} {sf : Subframe} (hreg : region c w = .ok reg)
    (hd : decodeSubframe c (reg.drop w.off) = .ok (sf, after)) : fetchSubframe c w = .ok (some sf) := by
  simp only [fetchSubframe, hreg, bind_of_ok, hd, pure_eq_ok]

/-- The walk ends without a header, and at a subframe that would end beyond the region (44_subframe_parser.md R173,
R174). -/
theorem fetchSubframe_of_end {c : Cfg} {w : Work} {reg : List Byte} (hreg : region c w = .ok reg)
    (hd : decodeSubframe c (reg.drop w.off) = .error .noHeader ∨
      decodeSubframe c (reg.drop w.off) = .error .beyondRegion) : fetchSubframe c w = .ok none := by
  obtain hd | hd := hd <;> simp only [fetchSubframe, hreg, bind_of_ok, hd, pure_eq_ok]

/-- The walk stops at a CRC outside the region (20_memory.md R54). -/
theorem fetchSubframe_of_noCrc {c : Cfg} {w : Work} {reg : List Byte} (hreg : region c w = .ok reg)
    (hd : decodeSubframe c (reg.drop w.off) = .error .noCrc) :
    fetchSubframe c w = .error (.outOfBounds .region) := by
  simp only [fetchSubframe, hreg, bind_of_ok, hd]

/-! The steps between decodes. -/

/-- With no decode in progress, a step at a host operation is that operation. -/
theorem step_host {s : State} {op : HostOp} {rest : List Event} (hw : s.work = none)
    (ha : s.agenda = .host op :: rest) : step s = exec op.toInstr (s.setAgenda rest) := by
  simp only [step, hw, ha]

/-- With no decode in progress, a step at the Decoder's turn is DEC_FRAME. -/
theorem step_decoder {s : State} {rest : List Event} (hw : s.work = none) (ha : s.agenda = .decoder :: rest) :
    step s = exec .decFrame (s.setAgenda rest) := by
  simp only [step, hw, ha]

/-- With no decode in progress, a step at the Framer's turn is that turn. -/
theorem step_framer {s : State} {rest : List Event} (hw : s.work = none) (ha : s.agenda = .framer :: rest) :
    step s = framerTurn (s.setAgenda rest) := by
  simp only [step, hw, ha]

/-- With no decode in progress, a step at RUN is one turn of RUN. -/
theorem step_run {s : State} {rest : List Event} (hw : s.work = none) (ha : s.agenda = .run :: rest) :
    step s = runTurn rest s := by
  simp only [step, hw, ha]

/-- The Framer's turn with an enabled step is that step. -/
theorem framerTurn_of_step {s : State} {i : Instr} (h : framerStep s = some i) : framerTurn s = exec i s := by
  simp only [framerTurn, h]

/-- RUN ends where no agent has an enabled step (30_encoding.md R84). -/
theorem runTurn_done {s : State} (rest : List Event) (hf : framerStep s = none) (hd : decFrameEnabled s = false) :
    runTurn rest s = .next (s.setAgenda rest) := by
  simp only [runTurn, hf, hd]

/-- RUN takes an enabled agent step where there is one (30_encoding.md R84); the counter may move, for the choice
between two. -/
theorem runTurn_runs {s : State} (rest : List Event) (h : framerStep s ≠ none ∨ decFrameEnabled s = true) :
    ∃ i n, (framerStep s = some i ∨ (i = .decFrame ∧ decFrameEnabled s = true)) ∧
      runTurn rest s = exec i (s.setDraws n) := by
  cases hf : framerStep s with
  | none =>
    have hd : decFrameEnabled s = true := h.resolve_left (absurd hf)
    exact ⟨.decFrame, s.draws, .inr ⟨rfl, hd⟩, by simp only [runTurn, hf, hd]; rfl⟩
  | some i =>
    cases hd : decFrameEnabled s with
    | false => exact ⟨i, s.draws, .inl rfl, by simp only [runTurn, hf, hd]; rfl⟩
    | true =>
      cases hchoice : Config.runOrder s.draws with
      | true => exact ⟨i, s.draws + 1, .inl rfl, by simp only [runTurn, hf, hd, hchoice, if_true]⟩
      | false => exact ⟨.decFrame, s.draws + 1, .inr ⟨rfl, rfl⟩, by simp [runTurn, hf, hd, hchoice]⟩

/-- Settles O60: inside a decode the step is the stage's operation, at the walk by what the fetch decodes to; between
decodes it is the next event's. -/
theorem stepRunsTheDecodedInstruction : Obligations.StepRunsTheDecodedInstruction := by
  refine ⟨fun s w i rest hw hs hfits hd => ?walk,
    fun s w hw => ⟨fun hs => ?descramble, fun hs => ?fec, fun hs => ?deliver⟩,
    fun s w hw hs hfits => ⟨fun hd => ?walkEnd, fun hd => ?walkFault⟩, fun s w v hw hs hv => ?mode,
    fun s op rest hw ha => step_host hw ha, fun s rest hw ha => step_decoder hw ha,
    fun s rest i hw ha hi => (step_framer hw ha).trans (framerTurn_of_step hi),
    fun s rest hw ha => ⟨fun hf hd => ?runDone, fun h => ?runGoesOn⟩⟩
  case walk =>
    obtain ⟨sf, hsf, rfl⟩ := decode_ok hd
    simp only [step_of_work hw, decodeStep, hs, fetchSubframe_of_ok (region_of_fits hfits) hsf]
  case descramble | fec | deliver => simp only [step_of_work hw, decodeStep, hs]
  case walkEnd =>
    have hend := fetchSubframe_of_end (region_of_fits hfits) (hd.imp decode_error decode_error)
    exact (step_of_work hw).trans (decodeStep_walkEnd hs hend)
  case walkFault =>
    have hfault := fetchSubframe_of_noCrc (region_of_fits hfits) (decode_error hd)
    exact (step_of_work hw).trans (decodeStep_walkFault hs hfault)
  case mode =>
    have hread : readAt .frm w.frm s.cfg.ftypeOff = .ok v := (readAt_ok_iff _ _ _ _).2 hv
    simp only [step_of_work hw, decodeStep, hs, fetchFtype, hread, bind_of_ok, pure_eq_ok]
  case runDone => exact (step_run hw ha).trans (runTurn_done rest hf hd)
  case runGoesOn =>
    obtain ⟨i, n, hi, hrun⟩ := runTurn_runs rest h
    exact ⟨i, n, hi, (step_run hw ha).trans hrun⟩

end Sys2Proof.Machine
end

section
/-! PROOFS. The fields of a payload by plain arithmetic, and what the two acting subframes leave (GpsSubframeResult,
StatusSubframeResult). -/

namespace Sys2Proof.Machine

/-! The bounds of a configuration. -/

/-- Where the fields lie under a configuration that meets the decoder group and the layout bounds (00_scope.md R4,
notes/assumptions/21.md): each field in its store. -/
structure LayoutBounds (c : Cfg) : Prop where
  ftype : c.ftypeOff < c.frameLen
  parity : c.parOff + c.rsNroots * c.rsIlv ≤ c.frameLen
  message : ∀ ext, c.rsMsgOff + c.rsIlv * c.msgLen ext ≤ c.frameLen
  region : ∀ ext, c.dataOff + c.regionLen ext ≤ c.frameLen
  overhead : 4 ≤ c.sfOverhead
  calLen : c.calLen = c.calFragCount * c.calFragSize
  burstkill : c.bkCalOffset + 2 ≤ c.calLen
  fragSeq : c.statusFragSeqOff < c.statusMinLen
  fragData : c.statusFragDataOff + c.calFragSize ≤ c.statusMinLen
  serial : c.statusSerialOff + c.serialLen ≤ c.statusMinLen
  seq : c.statusSeqOff + 2 ≤ c.statusMinLen
  gpsX : c.gpsXOff + 4 ≤ c.gpsposMinLen
  gpsY : c.gpsYOff + 4 ≤ c.gpsposMinLen
  gpsZ : c.gpsZOff + 4 ≤ c.gpsposMinLen
  gpsVx : c.gpsVxOff + 2 ≤ c.gpsposMinLen
  gpsVy : c.gpsVyOff + 2 ≤ c.gpsposMinLen
  gpsVz : c.gpsVzOff + 2 ≤ c.gpsposMinLen

/-- The two checks give the bounds. -/
theorem LayoutBounds.of_ok {c : Cfg} (hd : c.decoderOk = true) (hl : c.layoutOk = true) : LayoutBounds c := by
  simp only [Cfg.decoderOk, Bool.and_eq_true, decide_eq_true_eq, and_assoc] at hd
  simp only [Cfg.layoutOk, Bool.and_eq_true, decide_eq_true_eq, and_assoc] at hl
  obtain ⟨hdataExt, hmsgExt, -, -, -, -, -, hparLen, hcal, hbk, hfragData, hserial, hvz⟩ := hd
  obtain ⟨hftype, hpar, hdata, hmsg, hseq, hfragSeq, hx, hy, hz, hvx, hvy, hover⟩ := hl
  exact
    { ftype := hftype
      parity := by rwa [Nat.mul_comm, ← hparLen]
      message := fun ext => by cases ext <;> assumption
      region := fun ext => by cases ext <;> assumption
      overhead := hover
      calLen := hcal.trans (Nat.mul_comm _ _)
      burstkill := hbk, fragSeq := hfragSeq, fragData := hfragData, serial := hserial, seq := hseq
      gpsX := hx, gpsY := hy, gpsZ := hz, gpsVx := hvx, gpsVy := hvy, gpsVz := hvz }

/-! Little-endian fields as numbers (00_scope.md §4, 20_memory.md R55). -/

/-- Two bytes as a number, the lower address less significant. -/
theorem halfOfBytes_toNat (lo hi : Byte) : (halfOfBytes lo hi).toNat = lo.toNat + 256 * hi.toNat := by
  have hlo := lo.isLt
  rw [halfOfBytes, BitVec.toNat_append, Nat.shiftLeft_eq, Nat.mul_comm, ← Nat.two_pow_add_eq_or_of_lt hlo]
  omega

/-- Two halves as a number, the lower address less significant. -/
theorem toNat_append_halves (lo hi : Half) : (hi ++ lo).toNat = lo.toNat + 65536 * hi.toNat := by
  have hlo := lo.isLt
  rw [BitVec.toNat_append, Nat.shiftLeft_eq, Nat.mul_comm, ← Nat.two_pow_add_eq_or_of_lt hlo]
  omega

/-- The two bytes of a field inside the store. -/
theorem natLe16_of_lt {a : List Byte} {o : Nat} (h : o + 1 < a.length) :
    natLe16 a o = (halfOfBytes a[o] a[o + 1]).toNat := by
  simp [natLe16, halfOfBytes_toNat, h, Nat.lt_of_succ_lt h]

/-- The four bytes of a field inside the store. -/
theorem natLe32_of_lt {a : List Byte} {o : Nat} (h : o + 3 < a.length) :
    natLe32 a o = (halfOfBytes a[o + 2] a[o + 3] ++ halfOfBytes a[o] a[o + 1]).toNat := by
  rw [natLe32, natLe16_of_lt (by omega), natLe16_of_lt (o := o + 2) (by omega), toNat_append_halves]

/-- Two's complement is the sign extension of 00_scope.md §4. -/
theorem toInt_eq_signExtend {n : Nat} (hn : 0 < n) (v : BitVec n) : v.toInt = signExtend n v.toNat := by
  have hpow : 2 ^ n = 2 * 2 ^ (n - 1) := by rw [← Nat.pow_succ', Nat.succ_eq_add_one, Nat.sub_add_cancel hn]
  rw [BitVec.toInt_eq_toNat_cond, signExtend]
  by_cases hneg : 2 ^ (n - 1) ≤ v.toNat
  · rw [if_neg (by omega), if_pos hneg, Nat.cast_pow, Nat.cast_ofNat]
  · rw [if_pos (by omega), if_neg hneg]

/-- An unsigned 16-bit field by plain arithmetic. -/
theorem u16le_eq_natLe16 (st : Store) {a : List Byte} {o : Nat} (h : o + 2 ≤ a.length) :
    u16le st a o = .ok (BitVec.ofNat 16 (natLe16 a o)) := by
  rw [u16le_of_lt st a o h, natLe16_of_lt h, BitVec.ofNat_toNat, BitVec.setWidth_eq]

/-- A signed 16-bit field by plain arithmetic. -/
theorem s16le_eq_signExtend (st : Store) {a : List Byte} {o : Nat} (h : o + 2 ≤ a.length) :
    s16le st a o = .ok (signExtend 16 (natLe16 a o)) := by
  rw [s16le_of_lt st a o h, natLe16_of_lt h, toInt_eq_signExtend (by decide)]

/-- A signed 32-bit field by plain arithmetic. -/
theorem s32le_eq_signExtend (st : Store) {a : List Byte} {o : Nat} (h : o + 4 ≤ a.length) :
    s32le st a o = .ok (signExtend 32 (natLe32 a o)) := by
  rw [s32le_of_lt st a o h, natLe32_of_lt h, toInt_eq_signExtend (by decide)]

/-! A subframe whose CRC holds. -/

/-- Inside a decode, a subframe whose CRC holds and whose act answers leaves what the act leaves, with the offset past
the subframe (44_subframe_parser.md R173). -/
theorem onPipe_subframeTurn {act : Cfg → List Byte → Pipe → Except Fault Pipe} {payload : List Byte} {crc : Half}
    {s : State} {w : Work} {q : Pipe} (hw : s.work = some w) (hcrc : crcGate s.cfg payload crc = true)
    (hact : act s.cfg payload ⟨s.dc, s.draws, w⟩ = .ok q) :
    onPipe (subframeTurn act payload crc) s = .next (s.withPipe (advance s.cfg payload q)) := by
  refine onPipe_inside _ s w _ hw ?_
  rw [subframeTurn, if_pos hcrc, hact]
  rfl

/-! SF_GPSPOS. -/

/-- The record after SF_GPSPOS: the six geographic fields from the raw components of the payload
(44_subframe_parser.md R181, R182). -/
def gpsRecord (c : Cfg) (payload : List Byte) (record : Record) : Record :=
  let x := signExtend 32 (natLe32 payload c.gpsXOff)
  let y := signExtend 32 (natLe32 payload c.gpsYOff)
  let z := signExtend 32 (natLe32 payload c.gpsZOff)
  let vx := signExtend 16 (natLe16 payload c.gpsVxOff)
  let vy := signExtend 16 (natLe16 payload c.gpsVyOff)
  let vz := signExtend 16 (natLe16 payload c.gpsVzOff)
  { record with
    lat := (Config.geoPos c.geoPos x y z).1
    lon := (Config.geoPos c.geoPos x y z).2.1
    alt := (Config.geoPos c.geoPos x y z).2.2
    speed := (Config.geoVel c.geoVel x y z vx vy vz).1
    heading := (Config.geoVel c.geoVel x y z vx vy vz).2.1
    climb := (Config.geoVel c.geoVel x y z vx vy vz).2.2 }

/-- SF_GPSPOS of at least the minimum length reads inside its payload and writes the record alone. -/
theorem gpsposAct_of_long {c : Cfg} (hc : LayoutBounds c) {payload : List Byte}
    (hlen : c.gpsposMinLen ≤ payload.length) (p : Pipe) :
    gpsposAct c payload p = .ok { p with w := { p.w with record := gpsRecord c payload p.w.record } } := by
  rw [gpsposAct, if_neg (not_lt.2 hlen), s32le_eq_signExtend _ (hc.gpsX.trans hlen), bind_of_ok,
    s32le_eq_signExtend _ (hc.gpsY.trans hlen), bind_of_ok, s32le_eq_signExtend _ (hc.gpsZ.trans hlen), bind_of_ok,
    s16le_eq_signExtend _ (hc.gpsVx.trans hlen), bind_of_ok, s16le_eq_signExtend _ (hc.gpsVy.trans hlen), bind_of_ok,
    s16le_eq_signExtend _ (hc.gpsVz.trans hlen), bind_of_ok]
  rfl

/-- Settles O52: the act of SF_GPSPOS writes the record alone, and the turn moves the offset. -/
theorem gpsSubframeResult : Obligations.GpsSubframeResult := by
  intro s w payload crc hw hd hl hcrc hlen
  exact onPipe_subframeTurn (act := gpsposAct) hw hcrc (gpsposAct_of_long (.of_ok hd hl) hlen _)

/-! The calibration merge and the burst-kill timer. -/

/-- A merge of a whole fragment answers: a number inside the block names a fragment inside it (44_subframe_parser.md
R178). -/
theorem calMerge_answers {c : Cfg} (hcal : c.calLen = c.calFragCount * c.calFragSize) (k : Byte) {data : List Byte}
    (hdata : data.length = c.calFragSize) (dc : Decoder) : ∃ dc', calMerge c k data dc = .ok dc' := by
  unfold calMerge
  split
  · exact ⟨dc, rfl⟩
  · have hfit : k.toNat * c.calFragSize + data.length ≤ c.calLen := by
      have hk : k.toNat + 1 ≤ c.calFragCount := not_le.1 ‹_›
      rw [hdata, hcal, ← Nat.succ_mul]
      exact Nat.mul_le_mul_right _ hk
    rw [calWrite, if_pos hfit]
    exact ⟨_, rfl⟩

/-- A range write into a canonical store, byte by byte. -/
theorem Memory.get_setRange {m : Memory} (hm : m.wf = true) (o : Nat) (bytes : List Byte) (a : Nat) :
    (m.setRange o bytes).get a = if o ≤ a ∧ a < o + bytes.length then bytes.getD (a - o) 0 else m.get a := by
  split
  · rename_i hin
    obtain ⟨i, rfl⟩ := Nat.exists_eq_add_of_le hin.1
    have hi : i < bytes.length := by omega
    rw [Memory.get_setRange_same m o bytes i bytes[i] hm (List.getElem?_eq_getElem hi)]
    simp [hi]
  · exact Memory.get_setRange_other _ _ _ _ (by omega)

/-- A merge of a whole fragment into a canonical block is R178's, byte by byte. -/
theorem calMerge_mergesFragment {c : Cfg} {k : Byte} {data : List Byte} {dc dc' : Decoder}
    (hwf : dc.cal.wf = true) (hdata : data.length = c.calFragSize) (h : calMerge c k data dc = .ok dc') :
    MergesFragment c k data dc dc' := by
  obtain ⟨hk, rfl⟩ | ⟨hk, -, rfl⟩ := calMerge_cases h
  · refine ⟨rfl, rfl, ?_⟩
    rw [if_neg (not_lt.2 hk)]
    exact ⟨fun _ => rfl, rfl, rfl⟩
  · refine ⟨by simp, by simp, ?_⟩
    rw [if_pos hk]
    refine ⟨fun a => ?_, by simp, by simp⟩
    rw [calCompleteCheck_cal, Memory.get_setRange hwf, hdata]

/-- BURSTKILL inside the calibration block answers R180's value. -/
theorem burstkill_eq_value {c : Cfg} (h : c.bkCalOffset + 2 ≤ c.calLen) (cal : Memory) :
    burstkill c cal = .ok (burstkillValue c cal) := by
  have hbytes : calRead c cal c.bkCalOffset 2 = .ok [cal.get c.bkCalOffset, cal.get (c.bkCalOffset + 1)] :=
    if_pos h
  rw [burstkill, hbytes, bind_of_ok, u16le_of_lt .cal [_, _] 0 (by simp), bind_of_ok]
  simp [burstkillValue, ← BitVec.toNat_inj, halfOfBytes_toNat]

/-! SF_STATUS. -/

/-- The record after SF_STATUS, from its payload and the Decoder's state after the merge (44_subframe_parser.md
R177). -/
def statusRecord (c : Cfg) (payload : List Byte) (dc : Decoder) (record : Record) : Record :=
  { record with
    serial := (payload.drop c.statusSerialOff).take c.serialLen
    seq := BitVec.ofNat 16 (natLe16 payload c.statusSeqOff)
    calibrated := dc.calibrated
    burstkill := burstkillValue c dc.cal }

/-- The fragment that a payload of SF_STATUS holds (44_subframe_parser.md R177). -/
def statusFragment (c : Cfg) (payload : List Byte) : List Byte :=
  (payload.drop c.statusFragDataOff).take c.calFragSize

/-- A payload of the minimum length holds a whole fragment. -/
theorem statusFragment_length {c : Cfg} (hc : LayoutBounds c) {payload : List Byte}
    (hlen : c.statusMinLen ≤ payload.length) : (statusFragment c payload).length = c.calFragSize := by
  have := hc.fragData
  rw [statusFragment, List.length_take, List.length_drop]
  omega

/-- SF_STATUS of at least the minimum length reads inside its payload, merges its fragment, and copies its fields and
the state after the merge. -/
theorem statusAct_of_long {c : Cfg} (hc : LayoutBounds c) {payload : List Byte}
    (hlen : c.statusMinLen ≤ payload.length) (p : Pipe) :
    ∃ dc, calMerge c (payload.getD c.statusFragSeqOff 0) (statusFragment c payload) p.dc = .ok dc ∧
      statusAct c payload p =
        .ok { p with dc := dc, w := { p.w with record := statusRecord c payload dc p.w.record } } := by
  have hk : c.statusFragSeqOff < payload.length := hc.fragSeq.trans_le hlen
  have hfrag : slice .payload payload c.statusFragDataOff c.calFragSize = .ok (statusFragment c payload) :=
    slice_of_le _ _ _ _ (hc.fragData.trans hlen)
  obtain ⟨dc, hdc⟩ :=
    calMerge_answers hc.calLen (payload.getD c.statusFragSeqOff 0) (statusFragment_length hc hlen) p.dc
  refine ⟨dc, hdc, ?_⟩
  rw [List.getD_eq_getElem _ _ hk] at hdc
  rw [statusAct, if_neg (not_lt.2 hlen), readAt_of_lt _ _ _ hk, bind_of_ok, hfrag, bind_of_ok, hdc, bind_of_ok,
    slice_of_le _ _ _ _ (hc.serial.trans hlen), bind_of_ok, u16le_eq_natLe16 _ (hc.seq.trans hlen), bind_of_ok,
    burstkill_eq_value hc.burstkill, bind_of_ok]
  rfl

/-- Settles O51: the act of SF_STATUS is a merge, byte by byte R178's in a canonical block, and a copy of the fields
after it; the turn moves the offset. -/
theorem statusSubframeResult : Obligations.StatusSubframeResult := by
  intro s w payload crc hw hd hl hwf hcrc hlen
  have hc : LayoutBounds s.cfg := .of_ok hd hl
  obtain ⟨dc, hmerge, hact⟩ := statusAct_of_long hc hlen ⟨s.dc, s.draws, w⟩
  exact ⟨dc, calMerge_mergesFragment hwf (statusFragment_length hc hlen) hmerge,
    onPipe_subframeTurn (act := statusAct) hw hcrc hact⟩

end Sys2Proof.Machine
end

section
/-! PROOFS. No step from a state that meets the invariant accesses anything out of bounds (NoOutOfBoundsAccess): under
the layout bounds every operation of a frame decode answers and keeps the frame's length, and every other operation
answers in any state. -/

namespace Sys2Proof.Machine

/-! The stages before the walk. -/

/-- The transform keeps the length of the frame (41_descrambler.md R130). -/
theorem descrambleFrom_length (c : Cfg) (i : Nat) (bytes : List Byte) :
    (descrambleFrom c i bytes).length = bytes.length := by
  induction bytes generalizing i with
  | nil => rfl
  | cons v rest ih => simp [descrambleFrom, ih]

/-- Every position of a Reed–Solomon block lies in the frame (30_encoding.md R74, 42_reed_solomon.md R143). -/
theorem blockPositions_lt {c : Cfg} (hc : LayoutBounds c) (ext : Bool) {b : Nat} (hb : b < c.rsIlv) :
    ∀ i ∈ blockPositions c (c.msgLen ext) b, i < c.frameLen := by
  intro i hi
  obtain hi | hi := List.mem_append.1 hi
  · obtain ⟨j, hj, rfl⟩ := List.mem_map.1 hi
    have hj : j < c.rsNroots := List.mem_range.1 hj
    have hblock : c.rsNroots * (b + 1) ≤ c.rsNroots * c.rsIlv := Nat.mul_le_mul_left _ hb
    have := hc.parity
    rw [Nat.mul_succ] at hblock
    omega
  · obtain ⟨j, hj, rfl⟩ := List.mem_map.1 hi
    have hrow : c.rsIlv * (j + 1) ≤ c.rsIlv * c.msgLen ext := Nat.mul_le_mul_left _ (List.mem_range.1 hj)
    have := hc.message ext
    rw [Nat.mul_succ] at hrow
    omega

/-- The working frame and the mode before correction, as the FEC stage needs and keeps them: a whole frame, and the
message length of a mode. -/
structure FecReady (c : Cfg) (w : Work) : Prop where
  frame : w.frm.length = c.frameLen
  message : ∃ ext, w.msgLen = c.msgLen ext

/-- A block of the FEC stage answers: it reads and writes its own positions alone. -/
theorem fecBlock_answers {c : Cfg} (hc : LayoutBounds c) {p : Pipe} (h : FecReady c p.w) {b : Nat} (hb : b < c.rsIlv) :
    ∃ q, fecBlock c p b = .ok q := by
  obtain ⟨ext, hext⟩ := h.message
  have hpos : ∀ i ∈ blockPositions c p.w.msgLen b, i < p.w.frm.length := by
    rw [hext, h.frame]
    exact blockPositions_lt hc ext hb
  have hwrites (bytes : List Byte) :
      ∃ frm, writeAll .frm p.w.frm ((blockPositions c p.w.msgLen b).zip bytes) = .ok frm :=
    writeAll_of_lt _ _ _ fun x hx => hpos x.1 (List.of_mem_zip hx).1
  obtain ⟨r, hr, -⟩ := readAll_of_lt .frm p.w.frm _ hpos
  rw [fecBlock, deinterleaveBlock, hr, bind_of_ok, pure_eq_ok, bind_of_ok]
  cases rsCorrect c p.w.msgLen (r ++ List.replicate (c.rsK - p.w.msgLen) 0) with
  | some cw =>
    obtain ⟨frm, hfrm⟩ := hwrites cw
    exact ⟨_, by simp only [reinterleaveBlock, hfrm]; rfl⟩
  | none =>
    obtain ⟨frm, hfrm⟩ := hwrites (drawBytes p.draws (blockPositions c p.w.msgLen b).length)
    exact ⟨_, by simp only [drawBlock, hfrm]; rfl⟩

/-- A block of the FEC stage keeps the frame's length and the message length. -/
theorem FecReady.fecBlock {c : Cfg} {p q : Pipe} {b : Nat} (h : FecReady c p.w) (hq : fecBlock c p b = .ok q) :
    FecReady c q.w := by
  obtain ⟨r, -, ⟨cw, frm, -, hfrm, rfl⟩ | ⟨frm, -, hfrm, rfl⟩⟩ := fecBlock_cases hq <;>
    exact ⟨(writeAll_frame hfrm).1.trans h.frame, h.message⟩

/-- The blocks of the FEC stage answer, and keep what each of them keeps. -/
theorem fecBlocks_answers {c : Cfg} (hc : LayoutBounds c) {bs : List Nat} (hbs : ∀ b ∈ bs, b < c.rsIlv) {p : Pipe}
    (h : FecReady c p.w) : ∃ q, fecBlocks c bs p = .ok q ∧ FecReady c q.w := by
  induction bs generalizing p with
  | nil => exact ⟨p, rfl, h⟩
  | cons b bs ih =>
    obtain ⟨p', hp'⟩ := fecBlock_answers hc h (hbs b List.mem_cons_self)
    obtain ⟨q, hq, hready⟩ := ih (fun b' hb' => hbs b' (List.mem_cons_of_mem _ hb')) (h.fecBlock hp')
    exact ⟨q, (bind_ok_iff _ _ _).2 ⟨p', hp', hq⟩, hready⟩

/-- The frame-type byte of a whole frame is read. -/
theorem isExtended_answers {c : Cfg} (hc : LayoutBounds c) {frm : List Byte} (h : frm.length = c.frameLen) :
    ∃ ext, isExtended c frm = .ok ext := by
  rw [isExtended, readAt_of_lt _ _ _ (h ▸ hc.ftype), bind_of_ok]
  exact ⟨_, rfl⟩

/-- The FEC stage of a whole frame answers, and leaves a whole frame. -/
theorem fecStageOp_answers {c : Cfg} (hc : LayoutBounds c) {p : Pipe} (h : p.w.frm.length = c.frameLen) :
    ∃ q, fecStageOp c p = .ok q ∧ q.w.frm.length = c.frameLen := by
  obtain ⟨ext, hext⟩ := isExtended_answers hc h
  obtain ⟨q, hq, hready⟩ := fecBlocks_answers hc (bs := List.range c.rsIlv) (fun _ => List.mem_range.1)
    (p := { p with w := setModePre c ext p.w }) ⟨h, ext, rfl⟩
  refine ⟨_, (bind_ok_iff _ _ _).2 ⟨ext, hext, (bind_ok_iff _ _ _).2 ⟨q, hq, rfl⟩⟩, hready.frame⟩

/-- MODE of a whole frame answers, and leaves a region inside the frame (44_subframe_parser.md R172). -/
theorem modeOp_answers {c : Cfg} (hc : LayoutBounds c) {p : Pipe} (h : p.w.frm.length = c.frameLen) :
    ∃ q, modeOp c p = .ok q ∧ RegionFits c q.w := by
  obtain ⟨ext, hext⟩ := isExtended_answers hc h
  refine ⟨_, (bind_ok_iff _ _ _).2 ⟨ext, hext, rfl⟩, ?_⟩
  exact (hc.region ext).trans h.ge

/-! The walk. -/

/-- What a subframe does, it does inside its payload and inside the calibration block. -/
theorem actOf_answers {c : Cfg} (hc : LayoutBounds c) (k : SubKind) (payload : List Byte) (p : Pipe) :
    ∃ q, actOf k c payload p = .ok q := by
  cases k with
  | status =>
    by_cases hlen : payload.length < c.statusMinLen
    · exact ⟨p, if_pos hlen⟩
    · obtain ⟨dc, -, hact⟩ := statusAct_of_long hc (not_lt.1 hlen) p
      exact ⟨_, hact⟩
  | gpspos =>
    by_cases hlen : payload.length < c.gpsposMinLen
    · exact ⟨p, if_pos hlen⟩
    · exact ⟨_, gpsposAct_of_long hc (not_lt.1 hlen) p⟩
  | ptu | gpsinfo | gpsraw | xdata | empty | unknown => exact ⟨p, rfl⟩

/-- One turn of the walk answers. -/
theorem subframeTurn_answers {c : Cfg} (hc : LayoutBounds c) (k : SubKind) (payload : List Byte) (crc : Half)
    (p : Pipe) : ∃ q, subframeTurn (actOf k) payload crc c p = .ok q := by
  unfold subframeTurn
  split
  · obtain ⟨q, hq⟩ := actOf_answers hc k payload p
    exact ⟨_, by rw [hq]; rfl⟩
  · exact ⟨_, rfl⟩

/-- Where the region lies in the frame, the walk's fetch answers: the overhead covers the CRC. -/
theorem fetchSubframe_answers {c : Cfg} (hc : LayoutBounds c) {w : Work} (h : RegionFits c w) :
    ∃ found, fetchSubframe c w = .ok found := by
  have hreg := region_of_fits h
  cases hd : decodeSubframe c (((w.frm.drop c.dataOff).take w.regionLen).drop w.off) with
  | ok found => exact ⟨_, fetchSubframe_of_ok hreg hd⟩
  | error e =>
    cases e with
    | noHeader => exact ⟨none, fetchSubframe_of_end hreg (.inl hd)⟩
    | beyondRegion => exact ⟨none, fetchSubframe_of_end hreg (.inr hd)⟩
    | noCrc => exact absurd hd (decodeSubframe_ne_noCrc hc.overhead _)

/-- The turns of the walk come to an end when the fuel is enough for a turn at every offset that is left: each moves the
offset on (44_subframe_parser.md R192). -/
theorem walkLoop_answers {c : Cfg} (hc : LayoutBounds c) (fuel : Nat) {p : Pipe} (hfits : RegionFits c p.w)
    (hin : p.w.off ≤ p.w.regionLen) (hfuel : p.w.regionLen < p.w.off + fuel) :
    ∃ q, walkLoop c fuel p = .ok q := by
  induction fuel generalizing p with
  | zero => exact absurd hfuel (not_lt.2 hin)
  | succ fuel ih =>
    rw [walkLoop]
    obtain ⟨found, hfound⟩ := fetchSubframe_answers hc hfits
    rw [hfound, bind_of_ok]
    cases found with
    | none => exact ⟨p, rfl⟩
    | some sf =>
      have hend := fetchSubframe_fits hfound
      have hover := hc.overhead
      obtain ⟨p', hp'⟩ := subframeTurn_answers hc (subKind c sf.tag) sf.payload sf.crc p
      obtain ⟨dc, record, rfl⟩ := subframeTurn_frame hp'
      obtain ⟨q, hq⟩ := ih (p := { p with dc := dc, w := { p.w with record := record, off := _ } }) hfits hend
        (by simp only; omega)
      exact ⟨q, (bind_ok_iff _ _ _).2 ⟨_, hp', hq⟩⟩

/-- The walk of a region inside the frame answers. -/
theorem walkOp_answers {c : Cfg} (hc : LayoutBounds c) {p : Pipe} (hfits : RegionFits c p.w) :
    ∃ q, walkOp c p = .ok q := by
  obtain ⟨q, hq⟩ := walkLoop_answers hc (p.w.regionLen + 1) (p := { p with w := { p.w with off := 0 } }) hfits
    (Nat.zero_le _) (by simp)
  exact ⟨_, (bind_ok_iff _ _ _).2 ⟨q, hq, rfl⟩⟩

/-! The steps of the block. -/

/-- The whole pipeline of a frame of full length answers. -/
theorem decodePipeline_answers {c : Cfg} (hc : LayoutBounds c) {p : Pipe} (h : p.w.frm.length = c.frameLen) :
    ∃ q, decodePipeline c p = .ok q := by
  obtain ⟨p2, h2, hlen⟩ := fecStageOp_answers hc
    (p := { p with w := { p.w with frm := descrambleFrom c 0 p.w.frm, stage := .fec } })
    ((descrambleFrom_length _ _ _).trans h)
  obtain ⟨p3, h3, hfits⟩ := modeOp_answers hc hlen
  obtain ⟨q, hq⟩ := walkOp_answers hc hfits
  refine ⟨q, (bind_ok_iff _ _ _).2 ⟨_, rfl, ?_⟩⟩
  exact (bind_ok_iff _ _ _).2 ⟨p2, h2, (bind_ok_iff _ _ _).2 ⟨p3, h3, hq⟩⟩

/-- DEC_FRAME with a frame to take that the pipeline can decode. -/
theorem execDecFrame_of_pipeline {s : State} {f : QFrame} {rest : List QFrame} {p : Pipe}
    (hrun : s.dc.stage = .running) (hq : s.q.items = f :: rest)
    (hp : decodePipeline s.cfg ⟨s.dc, s.draws, startWork s.cfg f.frame⟩ = .ok p) :
    execDecFrame s =
      .next (deliver (((s.setQ { s.q with items := rest }).setDc p.dc).setDraws p.draws) p.w.record) := by
  have henabled : decFrameEnabled s = true := by simp [decFrameEnabled, hrun, hq]
  simp only [execDecFrame, henabled, if_true, hq, hp]

/-- DEC_FRAME answers from a state that meets the invariant: it waits, or the frame that it takes has full length. -/
theorem Inv.execDecFrame_answers {s : State} (h : Inv s) (hl : s.cfg.decoderOk = true → s.cfg.layoutOk = true) :
    ∃ t, Machine.execDecFrame s = .next t := by
  cases hen : decFrameEnabled s with
  | false => exact ⟨s, by simp [Machine.execDecFrame, hen]⟩
  | true =>
    obtain ⟨hrun, hne⟩ : s.dc.stage = .running ∧ s.q.items ≠ [] := by simpa [decFrameEnabled] using hen
    obtain ⟨f, rest, hq⟩ := List.exists_cons_of_ne_nil hne
    have hd := h.decoder.runningOk hrun
    have hlen : f.frame.length = s.cfg.frameLen := h.link.frames f (hq ▸ List.mem_cons_self)
    obtain ⟨p, hp⟩ :=
      decodePipeline_answers (.of_ok hd (hl hd)) (p := ⟨s.dc, s.draws, startWork s.cfg f.frame⟩) hlen
    exact ⟨_, execDecFrame_of_pipeline hrun hq hp⟩

/-- The Framer's steps answer in every state. -/
theorem exec_framerSteps_answers {i : Instr} (hi : i ∈ framerSteps) (s : State) : ∃ t, exec i s = .next t := by
  obtain rfl | rfl | rfl | rfl | rfl := (mem_framerSteps i).1 hi <;> simp only [exec]
  · unfold execFrPull
    split
    · split <;> exact ⟨_, rfl⟩
    · exact ⟨_, rfl⟩
  · unfold execFrReadFail
    split <;> exact ⟨_, rfl⟩
  · unfold execFrCorrelate
    split <;> exact ⟨_, rfl⟩
  · unfold execFrEmit
    split <;> exact ⟨_, rfl⟩
  · unfold execFrPublishFail
    split <;> exact ⟨_, rfl⟩

/-- The host operations answer in every state: a refused one changes nothing (45_stage_control.md R208). -/
theorem exec_hostOp_answers (op : HostOp) (s : State) : ∃ t, exec op.toInstr s = .next t := by
  cases op with
  | push | pushEnd | closeOutput | quiesceFramer | quiesceDecoder => exact ⟨_, rfl⟩
  | reset cfg =>
    simp only [HostOp.toInstr, exec, execReset]
    split <;> exact ⟨_, rfl⟩
  | rebindFramer =>
    simp only [HostOp.toInstr, exec, execRebindFramer]
    split <;> exact ⟨_, rfl⟩
  | resumeFramer =>
    simp only [HostOp.toInstr, exec, execResumeFramer]
    split <;> exact ⟨_, rfl⟩
  | resumeDecoder =>
    simp only [HostOp.toInstr, exec, execResumeDecoder]
    split <;> exact ⟨_, rfl⟩

/-- The Framer's turn answers in every state. -/
theorem framerTurn_answers (s : State) : ∃ t, framerTurn s = .next t := by
  cases hi : framerStep s with
  | none => exact ⟨s, by simp only [framerTurn, hi]⟩
  | some i => exact framerTurn_of_step hi ▸ exec_framerSteps_answers (framerStep_mem hi) s

/-- A turn of RUN answers where DEC_FRAME does, whatever the counter. -/
theorem runTurn_answers {s : State} (rest : List Event) (hdec : ∀ n, ∃ t, execDecFrame (s.setDraws n) = .next t) :
    ∃ t, runTurn rest s = .next t := by
  by_cases h : framerStep s ≠ none ∨ decFrameEnabled s = true
  · obtain ⟨i, n, hi | ⟨rfl, -⟩, hrun⟩ := runTurn_runs rest h
    · exact hrun ▸ exec_framerSteps_answers (framerStep_mem hi) _
    · exact hrun ▸ hdec n
  · obtain ⟨hf, hd⟩ : framerStep s = none ∧ decFrameEnabled s = false := by simpa using h
    exact ⟨_, runTurn_done rest hf hd⟩

/-- Settles O9: by the next event; DEC_FRAME alone reads the stores, and there the Decoder runs, so the layout bounds
hold. -/
theorem noOutOfBoundsAccess : Obligations.NoOutOfBoundsAccess := by
  intro s h hl
  unfold SafeStep
  match ha : s.agenda with
  | [] => exact ⟨s, by simp only [step, h.noWork, ha]⟩
  | .framer :: rest => exact step_framer h.noWork ha ▸ framerTurn_answers _
  | .decoder :: rest => exact step_decoder h.noWork ha ▸ (h.setAgenda rest).execDecFrame_answers hl
  | .host op :: rest => exact step_host h.noWork ha ▸ exec_hostOp_answers op _
  | .run :: rest => exact step_run h.noWork ha ▸ runTurn_answers rest fun n => (h.setDraws n).execDecFrame_answers hl

end Sys2Proof.Machine
end

section
/-! PROOFS. Packing and intake undo each other (PackingMirrorsIntake): a byte is its eight bits, most significant bit
first, and both directions go on eight bits at a time. -/

namespace Sys2Proof.Machine

/-- The bits of a byte, most significant first, are its value. -/
theorem bitsVal_bitsOf (v : Byte) : bitsVal (bitsOf v) = v.toNat := by
  have shift (k : Nat) : 2 * (v.toNat / 2 ^ (k + 1)) + (v.getLsbD k).toNat = v.toNat / 2 ^ k := by
    rw [BitVec.getLsbD, Nat.toNat_testBit, Nat.pow_succ, ← Nat.div_div_eq_div_mul, Nat.div_add_mod]
  have top : 2 * 0 + (v.getLsbD 7).toNat = v.toNat / 2 ^ 7 := by
    rw [← shift 7, Nat.div_eq_of_lt v.isLt]
  simp only [bitsVal, bitsOf, List.foldl_cons, List.foldl_nil]
  rw [top, shift 6, shift 5, shift 4, shift 3, shift 2, shift 1, shift 0, Nat.pow_zero, Nat.div_one]

/-- Eight bits are the bits of the byte whose value they are. -/
theorem bitsOf_bitsVal : ∀ b7 b6 b5 b4 b3 b2 b1 b0 : Bool,
    bitsOf (BitVec.ofNat 8 (bitsVal [b7, b6, b5, b4, b3, b2, b1, b0])) = [b7, b6, b5, b4, b3, b2, b1, b0] := by
  decide

/-- Packing takes the first eight bits as the bits of one byte. -/
theorem pack_bitsOf_append (v : Byte) (b : Bits) : pack (bitsOf v ++ b) = v :: pack b := by
  change BitVec.ofNat 8 (bitsVal (bitsOf v)) :: pack b = v :: pack b
  rw [bitsVal_bitsOf, BitVec.ofNat_toNat, BitVec.setWidth_eq]

/-- The bits of a byte list are the first byte's and then the others'. -/
theorem bitsOfBytes_cons (v : Byte) (bytes : List Byte) : bitsOfBytes (v :: bytes) = bitsOf v ++ bitsOfBytes bytes :=
  List.flatMap_cons

/-- Packing the bits of a byte list gives the byte list. -/
theorem pack_bitsOfBytes (bytes : List Byte) : pack (bitsOfBytes bytes) = bytes := by
  induction bytes with
  | nil => rfl
  | cons v bytes ih => rw [bitsOfBytes_cons, pack_bitsOf_append, ih]

/-- The bits of the bytes that whole groups of eight bits are packed into are those bits. -/
theorem bitsOfBytes_pack : ∀ b : Bits, b.length % 8 = 0 → bitsOfBytes (pack b) = b
  | b7 :: b6 :: b5 :: b4 :: b3 :: b2 :: b1 :: b0 :: rest, h => by
    have hrest : rest.length % 8 = 0 := by
      simp only [List.length_cons] at h
      omega
    rw [pack, bitsOfBytes_cons, bitsOf_bitsVal, bitsOfBytes_pack rest hrest]
    rfl
  | [], _ => rfl
  | [_], h | [_, _], h | [_, _, _], h | [_, _, _, _], h | [_, _, _, _, _], h | [_, _, _, _, _, _], h
  | [_, _, _, _, _, _, _], h => by simp at h

/-- Settles O22: packing is the inverse of the bits of a byte list on whole bytes. -/
theorem packingMirrorsIntake : Obligations.PackingMirrorsIntake := ⟨pack_bitsOfBytes, bitsOfBytes_pack⟩

end Sys2Proof.Machine
end

section
/-! PROOFS. What a step does to Q and IN (LinksAreFifos): each operation moves the two links in one of a few ways, and a
step between decodes is one operation. -/

namespace Sys2Proof.Machine

/-- How a step may move Q: not at all, by a frame appended and recorded in FTRACE, or by its head consumed for one
record (20_memory.md R57, R59). -/
def LinkMove (s t : State) : Prop :=
  (t.q.items = s.q.items ∧ t.recs = s.recs ∧ t.ftrace = s.ftrace) ∨
    (∃ f off, t.q.items = s.q.items ++ [f] ∧ t.recs = s.recs ∧ t.ftrace = s.ftrace ++ [⟨f.frame, f.inv, off⟩]) ∨
    (∃ f r, s.q.items = f :: t.q.items ∧ t.recs = s.recs ++ [(r, s.cfg.handlerCtx)] ∧ t.ftrace = s.ftrace)

/-- How a step other than REBIND may move IN: by items appended, none included, or by its head taken (20_memory.md
R57). -/
def InputMove (s t : State) : Prop := (∃ xs, t.inp = s.inp ++ xs) ∨ ∃ x, s.inp = x :: t.inp

/-- Q and the two traces as they were. -/
theorem LinkMove.none {s t : State} (hq : t.q.items = s.q.items) (hrecs : t.recs = s.recs)
    (hftrace : t.ftrace = s.ftrace) : LinkMove s t := .inl ⟨hq, hrecs, hftrace⟩

/-- IN as it was. -/
theorem InputMove.none {s t : State} (h : t.inp = s.inp) : InputMove s t := .inl ⟨[], by rw [h, List.append_nil]⟩

/-- The Framer's steps: FR_PULL and FR_READ_FAIL take the head of IN, FR_EMIT publishes. -/
theorem exec_framerSteps_moves {i : Instr} {s t : State} (hi : i ∈ framerSteps) (h : exec i s = .next t) :
    LinkMove s t ∧ InputMove s t := by
  obtain rfl | rfl | rfl | rfl | rfl := (mem_framerSteps i).1 hi
  · obtain ⟨-, rfl⟩ | ⟨v, rest, -, -, hin, rfl⟩ := execFrPull_next h
    · exact ⟨.none rfl rfl rfl, .none rfl⟩
    · exact ⟨.none rfl rfl rfl, .inr ⟨_, hin⟩⟩
  · obtain ⟨-, rfl⟩ | ⟨rest, -, -, hin, rfl⟩ := execFrReadFail_next h
    · exact ⟨.none rfl rfl rfl, .none rfl⟩
    · exact ⟨.none rfl rfl rfl, .inr ⟨_, hin⟩⟩
  · obtain ⟨-, rfl⟩ | ⟨-, -, -, rfl⟩ := execFrCorrelate_next h <;> exact ⟨.none rfl rfl rfl, .none rfl⟩
  · obtain ⟨-, rfl⟩ | ⟨-, -, -, -, rfl⟩ := execFrEmit_next h
    · exact ⟨.none rfl rfl rfl, .none rfl⟩
    · exact ⟨.inr (.inl ⟨⟨_, _⟩, _, rfl, rfl, rfl⟩), .none rfl⟩
  · obtain ⟨-, rfl⟩ | ⟨-, -, -, rfl⟩ := execFrPublishFail_next h <;> exact ⟨.none rfl rfl rfl, .none rfl⟩

/-- DEC_FRAME consumes the head of Q for one record, or waits. -/
theorem execDecFrame_moves {s t : State} (h : execDecFrame s = .next t) : LinkMove s t ∧ InputMove s t := by
  obtain ⟨-, rfl⟩ | ⟨f, rest, p, -, hq, -, rfl⟩ := execDecFrame_next h
  · exact ⟨.none rfl rfl rfl, .none rfl⟩
  · exact ⟨.inr (.inr ⟨f, p.w.record, hq, rfl, rfl⟩), .none rfl⟩

/-- The host operations other than RESET leave the frames of Q alone; PUSH and PUSH_END append to IN, and REBIND FRAMER
alone may empty it (45_stage_control.md R200 to R206). -/
theorem exec_hostOp_moves {op : HostOp} {s t : State} (hop : ∀ cfg, op ≠ .reset cfg)
    (h : exec op.toInstr s = .next t) :
    LinkMove s t ∧ (InputMove s t ∨ (t.inp = [] ∧ op = .rebindFramer)) := by
  cases op with
  | reset cfg => exact absurd rfl (hop cfg)
  | push | pushEnd =>
    cases h
    exact ⟨.none rfl rfl rfl, .inl (.inl ⟨_, rfl⟩)⟩
  | closeOutput | quiesceFramer | quiesceDecoder =>
    cases h
    exact ⟨.none rfl rfl rfl, .inl (.none rfl)⟩
  | rebindFramer =>
    obtain ⟨-, rfl⟩ | ⟨-, rfl⟩ := execRebindFramer_next h
    · exact ⟨.none rfl rfl rfl, .inl (.none rfl)⟩
    · exact ⟨.none rfl rfl rfl, .inr ⟨rfl, rfl⟩⟩
  | resumeFramer =>
    obtain ⟨-, rfl⟩ | ⟨-, rfl⟩ := execResumeFramer_next h <;> exact ⟨.none rfl rfl rfl, .inl (.none rfl)⟩
  | resumeDecoder =>
    obtain ⟨-, rfl⟩ | ⟨-, -, rfl⟩ := execResumeDecoder_next h <;> exact ⟨.none rfl rfl rfl, .inl (.none rfl)⟩

/-- Everything a step between decodes that is no RESET can do to Q and IN. -/
theorem step_moves {s t : State} (hw : s.work = none) (hn : NoResetNext s) (h : step s = .next t) :
    LinkMove s t ∧ (InputMove s t ∨ (t.inp = [] ∧ ∃ rest, s.agenda = .host .rebindFramer :: rest)) := by
  have agent (hmoves : LinkMove s t ∧ InputMove s t) :
      LinkMove s t ∧ (InputMove s t ∨ (t.inp = [] ∧ ∃ rest, s.agenda = .host .rebindFramer :: rest)) :=
    hmoves.imp_right .inl
  have idle (hq : t.q.items = s.q.items) (hrecs : t.recs = s.recs) (hftrace : t.ftrace = s.ftrace)
      (hinp : t.inp = s.inp) := agent ⟨.none hq hrecs hftrace, .none hinp⟩
  obtain ⟨w, hw', -⟩ | ⟨-, ⟨-, rfl⟩ | ⟨rest, -, h⟩ | ⟨rest, -, h⟩ | ⟨op, rest, ha, h⟩ | ⟨rest, -, h⟩⟩ := step_next h
  · cases hw.symm.trans hw'
  · exact idle rfl rfl rfl rfl
  · unfold framerTurn at h
    split at h
    · exact agent (exec_framerSteps_moves (s := s.setAgenda rest) (framerStep_mem ‹_›) h)
    · cases h
      exact idle rfl rfl rfl rfl
  · exact agent (execDecFrame_moves (s := s.setAgenda rest) h)
  · obtain ⟨hlink, hinput⟩ := exec_hostOp_moves (hn.ne_reset ha) h
    exact ⟨hlink, hinput.imp_right fun ⟨hempty, hop⟩ => ⟨hempty, rest, hop ▸ ha⟩⟩
  · obtain ⟨-, -, rfl⟩ | ⟨i, n, hi, h⟩ | ⟨-, n, h⟩ := runTurn_next h
    · exact idle rfl rfl rfl rfl
    · exact agent (exec_framerSteps_moves (s := s.setDraws n) (framerStep_mem hi) h)
    · exact agent (execDecFrame_moves (s := s.setDraws n) h)

/-- Settles O30: by the kind of the step. -/
theorem linksAreFifos : Obligations.LinksAreFifos := by
  intro s t hw hn h
  obtain ⟨hlink, hinput⟩ := step_moves hw hn h
  exact ⟨hlink, or_assoc.1 hinput⟩

end Sys2Proof.Machine
end

section
/-! PROOFS. Enabled steps of the two agents commute (AgentStepsCommute): the Decoder takes the head of Q, the Framer
appends to its tail, and beside Q they share nothing that either of them writes. -/

namespace Sys2Proof.Machine

/-- `s` after DEC_FRAME has taken the head of Q and its pipeline has ended in `p` (44_subframe_parser.md R170). -/
def State.consumed (s : State) (p : Pipe) : State :=
  deliver (((s.setQ { s.q with items := s.q.items.tail }).setDc p.dc).setDraws p.draws) p.w.record

/-- DEC_FRAME that is enabled has a frame that its pipeline decodes, and leaves the state after that. -/
theorem execDecFrame_enabled_next {s t : State} (hen : decFrameEnabled s = true) (h : execDecFrame s = .next t) :
    ∃ f rest p, s.dc.stage = .running ∧ s.q.items = f :: rest ∧
      decodePipeline s.cfg ⟨s.dc, s.draws, startWork s.cfg f.frame⟩ = .ok p ∧ t = s.consumed p := by
  obtain ⟨hdis, -⟩ | ⟨f, rest, p, hrun, hq, hp, rfl⟩ := execDecFrame_next h
  · cases hen.symm.trans hdis
  · exact ⟨f, rest, p, hrun, hq, hp, by rw [State.consumed, hq]; rfl⟩

/-! The Framer's step after the Decoder's. -/

/-- The Framer's enabled step is enabled in another state where its five conditions hold as before: the first three
alike, room for a frame still there, and a closed output still closed. -/
theorem framerStep_of_conditions {s b : State} {i : Instr} (hpull : frPullEnabled b = frPullEnabled s)
    (hread : frReadFailEnabled b = frReadFailEnabled s) (hcorr : frCorrelateEnabled b = frCorrelateEnabled s)
    (hemit : frEmitEnabled s = true → frEmitEnabled b = true)
    (hfail : frPublishFailEnabled s = true → frEmitEnabled b = false ∧ frPublishFailEnabled b = true)
    (h : framerStep s = some i) : framerStep b = some i := by
  unfold framerStep at h ⊢
  rw [hpull, hread, hcorr]
  by_cases h1 : frPullEnabled s = true
  · rwa [if_pos h1] at h ⊢
  by_cases h2 : frReadFailEnabled s = true
  · rwa [if_neg h1, if_pos h2] at h ⊢
  by_cases h3 : frCorrelateEnabled s = true
  · rwa [if_neg h1, if_neg h2, if_pos h3] at h ⊢
  rw [if_neg h1, if_neg h2, if_neg h3] at h ⊢
  by_cases h4 : frEmitEnabled s = true
  · rw [if_pos h4] at h
    rwa [if_pos (hemit h4)]
  by_cases h5 : frPublishFailEnabled s = true
  · obtain ⟨hopen, hclosed⟩ := hfail h5
    rw [if_neg h4, if_pos h5] at h
    rwa [if_neg (by simp [hopen]), if_pos hclosed]
  · rw [if_neg h4, if_neg h5] at h
    cases h

/-- A frame consumed leaves FR_EMIT enabled: there is only more room in Q. -/
theorem frEmitEnabled_consumed {s : State} (p : Pipe) (h : frEmitEnabled s = true) :
    frEmitEnabled (s.consumed p) = true := by
  obtain ⟨hs, hr, hopen, hroom⟩ := (frEmitEnabled_iff s).1 h
  have hroom' : s.q.items.tail.length < s.cfg.fifoDepth := by
    rw [List.length_tail]
    omega
  exact (frEmitEnabled_iff _).2 ⟨hs, hr, hopen, hroom'⟩

/-- A frame consumed leaves the Framer's step enabled. -/
theorem framerStep_consumed {s : State} {i : Instr} (p : Pipe) (h : framerStep s = some i) :
    framerStep (s.consumed p) = some i := by
  refine framerStep_of_conditions (s := s) rfl rfl rfl (frEmitEnabled_consumed p) (fun hfail => ⟨?_, hfail⟩) h
  obtain ⟨-, -, hclosed⟩ := (frPublishFailEnabled_iff s).1 hfail
  refine Bool.eq_false_of_not_eq_true fun hemit => ?_
  obtain ⟨-, -, hopen, -⟩ := (frEmitEnabled_iff _).1 hemit
  cases hclosed.symm.trans hopen

/-- The Framer's enabled step leads from the state after a frame is consumed to where consuming it afterwards leads. -/
theorem exec_framerStep_consumed {s a : State} {i : Instr} (p : Pipe) (hne : s.q.items ≠ [])
    (hi : framerStep s = some i) (ha : exec i s = .next a) : exec i (s.consumed p) = .next (a.consumed p) := by
  obtain ⟨rfl, hen⟩ | ⟨rfl, hen⟩ | ⟨rfl, hen⟩ | ⟨rfl, hen⟩ | ⟨rfl, hen⟩ := framerStep_cases hi
  · obtain ⟨-, -, v, rest, hin⟩ := (frPullEnabled_iff s).1 hen
    have hen' : frPullEnabled (s.consumed p) = true := hen
    have hin' : (s.consumed p).inp = .byte v :: rest := hin
    simp only [exec, execFrPull, hen, hin, if_true] at ha
    cases ha
    simp only [exec, execFrPull, hen', hin', if_true]
    rfl
  · cases (show execFrReadFail s = _ from if_pos hen).symm.trans ha
    exact if_pos hen
  · cases (show execFrCorrelate s = _ from if_pos hen).symm.trans ha
    exact if_pos hen
  · cases (show execFrEmit s = _ from if_pos hen).symm.trans ha
    refine (show execFrEmit (s.consumed p) = _ from if_pos (frEmitEnabled_consumed p hen)).trans ?_
    simp only [State.consumed, State.setFr_q, State.setFtrace_q, State.setQ_q, publish,
      List.tail_append_of_ne_nil hne]
    rfl
  · cases (show execFrPublishFail s = _ from if_pos hen).symm.trans ha
    exact if_pos hen

/-! The Decoder's step after the Framer's. -/

/-- A Framer step appends to Q at most, and leaves what DEC_FRAME reads beside it. -/
theorem exec_framerSteps_decoderInput {i : Instr} {s t : State} (hi : i ∈ framerSteps) (h : exec i s = .next t) :
    (∃ fs, t.q.items = s.q.items ++ fs) ∧ t.draws = s.draws := by
  obtain rfl | rfl | rfl | rfl | rfl := (mem_framerSteps i).1 hi
  · obtain ⟨-, rfl⟩ | ⟨v, rest, -, -, -, rfl⟩ := execFrPull_next h <;> exact ⟨⟨[], by simp⟩, rfl⟩
  · obtain ⟨-, rfl⟩ | ⟨rest, -, -, -, rfl⟩ := execFrReadFail_next h <;> exact ⟨⟨[], by simp [raiseError]⟩, rfl⟩
  · obtain ⟨-, rfl⟩ | ⟨-, -, -, rfl⟩ := execFrCorrelate_next h <;> exact ⟨⟨[], by simp⟩, rfl⟩
  · obtain ⟨-, rfl⟩ | ⟨-, -, -, -, rfl⟩ := execFrEmit_next h
    · exact ⟨⟨[], by simp⟩, rfl⟩
    · exact ⟨⟨_, rfl⟩, rfl⟩
  · obtain ⟨-, rfl⟩ | ⟨-, -, -, rfl⟩ := execFrPublishFail_next h <;> exact ⟨⟨[], by simp [raiseError]⟩, rfl⟩

/-- Settles O25: after the Framer's step DEC_FRAME takes the same frame, and after DEC_FRAME the Framer's step is still
enabled and does what it did before. -/
theorem agentStepsCommute : Obligations.AgentStepsCommute := by
  intro s a b i hi hen ha hb
  obtain ⟨f, rest, p, hrun, hq, hp, rfl⟩ := execDecFrame_enabled_next hen hb
  obtain ⟨hcfg, hdc⟩ := exec_framerSteps_frame (framerStep_mem hi) ha
  obtain ⟨⟨fs, hfs⟩, hdraws⟩ := exec_framerSteps_decoderInput (framerStep_mem hi) ha
  have hq' : a.q.items = f :: (rest ++ fs) := by rw [hfs, hq, List.cons_append]
  have hrun' : a.dc.stage = .running := by rw [hdc, hrun]
  have hen' : decFrameEnabled a = true := by simp [decFrameEnabled, hrun', hq']
  have hdec : execDecFrame a = .next (a.consumed p) := by
    rw [execDecFrame_of_pipeline hrun' hq' (p := p) (by rw [hcfg, hdc, hdraws, hp]), State.consumed, hq']
    rfl
  exact ⟨hen', framerStep_consumed p hi, a.consumed p, hdec,
    exec_framerStep_consumed p (by simp [hq]) hi ha⟩

end Sys2Proof.Machine
end

section
/-! PROOFS. The subframe's decoder and encoder undo each other (SubframeDecodeOfEncode, SubframeEncodeOfDecode), and the
rows that tags and whole words select (EveryTagSelectsItsRow, WordsDecodeToTheirRows): a subframe is read back field by
field, and its row and its tag determine each other. -/

namespace Sys2Proof

/-! The bytes of a `u16` (20_memory.md R55). -/

/-- The two bytes of a `u16` give it back. -/
theorem halfOfBytes_low_high (h : Half) : halfOfBytes (lowByte h) (highByte h) = h :=
  BitVec.extractLsb'_append_extractLsb'

/-- The low byte of a `u16` is the byte of the lower address. -/
theorem lowByte_halfOfBytes (lo hi : Byte) : lowByte (halfOfBytes lo hi) = lo :=
  BitVec.extractLsb'_append_eq_right

/-- The high byte of a `u16` is the byte of the higher address. -/
theorem highByte_halfOfBytes (lo hi : Byte) : highByte (halfOfBytes lo hi) = hi :=
  BitVec.extractLsb'_append_eq_left

/-! The fields of a subframe (30_encoding.md R75). -/

/-- The length byte of a payload that fits it is the payload's length. -/
theorem lengthByte_toNat {payload : List Byte} (h : payloadFits payload = true) :
    (BitVec.ofNat 8 payload.length).toNat = payload.length :=
  (BitVec.toNat_ofNat _ _).trans (Nat.mod_eq_of_lt (Nat.lt_succ_of_le (of_decide_eq_true h)))

/-- With R75's overhead the decoder reads back the fields that the encoder writes, and leaves what follows them. -/
theorem decodeSubframe_encodeSubframe {c : Cfg} (hc : c.sfOverhead = 4) (sf : Subframe)
    (h : payloadFits sf.payload = true) (rest : List Byte) :
    decodeSubframe c (encodeSubframe sf ++ rest) = .ok (sf, rest) := by
  have hlen := lengthByte_toNat h
  have hfits : ¬ (encodeSubframe sf ++ rest).length < sf.payload.length + 4 := by
    simp [encodeSubframe]
  have hafter : (encodeSubframe sf ++ rest).drop (sf.payload.length + 4) = rest :=
    List.drop_left' (by simp [encodeSubframe])
  simp only [encodeSubframe, List.cons_append, List.append_assoc, List.nil_append] at hfits hafter ⊢
  simp only [decodeSubframe, hlen, hc, if_neg hfits, List.drop_left, List.take_left, hafter, halfOfBytes_low_high]

/-- With R75's overhead the fields that the decoder reads are encoded as the bytes that were read. -/
theorem encodeSubframe_of_decodeSubframe {c : Cfg} (hc : c.sfOverhead = 4) {bytes after : List Byte} {sf : Subframe}
    (h : decodeSubframe c bytes = .ok (sf, after)) :
    payloadFits sf.payload = true ∧ bytes = encodeSubframe sf ++ after := by
  obtain ⟨tag, len, lo, hi, rest, tail, rfl, -, hcrc, rfl, rfl⟩ := Machine.decodeSubframe_ok h
  have hlen : (rest.take len.toNat).length = len.toNat :=
    List.length_take_of_le (not_le.1 fun hle => absurd hcrc (by simp [List.drop_eq_nil_of_le hle])).le
  have htail : (tag :: len :: rest).drop (len.toNat + c.sfOverhead) = tail := by
    rw [hc, show (tag :: len :: rest).drop (len.toNat + 4) = rest.drop (len.toNat + 2) from rfl,
      ← List.drop_drop, hcrc]
    rfl
  refine ⟨decide_eq_true (hlen.trans_le (Nat.le_of_lt_succ len.isLt)), ?_⟩
  rw [htail, encodeSubframe, hlen, BitVec.ofNat_toNat, BitVec.setWidth_eq, lowByte_halfOfBytes, highByte_halfOfBytes]
  simp only [List.cons_append, List.append_assoc, List.nil_append, ← hcrc, List.take_append_drop]

/-! The rows of the opcode map (30_encoding.md R77). -/

/-- The tag of a row: the named one, or the tag at hand where the row is SF_UNKNOWN. -/
def SubKind.tagOf (c : Cfg) (tag : Byte) : SubKind → Byte
  | .status => c.stStatus
  | .gpspos => c.stGpspos
  | .ptu => c.stPtu
  | .gpsinfo => c.stGpsinfo
  | .gpsraw => c.stGpsraw
  | .xdata => c.stXdata
  | .empty => c.stEmpty
  | .unknown => tag

/-- The operation of a row, with its operands; only SF_UNKNOWN carries the tag. -/
def SubKind.instr (tag : Byte) (payload : List Byte) (crc : Half) : SubKind → Instr
  | .status => .sfStatus payload crc
  | .gpspos => .sfGpspos payload crc
  | .ptu => .sfPtu payload crc
  | .gpsinfo => .sfGpsinfo payload crc
  | .gpsraw => .sfGpsraw payload crc
  | .xdata => .sfXdata payload crc
  | .empty => .sfEmpty payload crc
  | .unknown => .sfUnknown tag payload crc

/-- A subframe stands for the operation of the row that its tag selects. -/
theorem Subframe.toInstr_eq (c : Cfg) (sf : Subframe) :
    sf.toInstr c = (subKind c sf.tag).instr sf.tag sf.payload sf.crc := by
  unfold Subframe.toInstr
  cases subKind c sf.tag <;> rfl

/-- The encoder writes the tag of the operation's row. -/
theorem encode_instr (c : Cfg) (k : SubKind) (tag : Byte) (payload : List Byte) (crc : Half) :
    encode c (k.instr tag payload crc) = some (encodeSubframe ⟨k.tagOf c tag, payload, crc⟩) := by
  cases k <;> rfl

/-- An operation of a row is well formed when its payload fits, and SF_UNKNOWN only with a tag that no row names. -/
theorem wf_instr_iff (c : Cfg) (k : SubKind) (tag : Byte) (payload : List Byte) (crc : Half) :
    (k.instr tag payload crc).wf c = true ↔ payloadFits payload = true ∧ (k = .unknown → tag ∉ c.namedTags) := by
  cases k <;> simp [SubKind.instr, Instr.wf]

/-- The tag of a row's operation makes no difference but to SF_UNKNOWN. -/
theorem instr_tagOf (c : Cfg) (k : SubKind) (tag : Byte) (payload : List Byte) (crc : Half) :
    k.instr (k.tagOf c tag) payload crc = k.instr tag payload crc := by
  cases k <;> rfl

/-- The row that a tag selects has that tag. -/
theorem tagOf_subKind (c : Cfg) (tag : Byte) : (subKind c tag).tagOf c tag = tag := by
  unfold subKind
  split_ifs
  case neg => rfl
  all_goals exact Eq.symm ‹_›

/-- A tag selects SF_UNKNOWN only where no row names it. -/
theorem not_mem_namedTags_of_unknown {c : Cfg} {tag : Byte} (h : subKind c tag = .unknown) : tag ∉ c.namedTags := by
  unfold subKind at h
  split_ifs at h
  simp [Cfg.namedTags, *]

/-- With distinct named tags the tag of a row selects that row. -/
theorem subKind_tagOf {c : Cfg} (hc : c.tagsDistinct = true) {k : SubKind} {tag : Byte}
    (hu : k = .unknown → tag ∉ c.namedTags) : subKind c (k.tagOf c tag) = k := by
  have hnodup : c.namedTags.Nodup := of_decide_eq_true hc
  simp only [Cfg.namedTags, List.nodup_cons, List.mem_cons, List.not_mem_nil, or_false, not_or] at hnodup hu
  cases k <;> grind [subKind, SubKind.tagOf]

/-- With distinct named tags a subframe with the tag of a row stands for that row's operation. -/
theorem toInstr_of_tag {c : Cfg} (hc : c.tagsDistinct = true) {k : SubKind} {tag : Byte} (payload : List Byte)
    (crc : Half) (hu : k = .unknown → tag ∉ c.namedTags) :
    (⟨k.tagOf c tag, payload, crc⟩ : Subframe).toInstr c = k.instr tag payload crc := by
  rw [Subframe.toInstr_eq, subKind_tagOf hc hu, instr_tagOf]

/-- The encoded operations are those of the rows and the two of the frame-type byte. -/
theorem exists_instr_of_encode {c : Cfg} {i : Instr} {bytes : List Byte} (h : encode c i = some bytes)
    (hext : i ≠ .ftExtended) (hnorm : ∀ v, i ≠ .ftNormal v) :
    ∃ (k : SubKind) (tag : Byte) (payload : List Byte) (crc : Half), i = k.instr tag payload crc := by
  cases i with
  | sfStatus payload crc => exact ⟨.status, 0, payload, crc, rfl⟩
  | sfPtu payload crc => exact ⟨.ptu, 0, payload, crc, rfl⟩
  | sfGpspos payload crc => exact ⟨.gpspos, 0, payload, crc, rfl⟩
  | sfGpsinfo payload crc => exact ⟨.gpsinfo, 0, payload, crc, rfl⟩
  | sfGpsraw payload crc => exact ⟨.gpsraw, 0, payload, crc, rfl⟩
  | sfXdata payload crc => exact ⟨.xdata, 0, payload, crc, rfl⟩
  | sfEmpty payload crc => exact ⟨.empty, 0, payload, crc, rfl⟩
  | sfUnknown tag payload crc => exact ⟨.unknown, tag, payload, crc, rfl⟩
  | ftExtended => exact absurd rfl hext
  | ftNormal v => exact absurd rfl (hnorm v)
  | _ => cases h

/-- An operation is read wherever a subframe is. -/
theorem decode_of_decodeSubframe {c : Cfg} {bytes rest : List Byte} {sf : Subframe}
    (h : decodeSubframe c bytes = .ok (sf, rest)) : decode c bytes = .ok (sf.toInstr c, rest) := by
  simp only [decode, h]

/-- Settles O1: the operation is a row's, the fields of its subframe are read back, and the tag selects the row
again. -/
theorem subframeDecodeOfEncode : Obligations.SubframeDecodeOfEncode := by
  intro c i bytes rest hdistinct hc hwf henc hext hnorm
  obtain ⟨k, tag, payload, crc, rfl⟩ := exists_instr_of_encode henc hext hnorm
  obtain ⟨hfits, hu⟩ := (wf_instr_iff _ _ _ _ _).1 hwf
  cases (encode_instr c k tag payload crc).symm.trans henc
  rw [decode_of_decodeSubframe (decodeSubframe_encodeSubframe hc _ hfits rest),
    toInstr_of_tag hdistinct payload crc hu]

/-- Settles O2: the fields read are encoded as the bytes read, and the row that the tag selects has that tag. -/
theorem subframeEncodeOfDecode : Obligations.SubframeEncodeOfDecode := by
  intro c bytes rest i hc h
  obtain ⟨sf, hsf, rfl⟩ := Machine.decode_ok h
  obtain ⟨hfits, hbytes⟩ := encodeSubframe_of_decodeSubframe hc hsf
  rw [Subframe.toInstr_eq, wf_instr_iff, encode_instr, tagOf_subKind]
  exact ⟨⟨hfits, not_mem_namedTags_of_unknown⟩, _, rfl, hbytes⟩

/-- Settles O4: each tag of the map is the default tag of its row, and any other tag is no row's. -/
theorem everyTagSelectsItsRow : Obligations.EveryTagSelectsItsRow := by
  intro tag payload crc
  have row (k : SubKind) (hu : k = .unknown → tag ∉ Cfg.rs41.namedTags) :
      (⟨k.tagOf Cfg.rs41 tag, payload, crc⟩ : Subframe).toInstr Cfg.rs41 = k.instr tag payload crc :=
    toInstr_of_tag (by decide) payload crc hu
  split_ifs with h79 h7A h7B h7C h7D h7E h76
  · exact h79 ▸ row .status nofun
  · exact h7A ▸ row .ptu nofun
  · exact h7B ▸ row .gpspos nofun
  · exact h7C ▸ row .gpsinfo nofun
  · exact h7D ▸ row .gpsraw nofun
  · exact h7E ▸ row .xdata nofun
  · exact h76 ▸ row .empty nofun
  · exact row .unknown fun _ => by
      simpa [Cfg.namedTags, Cfg.rs41] using ⟨h79, h7B, h7A, h7C, h7D, h7E, h76⟩

/-- The operation of a frame-type byte is encoded as that byte (30_encoding.md R73, R82). -/
theorem encode_decodeFtype (c : Cfg) (v : Byte) : encode c (decodeFtype c v) = some [v] := by
  by_cases hv : v = c.extFlag
  · rw [decodeFtype, if_pos hv, hv]
    rfl
  · rw [decodeFtype, if_neg hv]
    rfl

/-- Settles O5: the four words are evaluated; the frame-type byte is split by whether it is EXT_FLAG. -/
theorem wordsDecodeToTheirRows : Obligations.WordsDecodeToTheirRows :=
  ⟨by decide, by decide, by decide, by decide, if_pos rfl, fun _ hv => if_neg hv, encode_decodeFtype⟩

end Sys2Proof
end

section
/-! PROOFS. The mode of a frame, by MODE and by the operations of the frame-type byte (ModeAndFrameTypeResults). -/

namespace Sys2Proof.Machine

/-- The mode of a frame that has its frame-type byte. -/
theorem isExtended_of_lt {c : Cfg} {frm : List Byte} (h : c.ftypeOff < frm.length) :
    isExtended c frm = .ok (extendedFrame c frm) := by
  rw [isExtended, readAt_of_lt _ _ _ h, bind_of_ok, extendedFrame, List.getD_eq_getElem _ _ h]
  rfl

/-- MODE of a frame that has its frame-type byte writes `ext` and `L`, and the walk comes next. -/
theorem modeOp_of_lt {c : Cfg} {p : Pipe} (h : c.ftypeOff < p.w.frm.length) :
    modeOp c p = .ok { p with w := { setModePost c (extendedFrame c p.w.frm) p.w with stage := .walk } } := by
  rw [modeOp, isExtended_of_lt h, bind_of_ok]
  rfl

/-- Before correction the frame-type byte is the mode of the interleaver. -/
theorem readMode_pre {w : Work} (h : w.stage = .descramble ∨ w.stage = .fec) (c : Cfg) (ext : Bool) :
    readMode c ext w = setModePre c ext w := by
  obtain h | h := h <;> simp only [readMode, h]

/-- After correction the frame-type byte is the mode of the region. -/
theorem readMode_post {w : Work} (h : ¬ (w.stage = .descramble ∨ w.stage = .fec)) (c : Cfg) (ext : Bool) :
    readMode c ext w = setModePost c ext w := by
  unfold readMode
  split
  · exact absurd (.inl ‹_›) h
  · exact absurd (.inr ‹_›) h
  all_goals rfl

/-- Inside a frame decode an operation of the frame-type byte writes the working state only. -/
theorem onPipe_ftypeOp {s : State} {w : Work} (hw : s.work = some w) (ext : Bool) :
    onPipe (ftypeOp ext) s = .next (s.setWork (some (readMode s.cfg ext w))) :=
  onPipe_inside (ftypeOp ext) s w ⟨s.dc, s.draws, readMode s.cfg ext w⟩ hw rfl

/-- Settles O49: MODE by the byte it reads, the two operations by the mode reading that the stage has reached. -/
theorem modeAndFrameTypeResults : Obligations.ModeAndFrameTypeResults := by
  intro s w hw pre after
  have ftype (ext : Bool) {w' : Work} (h : readMode s.cfg ext w = w') :
      onPipe (ftypeOp ext) s = .next (s.setWork (some w')) := h ▸ onPipe_ftypeOp hw ext
  refine ⟨fun hlt => onPipe_inside _ s w _ hw (modeOp_of_lt hlt), fun hpre => ⟨?_, fun _ => ?_⟩,
    fun hpost => ⟨?_, fun _ => ?_⟩⟩
  · exact ftype true (readMode_pre hpre _ _)
  · exact ftype false (readMode_pre hpre _ _)
  · exact ftype true (readMode_post hpost _ _)
  · exact ftype false (readMode_post hpost _ _)

end Sys2Proof.Machine
end

section
/-! PROOFS. The Framer's five steps as R100's table has them: the conditions exclude each other, the selected step is the
enabled one, and what each step leaves (FramerStepsAreExclusive, FrPullResult, FrCorrelateResult, FrEmitResult). -/

namespace Sys2Proof.Machine

/-! The conditions exclude each other. -/

/-- The Framer needs a byte exactly below what its phase waits for. -/
theorem need_iff (c : Cfg) (fr : Framer) :
    need c fr = true ↔
      (fr.phase = .read ∧ fr.cur < c.frameBits) ∨ (fr.phase = .deoffset ∧ fr.cur < fr.syncOff + c.frameBits) := by
  cases hp : fr.phase <;> simp [need, hp]

/-- A frame that is ready needs no byte. -/
theorem need_of_frameReady {c : Cfg} {fr : Framer} (h : frameReady c fr = true) : need c fr = false := by
  obtain ⟨hp, hcur⟩ := (frameReady_iff c fr).1 h
  simpa [need, hp] using hcur

/-- A frame's length of bits in READ needs no byte. -/
theorem need_of_frCorrelateEnabled {s : State} (h : frCorrelateEnabled s = true) : need s.cfg s.fr = false := by
  obtain ⟨-, hp, hcur⟩ := (frCorrelateEnabled_iff s).1 h
  simpa [need, hp] using hcur

/-- Where no byte is needed, IN is not looked at. -/
theorem frPullEnabled_of_need_eq_false {s : State} (h : need s.cfg s.fr = false) : frPullEnabled s = false := by
  simp [frPullEnabled, h]

/-- Where no byte is needed, END is not looked at. -/
theorem frReadFailEnabled_of_need_eq_false {s : State} (h : need s.cfg s.fr = false) :
    frReadFailEnabled s = false := by
  simp [frReadFailEnabled, h]

/-- A byte at the head of IN is not END. -/
theorem frPullEnabled_of_frReadFailEnabled {s : State} (h : frReadFailEnabled s = true) : frPullEnabled s = false := by
  obtain ⟨-, -, rest, hin⟩ := (frReadFailEnabled_iff s).1 h
  simp [frPullEnabled, hin]

/-- A frame that is ready is not looked for. -/
theorem frCorrelateEnabled_of_frameReady {s : State} (h : frameReady s.cfg s.fr = true) :
    frCorrelateEnabled s = false := by
  simp [frCorrelateEnabled, ((frameReady_iff _ _).1 h).1]

/-- A closed Q takes no frame. -/
theorem frEmitEnabled_of_frPublishFailEnabled {s : State} (h : frPublishFailEnabled s = true) :
    frEmitEnabled s = false := by
  simp [frEmitEnabled, ((frPublishFailEnabled_iff s).1 h).2.2]

/-! The selected step is the enabled one. -/

/-- A ready frame leaves only the two steps that end it. -/
theorem framerStep_of_frameReady {s : State} (h : frameReady s.cfg s.fr = true) :
    framerStep s =
      if frEmitEnabled s then some .frEmit else if frPublishFailEnabled s then some .frPublishFail else none := by
  simp [framerStep, frPullEnabled_of_need_eq_false (need_of_frameReady h),
    frReadFailEnabled_of_need_eq_false (need_of_frameReady h), frCorrelateEnabled_of_frameReady h]

/-- FR_PULL is selected exactly where it is enabled. -/
theorem framerStep_eq_frPull_iff (s : State) : framerStep s = some .frPull ↔ frPullEnabled s = true := by
  refine ⟨fun h => ?_, fun h => by simp [framerStep, h]⟩
  simpa using framerStep_cases h

/-- FR_READ_FAIL is selected exactly where it is enabled. -/
theorem framerStep_eq_frReadFail_iff (s : State) : framerStep s = some .frReadFail ↔ frReadFailEnabled s = true := by
  refine ⟨fun h => by simpa using framerStep_cases h, fun h => ?_⟩
  simp [framerStep, h, frPullEnabled_of_frReadFailEnabled h]

/-- FR_CORRELATE is selected exactly where it is enabled. -/
theorem framerStep_eq_frCorrelate_iff (s : State) :
    framerStep s = some .frCorrelate ↔ frCorrelateEnabled s = true := by
  refine ⟨fun h => by simpa using framerStep_cases h, fun h => ?_⟩
  have hneed := need_of_frCorrelateEnabled h
  simp [framerStep, h, frPullEnabled_of_need_eq_false hneed, frReadFailEnabled_of_need_eq_false hneed]

/-- FR_EMIT is selected exactly where it is enabled. -/
theorem framerStep_eq_frEmit_iff (s : State) : framerStep s = some .frEmit ↔ frEmitEnabled s = true := by
  refine ⟨fun h => by simpa using framerStep_cases h, fun h => ?_⟩
  obtain ⟨-, hready, -, -⟩ := (frEmitEnabled_iff s).1 h
  rw [framerStep_of_frameReady hready, if_pos h]

/-- FR_PUBLISH_FAIL is selected exactly where it is enabled. -/
theorem framerStep_eq_frPublishFail_iff (s : State) :
    framerStep s = some .frPublishFail ↔ frPublishFailEnabled s = true := by
  refine ⟨fun h => by simpa using framerStep_cases h, fun h => ?_⟩
  obtain ⟨-, hready, -⟩ := (frPublishFailEnabled_iff s).1 h
  rw [framerStep_of_frameReady hready, frEmitEnabled_of_frPublishFailEnabled h, if_neg Bool.false_ne_true, if_pos h]

/-- Settles O10: the selected step is each of the five exactly where it is enabled, which its row says. -/
theorem framerStepsAreExclusive : Obligations.FramerStepsAreExclusive := by
  intro s needs ready
  have hneeds : need s.cfg s.fr = true ↔ needs := need_iff _ _
  have hready : frameReady s.cfg s.fr = true ↔ ready := frameReady_iff _ _
  refine ⟨?_, ?_, ?_, ?_, ?_, fun i => framerStep_mem⟩
  · rw [framerStep_eq_frPull_iff, frPullEnabled_iff, hneeds]
  · rw [framerStep_eq_frReadFail_iff, frReadFailEnabled_iff, hneeds]
  · rw [framerStep_eq_frCorrelate_iff, frCorrelateEnabled_iff]
  · rw [framerStep_eq_frEmit_iff, frEmitEnabled_iff, hready]
  · rw [framerStep_eq_frPublishFail_iff, frPublishFailEnabled_iff, hready]

/-! What the enabled steps leave. -/

/-- FR_PULL where it is enabled (40_framer.md R101). -/
theorem execFrPull_enabled {s : State} {v : Byte} {rest : List InItem} (hen : frPullEnabled s = true)
    (hin : s.inp = .byte v :: rest) :
    execFrPull s = .next ((s.setInp rest).setFr { s.fr with buf := s.fr.buf ++ bitsOf v }) := by
  rw [execFrPull, if_pos hen, hin]

/-- FR_CORRELATE where it is enabled (40_framer.md R103). -/
theorem execFrCorrelate_enabled {s : State} (hen : frCorrelateEnabled s = true) :
    execFrCorrelate s = .next (s.setFr { s.fr with
      syncOff := (corr s.cfg (s.fr.buf.take s.cfg.frameBits)).1
      inv := (corr s.cfg (s.fr.buf.take s.cfg.frameBits)).2
      phase := .deoffset }) := if_pos hen

/-- FR_EMIT where it is enabled (40_framer.md R108). -/
theorem execFrEmit_enabled {s : State} (hen : frEmitEnabled s = true) :
    execFrEmit s =
      .next (((s.setQ (publish s.q (extractFrame s.cfg s.fr) s.fr.inv)).setFtrace
        (s.ftrace ++ [⟨extractFrame s.cfg s.fr, s.fr.inv, s.fr.syncOff⟩])).setFr
          { s.fr with buf := s.fr.buf.drop (s.fr.syncOff + s.cfg.frameBits), phase := .read }) := if_pos hen

/-- Settles O12: the eight bits stand behind the buffered ones, so the cursor grows by eight. -/
theorem frPullResult : Obligations.FrPullResult := by
  intro s v rest hs hn hin bits
  have hen : frPullEnabled s = true := (frPullEnabled_iff s).2 ⟨hs, hn, v, rest, hin⟩
  exact ⟨_, execFrPull_enabled hen hin, rfl, List.length_append⟩

/-- Settles O15: FR_CORRELATE where it is enabled. -/
theorem frCorrelateResult : Obligations.FrCorrelateResult := by
  intro s hs hp hcur found
  exact execFrCorrelate_enabled ((frCorrelateEnabled_iff s).2 ⟨hs, hp, hcur⟩)

/-- Settles O20: FR_EMIT where it is enabled, its frame the packed bits at the sync offset. -/
theorem frEmitResult : Obligations.FrEmitResult := by
  intro s hs hp hcur hopen hroom off frame
  exact execFrEmit_enabled ((frEmitEnabled_iff s).2 ⟨hs, (frameReady_iff _ _).2 ⟨hp, hcur⟩, hopen, hroom⟩)

end Sys2Proof.Machine
end

section
/-! PROOFS. Where the Framer is blocked and what resumes it (FramerBlockedExactly), and that a PUSH moves past its
enabled step (PushChunkingHasNoEffect). -/

namespace Sys2Proof.Machine

/-- In READ with no byte needed a frame's length is buffered. -/
theorem not_need_read {c : Cfg} {fr : Framer} (h : need c fr = false) (hp : fr.phase = .read) :
    c.frameBits ≤ fr.cur := by
  simpa [need, hp] using h

/-- In DEOFFSET with no byte needed the frame at the sync offset is buffered. -/
theorem not_need_deoffset {c : Cfg} {fr : Framer} (h : need c fr = false) (hp : fr.phase = .deoffset) :
    fr.syncOff + c.frameBits ≤ fr.cur := by
  simpa [need, hp] using h

/-! Blocked states (40_framer.md R112). -/

/-- A stopped Framer is blocked. -/
theorem framerStep_of_stopped {s : State} (h : s.fr.stage = .stopped) : framerStep s = none := by
  simp [framerStep, frPullEnabled, frReadFailEnabled, frCorrelateEnabled, frEmitEnabled, frPublishFailEnabled,
    framerRunning, h]

/-- A running Framer that needs a byte is blocked exactly where IN is empty. -/
theorem framerStep_eq_none_iff_of_need {s : State} (hs : s.fr.stage = .running) (hn : need s.cfg s.fr = true) :
    framerStep s = none ↔ s.inp = [] := by
  have hcorr : frCorrelateEnabled s = false :=
    Bool.eq_false_of_not_eq_true fun h => by cases hn.symm.trans (need_of_frCorrelateEnabled h)
  have hready : frameReady s.cfg s.fr = false :=
    Bool.eq_false_of_not_eq_true fun h => by cases hn.symm.trans (need_of_frameReady h)
  cases hin : s.inp with
  | nil => simp [framerStep, frPullEnabled, frReadFailEnabled, frEmitEnabled, frPublishFailEnabled, hin, hcorr, hready]
  | cons x rest =>
    cases x with
    | byte v => simp [(framerStep_eq_frPull_iff s).2 ((frPullEnabled_iff s).2 ⟨hs, hn, v, rest, hin⟩)]
    | eos => simp [(framerStep_eq_frReadFail_iff s).2 ((frReadFailEnabled_iff s).2 ⟨hs, hn, rest, hin⟩)]

/-- A running Framer with a frame ready is blocked exactly where Q is open without room. -/
theorem framerStep_eq_none_iff_of_frameReady {s : State} (hs : s.fr.stage = .running)
    (hr : frameReady s.cfg s.fr = true) :
    framerStep s = none ↔ s.q.closed = false ∧ s.cfg.fifoDepth ≤ s.q.items.length := by
  rw [framerStep_of_frameReady hr]
  cases hc : s.q.closed <;> simp [frEmitEnabled, frPublishFailEnabled, framerRunning, hs, hr, hc]

/-- Where the Framer needs no byte, it searches or a frame is ready. -/
theorem frCorrelateEnabled_or_frameReady {s : State} (hs : s.fr.stage = .running) (hn : need s.cfg s.fr = false) :
    frCorrelateEnabled s = true ∨ frameReady s.cfg s.fr = true := by
  cases hp : s.fr.phase with
  | read => exact .inl ((frCorrelateEnabled_iff s).2 ⟨hs, hp, not_need_read hn hp⟩)
  | deoffset => exact .inr ((frameReady_iff _ _).2 ⟨hp, not_need_deoffset hn hp⟩)

/-- A running Framer waits for input or for room, and for nothing else. -/
theorem framerStep_eq_none_iff_of_running {s : State} (hs : s.fr.stage = .running)
    (hdepth : s.q.items.length ≤ s.cfg.fifoDepth) :
    framerStep s = none ↔
      (need s.cfg s.fr = true ∧ s.inp = []) ∨
        (frameReady s.cfg s.fr = true ∧ s.q.closed = false ∧ s.q.items.length = s.cfg.fifoDepth) := by
  cases hn : need s.cfg s.fr with
  | true =>
    have hready : frameReady s.cfg s.fr ≠ true := fun h => by cases hn.symm.trans (need_of_frameReady h)
    simp [framerStep_eq_none_iff_of_need hs hn, hready]
  | false =>
    obtain hcorr | hready := frCorrelateEnabled_or_frameReady hs hn
    · have hready : frameReady s.cfg s.fr ≠ true := fun h => by
        cases hcorr.symm.trans (frCorrelateEnabled_of_frameReady h)
      simp [(framerStep_eq_frCorrelate_iff s).2 hcorr, hready]
    · have hfull : s.cfg.fifoDepth ≤ s.q.items.length ↔ s.q.items.length = s.cfg.fifoDepth := by omega
      simp [framerStep_eq_none_iff_of_frameReady hs hready, hready, hfull]

/-- Settles O11: by the run status; each way out is the step it enables. -/
theorem framerBlockedExactly : Obligations.FramerBlockedExactly := by
  intro s hdepth
  refine ⟨?_, fun h => by simp [framerTurn, h], fun hs hn hin v vs => ?_, fun hs hr hopen hfull => ⟨?_, ?_⟩,
    fun hs => ?_⟩
  · cases hs : s.fr.stage with
    | stopped => simp [framerStep_of_stopped hs]
    | running => simp [framerStep_eq_none_iff_of_running hs hdepth]
  · exact (framerStep_eq_frPull_iff _).2 ((frPullEnabled_iff _).2 ⟨hs, hn, v, vs.map .byte, by simp [hin]⟩)
  · intro f rest hq
    have hroom : rest.length < s.cfg.fifoDepth := by
      rw [← hfull, hq]
      exact Nat.lt_succ_self _
    exact (framerStep_eq_frEmit_iff _).2 ((frEmitEnabled_iff _).2 ⟨hs, hr, hopen, hroom⟩)
  · exact (framerStep_eq_frPublishFail_iff _).2 ((frPublishFailEnabled_iff _).2 ⟨hs, hr, rfl⟩)
  · refine ⟨returnFromError s, if_pos hs, rfl, rfl, ?_⟩
    have hblocked := framerStep_eq_none_iff_of_running (s := returnFromError s) rfl hdepth
    have hopen : (returnFromError s).q.closed = false := rfl
    simp only [hopen, true_and] at hblocked
    exact hblocked

/-! PUSH and the Framer's step (40_framer.md R114, 45_stage_control.md R200). -/

/-- `s` after a PUSH of `b`. -/
def State.pushed (s : State) (b : List Byte) : State := s.setInp (s.inp ++ b.map .byte)

/-- Everything PUSH does (45_stage_control.md R200). -/
theorem execPush_eq (b : List Byte) (s : State) : execPush b s = .next (s.pushed b) := rfl

/-- Bytes pushed one after the other are pushed together. -/
theorem State.pushed_pushed (s : State) (a b : List Byte) : (s.pushed a).pushed b = s.pushed (a ++ b) := by
  simp only [State.pushed, State.setInp_inp, List.map_append, List.append_assoc]
  rfl

/-- A PUSH behind the head of IN leaves the Framer's step enabled, and the step leads from there to where the PUSH leads
after the step. -/
theorem framerStep_pushed {s t : State} {i : Instr} (b : List Byte) (hi : framerStep s = some i)
    (ht : exec i s = .next t) : framerStep (s.pushed b) = some i ∧ exec i (s.pushed b) = .next (t.pushed b) := by
  obtain ⟨rfl, hen⟩ | ⟨rfl, hen⟩ | ⟨rfl, hen⟩ | ⟨rfl, hen⟩ | ⟨rfl, hen⟩ := framerStep_cases hi
  · obtain ⟨hs, hn, v, rest, hin⟩ := (frPullEnabled_iff s).1 hen
    have hin' : (s.pushed b).inp = .byte v :: (rest ++ b.map .byte) := by simp [State.pushed, hin]
    have hen' : frPullEnabled (s.pushed b) = true := (frPullEnabled_iff _).2 ⟨hs, hn, v, _, hin'⟩
    cases (execFrPull_enabled hen hin).symm.trans ht
    exact ⟨(framerStep_eq_frPull_iff _).2 hen', execFrPull_enabled hen' hin'⟩
  · obtain ⟨hs, hn, rest, hin⟩ := (frReadFailEnabled_iff s).1 hen
    have hin' : (s.pushed b).inp = .eos :: (rest ++ b.map .byte) := by simp [State.pushed, hin]
    have hen' : frReadFailEnabled (s.pushed b) = true := (frReadFailEnabled_iff _).2 ⟨hs, hn, _, hin'⟩
    cases (show execFrReadFail s = _ from if_pos hen).symm.trans ht
    refine ⟨(framerStep_eq_frReadFail_iff _).2 hen',
      (show execFrReadFail (s.pushed b) = _ from if_pos hen').trans ?_⟩
    rw [hin', hin]
    rfl
  · have hen' : frCorrelateEnabled (s.pushed b) = true := hen
    cases (execFrCorrelate_enabled hen).symm.trans ht
    exact ⟨(framerStep_eq_frCorrelate_iff _).2 hen', execFrCorrelate_enabled hen'⟩
  · have hen' : frEmitEnabled (s.pushed b) = true := hen
    cases (execFrEmit_enabled hen).symm.trans ht
    exact ⟨(framerStep_eq_frEmit_iff _).2 hen', execFrEmit_enabled hen'⟩
  · have hen' : frPublishFailEnabled (s.pushed b) = true := hen
    cases (show execFrPublishFail s = _ from if_pos hen).symm.trans ht
    exact ⟨(framerStep_eq_frPublishFail_iff _).2 hen', if_pos hen'⟩

/-- Settles O24: PUSHes join, and a PUSH moves past the Framer's enabled step. -/
theorem pushChunkingHasNoEffect : Obligations.PushChunkingHasNoEffect := by
  refine ⟨fun s a b => ⟨s.pushed a, execPush_eq a s, ?_⟩, fun s t i b hi ht => ?_⟩
  · exact congrArg Host.Outcome.next (s.pushed_pushed a b)
  · obtain ⟨hi', ht'⟩ := framerStep_pushed b hi ht
    exact ⟨s.pushed b, t.pushed b, execPush_eq b s, hi', ht', execPush_eq b t⟩

end Sys2Proof.Machine
end

section
/-! PROOFS. The distances of a window (DistancesAreHamming): a bit sequence's value holds its bits, the last one lowest,
and the population count counts the bits of a value. -/

namespace Sys2Proof.Machine

/-- The value of a bit sequence with one bit more. -/
theorem bitsVal_append_singleton (w : Bits) (x : Bool) : bitsVal (w ++ [x]) = 2 * bitsVal w + x.toNat := by
  simp [bitsVal]

/-- The bits of a sequence's value, lowest first, are the sequence's from its end. -/
theorem testBit_bitsVal_reverse (w : Bits) (j : Nat) : (bitsVal w.reverse).testBit j = w.getD j false := by
  induction w generalizing j with
  | nil => simp [bitsVal]
  | cons x w ih =>
    rw [List.reverse_cons, bitsVal_append_singleton]
    cases j with
    | zero => cases x <;> simp [Nat.testBit_zero]
    | succ j =>
      rw [Nat.testBit_succ, List.getD_cons_succ, ← ih j]
      congr 1
      cases x <;> simp [Nat.mul_add_div]

/-- Bit `n - 1 - k` of the value of an `n`-bit window is its bit `k` (40_framer.md R104). -/
theorem testBit_bitsVal (w : Bits) {k : Nat} (h : k < w.length) :
    (bitsVal w).testBit (w.length - 1 - k) = w.getD k false := by
  have hrev := testBit_bitsVal_reverse w.reverse (w.length - 1 - k)
  rw [List.reverse_reverse] at hrev
  have hk : w.length - 1 - (w.length - 1 - k) = k := by omega
  rw [hrev, List.getD_eq_getElem _ _ (by rw [List.length_reverse]; omega), List.getElem_reverse,
    List.getD_eq_getElem _ _ h]
  simp only [hk]

/-- The population count of the low `k` bits counts those that are 1. -/
theorem popcount_eq_countP (k x : Nat) : popcount k x = (List.range k).countP x.testBit := by
  induction k generalizing x with
  | zero => rfl
  | succ k ih =>
    have hlow : x % 2 = if x.testBit 0 then 1 else 0 := by
      rw [Nat.testBit_zero]
      split <;> simp_all
    have hhigh : (x.testBit ∘ Nat.succ) = (x / 2).testBit := funext fun j => Nat.testBit_succ x j
    rw [popcount, ih, List.range_succ_eq_map, List.countP_cons, List.countP_map, hhigh, hlow, Nat.add_comm]

/-- Counting over the positions from either end is the same. -/
theorem countP_range_reflect (n : Nat) (p : Nat → Bool) :
    (List.range n).countP (fun k => p (n - 1 - k)) = (List.range n).countP p := by
  have hrev : (List.range n).reverse = (List.range n).map (n - 1 - ·) := by
    apply List.ext_getElem <;> simp
  calc (List.range n).countP (fun k => p (n - 1 - k))
      = ((List.range n).map (n - 1 - ·)).countP p := by rw [List.countP_map]; rfl
    _ = (List.range n).countP p := by rw [← hrev, List.countP_reverse]

/-- The direct distance counts the positions at which the window differs from the pattern (40_framer.md R105). -/
theorem directDistance_eq_countP {c : Cfg} {w : Bits} (hw : w.length = c.syncBits) :
    directDistance c w =
      (List.range c.syncBits).countP fun k => w.getD k false != c.syncPattern.testBit (c.syncBits - 1 - k) := by
  rw [directDistance, popcount_eq_countP, ← countP_range_reflect]
  refine List.countP_congr fun k hk => ?_
  rw [Nat.testBit_xor, ← hw, testBit_bitsVal w (hw ▸ List.mem_range.1 hk), Bool.bne_eq_xor]

/-- Settles O16: each position of the window differs from the pattern or agrees with it. -/
theorem distancesAreHamming : Obligations.DistancesAreHamming := by
  intro c w hw
  have hsplit := List.length_eq_countP_add_countP (l := List.range c.syncBits)
    fun k => w.getD k false != c.syncPattern.testBit (c.syncBits - 1 - k)
  have hagree (x y : Bool) : decide (¬ (x != y) = true) = (x == y) := by cases x <;> cases y <;> rfl
  simp only [List.length_range, hagree] at hsplit
  simp only [← List.countP_eq_length_filter, directDistance_eq_countP hw]
  exact ⟨trivial, by omega, by omega⟩

end Sys2Proof.Machine
end

section
/-! PROOFS. The correlation (CorrelationBestMatch, SyncCorrectness, CorrelationShortCircuit): what the search has found
after some offsets is the first of their best matches. -/

namespace Sys2Proof.Machine

/-- The better of the two distances at one offset is what a turn of the search compares; the complement must be strictly
nearer to be taken (40_framer.md R106). -/
theorem corrTurn_eq (n d o : Nat) (b : Best) :
    corrTurn n d o b = if min d (n - d) < b.dist then ⟨min d (n - d), o, decide (n - d < d)⟩ else b := by
  unfold corrTurn
  by_cases hd : d < b.dist
  · by_cases hc : n - d < d
    · simp [hd, hc, min_eq_right hc.le, hc.trans hd]
    · simp [hd, hc, min_eq_left (not_lt.1 hc)]
  · by_cases hc : n - d < b.dist
    · have : n - d < d := by omega
      simp [hd, hc, this, min_eq_right this.le]
    · simp [hd, hc]

/-- `b` is the first of the best matches at the offsets below `m` (40_framer.md R106). -/
structure IsFirstBest (c : Cfg) (w : Bits) (m : Nat) (b : Best) : Prop where
  off_lt : b.off < m
  dist_eq : b.dist = bestDistanceAt c w b.off
  inv_eq : b.inv = invertedAt c w b.off
  least : ∀ o < m, b.dist ≤ bestDistanceAt c w o
  first : ∀ o < b.off, b.dist < bestDistanceAt c w o

/-- The turn at offset 0 always takes it. -/
theorem IsFirstBest.start (c : Cfg) (w : Bits) (inv : Bool) :
    IsFirstBest c w 1
      (corrTurn c.syncBits (directDistance c (w.take c.syncBits)) 0 ⟨c.syncBits + 1, 0, inv⟩) := by
  rw [corrTurn_eq, if_pos (by simp only; omega)]
  exact
    { off_lt := Nat.one_pos
      dist_eq := rfl
      inv_eq := rfl
      least := fun o ho => by obtain rfl := Nat.lt_one_iff.1 ho; exact le_rfl
      first := fun o ho => absurd ho (Nat.not_lt_zero o) }

/-- One offset more is looked at. -/
theorem IsFirstBest.turn {c : Cfg} {w : Bits} {m : Nat} {b : Best} (h : IsFirstBest c w m b) :
    IsFirstBest c w (m + 1) (corrTurn c.syncBits (directDistance c ((w.drop m).take c.syncBits)) m b) := by
  rw [corrTurn_eq]
  change IsFirstBest c w (m + 1)
    (if bestDistanceAt c w m < b.dist then ⟨bestDistanceAt c w m, m, invertedAt c w m⟩ else b)
  split
  · rename_i hlt
    exact
      { off_lt := Nat.lt_succ_self m
        dist_eq := rfl
        inv_eq := rfl
        least := fun o ho => by
          obtain ho | rfl := Nat.lt_succ_iff_lt_or_eq.1 ho
          · exact hlt.le.trans (h.least o ho)
          · exact le_rfl
        first := fun o ho => hlt.trans_le (h.least o ho) }
  · rename_i hge
    exact
      { off_lt := h.off_lt.trans (Nat.lt_succ_self m)
        dist_eq := h.dist_eq
        inv_eq := h.inv_eq
        least := fun o ho => by
          obtain ho | rfl := Nat.lt_succ_iff_lt_or_eq.1 ho
          · exact h.least o ho
          · exact not_lt.1 hge
        first := h.first }

/-- The search looks at `count` offsets more. -/
theorem IsFirstBest.corrLoop {c : Cfg} {w : Bits} {m : Nat} {b : Best} (h : IsFirstBest c w m b) (count : Nat) :
    IsFirstBest c w (m + count) (corrLoop c count m (w.drop m) b) := by
  induction count generalizing m b with
  | zero => exact h
  | succ count ih =>
    rw [Machine.corrLoop, List.drop_drop, show m + (count + 1) = m + 1 + count by omega]
    exact ih h.turn

/-- The full search finds the first best match of all offsets. -/
theorem corrFull_isFirstBest (c : Cfg) (w : Bits) :
    ∃ b, corrFull c w = (b.off, b.inv) ∧ IsFirstBest c w (c.frameBits - c.syncBits + 1) b := by
  refine ⟨_, rfl, ?_⟩
  have h := (IsFirstBest.start c w false).corrLoop (c.frameBits - c.syncBits)
  rwa [Nat.add_comm] at h

/-- The full search answers an offset that is strictly better than the lower ones and no worse than the higher ones
(40_framer.md R116). -/
theorem corrFull_eq {c : Cfg} {w : Bits} {off e : Nat} (hoff : off ≤ c.frameBits - c.syncBits)
    (hat : bestDistanceAt c w off ≤ e) (hbelow : ∀ o, o < off → e < bestDistanceAt c w o)
    (habove : ∀ o, off < o → o ≤ c.frameBits - c.syncBits → e ≤ bestDistanceAt c w o) :
    corrFull c w = (off, invertedAt c w off) := by
  obtain ⟨b, hb, hbest⟩ := corrFull_isFirstBest c w
  have hle : bestDistanceAt c w b.off ≤ bestDistanceAt c w off :=
    hbest.dist_eq ▸ hbest.least off (Nat.lt_succ_of_le hoff)
  have heq : b.off = off := by
    obtain hlt | heq | hgt := lt_trichotomy b.off off
    · have := hbelow b.off hlt
      omega
    · exact heq
    · have := habove b.off hgt (Nat.le_of_lt_succ hbest.off_lt)
      have := hbest.first off hgt
      have := hbest.dist_eq
      omega
  rw [hb, hbest.inv_eq, heq]

/-- A distance of 0 of either polarity at offset 0 ends the search there. -/
theorem corrFull_of_zero {c : Cfg} {w : Bits} (h : bestDistanceAt c w 0 = 0) :
    corrFull c w = (0, invertedAt c w 0) :=
  corrFull_eq (e := 0) (Nat.zero_le _) h.le (fun o ho => absurd ho (Nat.not_lt_zero o)) fun _ _ _ => Nat.zero_le _

/-- A direct match at offset 0 is what the full search answers (40_framer.md R107). -/
theorem corrFull_of_direct_zero {c : Cfg} {w : Bits} (h : directDistance c (w.take c.syncBits) = 0) :
    corrFull c w = (0, false) := by
  rw [corrFull_of_zero (by simp [bestDistanceAt, h])]
  simp [invertedAt, h]

/-- A complementary match at offset 0 is what the full search answers. -/
theorem corrFull_of_complement_zero {c : Cfg} {w : Bits} (hn : 0 < c.syncBits)
    (h : directDistance c (w.take c.syncBits) = c.syncBits) : corrFull c w = (0, true) := by
  rw [corrFull_of_zero (by simp [bestDistanceAt, h])]
  simp [invertedAt, h, hn]

/-- The short-circuit changes no result (40_framer.md R107). -/
theorem corr_eq_corrFull (c : Cfg) (w : Bits) : corr c w = corrFull c w := by
  unfold corr
  split
  · exact (corrFull_of_direct_zero ‹_›).symm
  · rfl

/-- The framer group bounds the lengths (00_scope.md R4). -/
theorem Cfg.framerOk_lengths {c : Cfg} (h : c.framerOk = true) : 8 ≤ c.syncBits ∧ c.syncBits ≤ c.frameBits := by
  simp only [Cfg.framerOk, Bool.and_eq_true, decide_eq_true_eq] at h
  obtain ⟨⟨⟨⟨hlow, -⟩, -⟩, hframe⟩, -⟩ := h
  simp only [Cfg.syncBits, Cfg.frameBits]
  omega

/-- Settles O17: what the full search finds is the first best match of all offsets. -/
theorem correlationBestMatch : Obligations.CorrelationBestMatch := by
  intro c w _ _
  obtain ⟨b, hb, hbest⟩ := corrFull_isFirstBest c w
  rw [corr_eq_corrFull, hb]
  refine ⟨Nat.le_of_lt_succ hbest.off_lt, fun o ho => ?_, fun o ho => ?_, hbest.inv_eq⟩
  · exact hbest.dist_eq ▸ hbest.least o (Nat.lt_succ_of_le ho)
  · exact hbest.dist_eq ▸ hbest.first o ho

/-- Settles O18: a match of either polarity at offset 0 is the full search's answer, as no distance is below 0. -/
theorem correlationShortCircuit : Obligations.CorrelationShortCircuit := by
  intro c w hok _
  refine ⟨corr_eq_corrFull c w, fun h => ?_, fun h => ?_⟩
  · rw [corr_eq_corrFull, corrFull_of_direct_zero h]
  · have hn : 0 < c.syncBits := by
      obtain ⟨hsync, -⟩ := Cfg.framerOk_lengths hok
      omega
    rw [corr_eq_corrFull, corrFull_of_complement_zero hn h]

/-- Settles O19: the full search's answer under R116's conditions. -/
theorem syncCorrectness : Obligations.SyncCorrectness := by
  intro c w off e _ _ hoff hat hbelow habove
  rw [corr_eq_corrFull, corrFull_eq hoff hat hbelow habove]

end Sys2Proof.Machine
end

section
/-! PROOFS. The bytes of a packed frame (ExtractionTakesBitsAtAnyOffset). -/

namespace Sys2Proof.Machine

/-- Byte `j` of a byte list is its eight bits from `8 * j` on. -/
theorem bitsOfBytes_drop_take {bytes : List Byte} {j : Nat} (h : j < bytes.length) :
    ((bitsOfBytes bytes).drop (8 * j)).take 8 = bitsOf bytes[j] := by
  induction bytes generalizing j with
  | nil => simp at h
  | cons v bytes ih =>
    cases j with
    | zero => simp [bitsOfBytes_cons, bitsOf]
    | succ j =>
      rw [List.getElem_cons_succ, ← ih (Nat.lt_of_succ_lt_succ h), bitsOfBytes_cons,
        show 8 * (j + 1) = (bitsOf v).length + 8 * j by simp [bitsOf]; omega, List.drop_length_add_append]

/-- Byte `j` of packed whole groups of eight bits is the value of the group `j` (40_framer.md R109). -/
theorem toNat_pack_getElem {b : Bits} {j : Nat} (h8 : b.length % 8 = 0) (h : j < (pack b).length) :
    (pack b)[j].toNat = bitsVal ((b.drop (8 * j)).take 8) := by
  rw [← bitsVal_bitsOf, ← bitsOfBytes_drop_take h, bitsOfBytes_pack b h8]

/-- Settles O21: the frame's bits are whole groups of eight, and group `j` lies `8 * j` bits behind the sync offset. -/
theorem extractionTakesBitsAtAnyOffset : Obligations.ExtractionTakesBitsAtAnyOffset := by
  intro c fr hcur
  have hbits : ((fr.buf.drop fr.syncOff).take c.frameBits).length = 8 * c.frameLen := by
    simp only [Framer.cur] at hcur
    simp only [List.length_take, List.length_drop, Cfg.frameBits] at hcur ⊢
    omega
  have hlen : (extractFrame c fr).length = c.frameLen := by
    rw [extractFrame, pack_length, hbits, Nat.mul_div_cancel_left _ (by decide)]
  refine ⟨hlen, fun j hj => ?_⟩
  have hj' : j < (extractFrame c fr).length := hlen.symm ▸ hj
  refine ⟨(extractFrame c fr)[j], List.getElem?_eq_getElem hj', ?_⟩
  have hwindow : 8 ≤ c.frameBits - 8 * j := by
    simp only [Cfg.frameBits]
    omega
  refine (toNat_pack_getElem (by rw [hbits, Nat.mul_mod_right]) hj').trans ?_
  rw [List.drop_take, List.drop_drop, List.take_take,
    min_eq_left hwindow]

end Sys2Proof.Machine
end

section
/-! PROOFS. The frames of a bit stream (FramesAreAFunctionOfTheStream): each cycle of the recurrence of R113 is a run of
pulls, a correlation, a run of pulls and an emission, and what is still to come is the buffered bits and those of IN. -/

namespace Sys2Proof.Machine

/-! Runs of the Framer's own turns. -/

/-- One enabled step of a Framer that no decode holds up. -/
def FramerMove (s t : State) : Prop := s.work = none ∧ ∃ i, framerStep s = some i ∧ exec i s = .next t

/-- The Framer's steps leave the agenda alone, and do not read it. -/
theorem exec_framerSteps_setAgenda {i : Instr} {s t : State} (agenda : List Event) (hi : framerStep s = some i)
    (h : exec i s = .next t) : exec i (s.setAgenda agenda) = .next (t.setAgenda agenda) := by
  obtain ⟨rfl, hen⟩ | ⟨rfl, hen⟩ | ⟨rfl, hen⟩ | ⟨rfl, hen⟩ | ⟨rfl, hen⟩ := framerStep_cases hi
  · obtain ⟨-, -, v, rest, hin⟩ := (frPullEnabled_iff s).1 hen
    cases (execFrPull_enabled hen hin).symm.trans h
    exact execFrPull_enabled (s := s.setAgenda agenda) hen hin
  · cases (show execFrReadFail s = _ from if_pos hen).symm.trans h
    exact if_pos hen
  · cases (execFrCorrelate_enabled hen).symm.trans h
    exact execFrCorrelate_enabled (s := s.setAgenda agenda) hen
  · cases (execFrEmit_enabled hen).symm.trans h
    exact execFrEmit_enabled (s := s.setAgenda agenda) hen
  · cases (show execFrPublishFail s = _ from if_pos hen).symm.trans h
    exact if_pos hen

/-- The turn of the Framer that the agenda holds is its enabled step. -/
theorem FramerMove.step {s t : State} (h : FramerMove s t) (rest : List Event) :
    step (s.setAgenda (.framer :: rest)) = .next (t.setAgenda rest) := by
  obtain ⟨hw, i, hi, ht⟩ := h
  have hi' : framerStep (s.setAgenda rest) = some i := hi
  calc Machine.step (s.setAgenda (.framer :: rest))
      = framerTurn (s.setAgenda rest) := by simp only [Machine.step, State.setAgenda_work, hw]; rfl
    _ = exec i (s.setAgenda rest) := by rw [framerTurn, hi']
    _ = .next (t.setAgenda rest) := exec_framerSteps_setAgenda rest hi ht

/-- Some number of enabled Framer steps. -/
def FramerRuns : State → State → Prop := Relation.ReflTransGen FramerMove

/-- A run of the Framer is a run of the block on an agenda of Framer turns. -/
theorem FramerRuns.run {s t : State} (h : FramerRuns s t) :
    ∃ k, Host.Core.run Sys2Proof.core k (s.setAgenda (List.replicate k .framer)) = .next (t.setAgenda []) := by
  induction h using Relation.ReflTransGen.head_induction_on with
  | refl => exact ⟨0, rfl⟩
  | head hmove _ ih =>
    obtain ⟨k, hk⟩ := ih
    exact ⟨k + 1, (run_succ_of_next (hmove.step _)).trans hk⟩

/-! The parts of a cycle. -/

/-- A Framer that runs on the bytes `bytes` in IN, with Q open. -/
structure Framing (s : State) (bytes : List Byte) : Prop where
  noWork : s.work = none
  running : s.fr.stage = .running
  input : s.inp = bytes.map .byte
  isOpen : s.q.closed = false

/-- The bits that the Framer has not taken for a frame: those buffered, and those of the bytes in IN. -/
def pendingBits (s : State) (bytes : List Byte) : Bits := s.fr.buf ++ bitsOfBytes bytes

/-- With IN empty they are those buffered. -/
theorem pendingBits_nil_length (s : State) : (pendingBits s []).length = s.fr.cur := by
  rw [pendingBits, bitsOfBytes, List.flatMap_nil, List.append_nil, Framer.cur]

/-- Those buffered are among them. -/
theorem cur_le_pendingBits_length (s : State) (bytes : List Byte) : s.fr.cur ≤ (pendingBits s bytes).length := by
  rw [pendingBits, List.length_append]
  exact Nat.le_add_right _ _

/-- What the pulls of one phase leave as it was. -/
structure PulledFrom (s t : State) : Prop where
  cfg : t.cfg = s.cfg
  phase : t.fr.phase = s.fr.phase
  syncOff : t.fr.syncOff = s.fr.syncOff
  inv : t.fr.inv = s.fr.inv
  q : t.q = s.q
  ftrace : t.ftrace = s.ftrace

/-- No pull at all. -/
theorem PulledFrom.refl (s : State) : PulledFrom s s := ⟨rfl, rfl, rfl, rfl, rfl, rfl⟩

/-- Pulls after pulls. -/
theorem PulledFrom.trans {s m t : State} (h : PulledFrom s m) (h' : PulledFrom m t) : PulledFrom s t :=
  ⟨h'.cfg.trans h.cfg, h'.phase.trans h.phase, h'.syncOff.trans h.syncOff, h'.inv.trans h.inv, h'.q.trans h.q,
    h'.ftrace.trans h.ftrace⟩

/-- FR_PULL of the next byte. -/
theorem Framing.pull {s : State} {v : Byte} {bytes : List Byte} (h : Framing s (v :: bytes))
    (hn : need s.cfg s.fr = true) :
    ∃ t, FramerMove s t ∧ Framing t bytes ∧ PulledFrom s t ∧ pendingBits t bytes = pendingBits s (v :: bytes) := by
  have hen : frPullEnabled s = true := (frPullEnabled_iff s).2 ⟨h.running, hn, v, bytes.map .byte, h.input⟩
  refine ⟨_, ⟨h.noWork, .frPull, (framerStep_eq_frPull_iff s).2 hen, execFrPull_enabled hen h.input⟩,
    ⟨h.noWork, h.running, rfl, h.isOpen⟩, ⟨rfl, rfl, rfl, rfl, rfl, rfl⟩, ?_⟩
  simp only [pendingBits, State.setFr_fr, bitsOfBytes_cons, List.append_assoc]

/-- The Framer pulls until it needs no byte or IN is empty; no bit is lost (40_framer.md R101). -/
theorem Framing.pullAll {s : State} {bytes : List Byte} (h : Framing s bytes) :
    ∃ t rest, FramerRuns s t ∧ Framing t rest ∧ PulledFrom s t ∧ pendingBits t rest = pendingBits s bytes ∧
      (need t.cfg t.fr = true → rest = []) := by
  induction bytes generalizing s with
  | nil => exact ⟨s, [], .refl, h, .refl s, rfl, fun _ => rfl⟩
  | cons v bytes ih =>
    cases hn : need s.cfg s.fr with
    | false => exact ⟨s, v :: bytes, .refl, h, .refl s, rfl, by simp [hn]⟩
    | true =>
      obtain ⟨m, hmove, hm, hsm, hbits⟩ := h.pull hn
      obtain ⟨t, rest, hruns, ht, hmt, hbits', hend⟩ := ih hm
      exact ⟨t, rest, .head hmove hruns, ht, hsm.trans hmt, hbits'.trans hbits, hend⟩

/-- What FR_CORRELATE changes: the phase, and the offset and polarity found in the first `8F` bits of `stream`
(40_framer.md R103). -/
structure CorrelatedFrom (stream : Bits) (s t : State) : Prop where
  cfg : t.cfg = s.cfg
  phase : t.fr.phase = .deoffset
  found : (t.fr.syncOff, t.fr.inv) = corr s.cfg (stream.take s.cfg.frameBits)
  q : t.q = s.q
  ftrace : t.ftrace = s.ftrace

/-- FR_CORRELATE of the first frame length of the pending bits. -/
theorem Framing.correlate {s : State} {bytes : List Byte} (h : Framing s bytes) (hp : s.fr.phase = .read)
    (hn : need s.cfg s.fr = false) :
    ∃ t, FramerMove s t ∧ Framing t bytes ∧ CorrelatedFrom (pendingBits s bytes) s t ∧
      pendingBits t bytes = pendingBits s bytes := by
  have hcur : s.cfg.frameBits ≤ s.fr.cur := not_need_read hn hp
  have hen : frCorrelateEnabled s = true := (frCorrelateEnabled_iff s).2 ⟨h.running, hp, hcur⟩
  have hwindow : (pendingBits s bytes).take s.cfg.frameBits = s.fr.buf.take s.cfg.frameBits :=
    List.take_append_of_le_length hcur
  refine ⟨_, ⟨h.noWork, .frCorrelate, (framerStep_eq_frCorrelate_iff s).2 hen, execFrCorrelate_enabled hen⟩,
    ⟨h.noWork, h.running, h.input, h.isOpen⟩, ⟨rfl, rfl, ?_, rfl, rfl⟩, rfl⟩
  rw [hwindow]
  rfl

/-- What FR_EMIT publishes from the pending bits `stream` (40_framer.md R108, R109). -/
def nextPublished (s : State) (stream : Bits) : Published :=
  ⟨pack ((stream.drop s.fr.syncOff).take s.cfg.frameBits), s.fr.inv, s.fr.syncOff⟩

/-- What FR_EMIT changes beside the buffer (40_framer.md R108). -/
structure EmittedFrom (stream : Bits) (s t : State) : Prop where
  cfg : t.cfg = s.cfg
  phase : t.fr.phase = .read
  items : t.q.items = s.q.items ++ [⟨(nextPublished s stream).frame, (nextPublished s stream).inv⟩]
  ftrace : t.ftrace = s.ftrace ++ [nextPublished s stream]

/-- FR_EMIT of the frame at the sync offset of the pending bits; those after it go on (40_framer.md R110). -/
theorem Framing.emit {s : State} {bytes : List Byte} (h : Framing s bytes) (hp : s.fr.phase = .deoffset)
    (hn : need s.cfg s.fr = false) (hroom : s.q.items.length < s.cfg.fifoDepth) :
    ∃ t, FramerMove s t ∧ Framing t bytes ∧ EmittedFrom (pendingBits s bytes) s t ∧
      pendingBits t bytes = (pendingBits s bytes).drop (s.fr.syncOff + s.cfg.frameBits) := by
  have hcur : s.fr.syncOff + s.cfg.frameBits ≤ s.fr.buf.length := not_need_deoffset hn hp
  have hen : frEmitEnabled s = true :=
    (frEmitEnabled_iff s).2 ⟨h.running, (frameReady_iff _ _).2 ⟨hp, hcur⟩, h.isOpen, hroom⟩
  have hframe : extractFrame s.cfg s.fr = (nextPublished s (pendingBits s bytes)).frame := by
    simp only [extractFrame, nextPublished, pendingBits]
    rw [List.drop_append_of_le_length (by omega), List.take_append_of_le_length (by rw [List.length_drop]; omega)]
  refine ⟨_, ⟨h.noWork, .frEmit, (framerStep_eq_frEmit_iff s).2 hen, execFrEmit_enabled hen⟩,
    ⟨h.noWork, h.running, h.input, h.isOpen⟩, ⟨rfl, rfl, ?_, ?_⟩, (List.drop_append_of_le_length hcur).symm⟩
  · rw [hframe]
    rfl
  · rw [hframe]
    rfl

/-! What is published in the end. -/

/-- The Framer's own turns lead from `s` to a state where it waits with IN empty, and on the way publish exactly
`frames`. -/
def PublishesThenWaits (s : State) (frames : List Published) : Prop :=
  ∃ t, FramerRuns s t ∧ framerStep t = none ∧ t.inp = [] ∧ t.ftrace = s.ftrace ++ frames ∧
    t.q.items = s.q.items ++ frames.map fun p => ⟨p.frame, p.inv⟩

/-- A Framer that needs a byte of an empty IN waits. -/
theorem PublishesThenWaits.waiting {s : State} (h : Framing s []) (hn : need s.cfg s.fr = true) :
    PublishesThenWaits s [] :=
  ⟨s, .refl, (framerStep_eq_none_iff_of_need h.running hn).2 h.input, h.input, by simp, by simp⟩

/-- Turns that publish nothing come first. -/
theorem PublishesThenWaits.after_silent {s m : State} {frames : List Published} (hruns : FramerRuns s m)
    (hq : m.q = s.q) (hftrace : m.ftrace = s.ftrace) (h : PublishesThenWaits m frames) :
    PublishesThenWaits s frames := by
  obtain ⟨t, ht, hwait, hin, htrace, hitems⟩ := h
  exact ⟨t, hruns.trans ht, hwait, hin, hftrace ▸ htrace, hq ▸ hitems⟩

/-- An emission comes first. -/
theorem PublishesThenWaits.after_emission {s m : State} {p : Published} {frames : List Published}
    (hmove : FramerMove s m) (hq : m.q.items = s.q.items ++ [⟨p.frame, p.inv⟩])
    (hftrace : m.ftrace = s.ftrace ++ [p])
    (h : PublishesThenWaits m frames) : PublishesThenWaits s (p :: frames) := by
  obtain ⟨t, ht, hwait, hin, htrace, hitems⟩ := h
  refine ⟨t, .head hmove ht, hwait, hin, ?_, ?_⟩
  · rw [htrace, hftrace, List.append_assoc, List.singleton_append]
  · rw [hitems, hq, List.append_assoc, List.singleton_append, List.map_cons]

/-! The cycle (40_framer.md R113). -/

/-- In READ the Framer waits where the stream is short of a frame length, and correlates where it is not. -/
theorem Framing.publishes_read {s : State} {bytes : List Byte} {frames : List Published} (h : Framing s bytes)
    (hp : s.fr.phase = .read)
    (hnext : ∀ t rest, Framing t rest → CorrelatedFrom (pendingBits s bytes) s t →
      pendingBits t rest = pendingBits s bytes → PublishesThenWaits t frames) :
    PublishesThenWaits s (if (pendingBits s bytes).length < s.cfg.frameBits then [] else frames) := by
  obtain ⟨t, rest, hruns, ht, hst, hbits, hend⟩ := h.pullAll
  have hpt : t.fr.phase = .read := hst.phase.trans hp
  refine .after_silent hruns hst.q hst.ftrace ?_
  rw [← hst.cfg, ← hbits]
  cases hn : need t.cfg t.fr with
  | true =>
    obtain rfl := hend hn
    rw [pendingBits_nil_length, if_pos (need_read hn hpt)]
    exact .waiting ht hn
  | false =>
    have hlong : t.cfg.frameBits ≤ (pendingBits t rest).length :=
      (not_need_read hn hpt).trans (cur_le_pendingBits_length t rest)
    rw [if_neg hlong.not_gt]
    obtain ⟨m, hmove, hm, htm, hbits'⟩ := ht.correlate hpt hn
    refine .after_silent (.single hmove) htm.q htm.ftrace (hnext m rest hm ?_ (hbits'.trans hbits))
    exact ⟨htm.cfg.trans hst.cfg, htm.phase, by rw [htm.found, hst.cfg, hbits], htm.q.trans hst.q,
      htm.ftrace.trans hst.ftrace⟩

/-- In DEOFFSET the Framer waits where the stream is short of the frame at the sync offset, and emits that frame where
it is not. -/
theorem Framing.publishes_deoffset {s : State} {bytes : List Byte} {frames : List Published} (h : Framing s bytes)
    (hp : s.fr.phase = .deoffset)
    (hroom : s.fr.syncOff + s.cfg.frameBits ≤ (pendingBits s bytes).length → s.q.items.length < s.cfg.fifoDepth)
    (hnext : ∀ t rest, Framing t rest → EmittedFrom (pendingBits s bytes) s t →
      s.fr.syncOff + s.cfg.frameBits ≤ (pendingBits s bytes).length →
      pendingBits t rest = (pendingBits s bytes).drop (s.fr.syncOff + s.cfg.frameBits) →
      PublishesThenWaits t frames) :
    PublishesThenWaits s
      (if (pendingBits s bytes).length < s.fr.syncOff + s.cfg.frameBits then []
        else nextPublished s (pendingBits s bytes) :: frames) := by
  obtain ⟨t, rest, hruns, ht, hst, hbits, hend⟩ := h.pullAll
  have hpt : t.fr.phase = .deoffset := hst.phase.trans hp
  have hpub : nextPublished t (pendingBits s bytes) = nextPublished s (pendingBits s bytes) := by
    simp only [nextPublished, hst.syncOff, hst.inv, hst.cfg]
  refine .after_silent hruns hst.q hst.ftrace ?_
  cases hn : need t.cfg t.fr with
  | true =>
    obtain rfl := hend hn
    rw [← hbits, ← hst.cfg, ← hst.syncOff, pendingBits_nil_length, if_pos (need_deoffset hn hpt)]
    exact .waiting ht hn
  | false =>
    have hlong : s.fr.syncOff + s.cfg.frameBits ≤ (pendingBits s bytes).length := by
      rw [← hbits, ← hst.cfg, ← hst.syncOff]
      exact (not_need_deoffset hn hpt).trans (cur_le_pendingBits_length t rest)
    rw [if_neg hlong.not_gt]
    obtain ⟨m, hmove, hm, htm, hbits'⟩ := ht.emit hpt hn (by rw [hst.q, hst.cfg]; exact hroom hlong)
    rw [hbits] at htm
    rw [hbits, hst.cfg, hst.syncOff] at hbits'
    have hsm : EmittedFrom (pendingBits s bytes) s m :=
      ⟨htm.cfg.trans hst.cfg, htm.phase, by rw [htm.items, hst.q, hpub], by rw [htm.ftrace, hst.ftrace, hpub]⟩
    exact hpub ▸ .after_emission hmove htm.items htm.ftrace (hnext m rest hm hsm hlong hbits')

/-- Where there was room for a frame in each `size` bits, there is after a frame and the bits before it. -/
theorem room_after_frame {items bits skipped size depth : Nat} (hpos : 0 < size)
    (hroom : items + bits / size ≤ depth) (hlong : skipped + size ≤ bits) :
    items + 1 + (bits - (skipped + size)) / size ≤ depth := by
  have hdiv : (bits - (skipped + size)) / size + 1 ≤ bits / size := by
    rw [← Nat.add_div_right _ hpos]
    exact Nat.div_le_div_right (by omega)
  omega

/-- The frames that are still to come, one cycle for each: a Framer in READ with room for a frame in each frame length
of its pending bits publishes what the recurrence computes from them. -/
theorem Framing.publishes_streamFrames {fuel : Nat} {s : State} {bytes : List Byte} (h : Framing s bytes)
    (hpos : 0 < s.cfg.frameBits) (hp : s.fr.phase = .read)
    (hfuel : (pendingBits s bytes).length < fuel * s.cfg.frameBits)
    (hroom : s.q.items.length + (pendingBits s bytes).length / s.cfg.frameBits ≤ s.cfg.fifoDepth) :
    PublishesThenWaits s (streamFrames s.cfg fuel (pendingBits s bytes)) := by
  induction fuel generalizing s bytes with
  | zero => simp at hfuel
  | succ fuel ih =>
    rw [streamFrames]
    refine h.publishes_read hp fun m rest hm hsm hbits => ?_
    simp only [← hsm.found]
    rw [← hbits, ← hsm.cfg] at hfuel hroom ⊢
    rw [← hsm.cfg] at hpos
    rw [← hsm.q] at hroom
    refine hm.publishes_deoffset hsm.phase (fun hlong => (Nat.le_add_right _ _).trans (room_after_frame hpos hroom hlong))
      fun u rest' hu hmu hlong hbits' => ?_
    rw [← hbits', ← hmu.cfg]
    refine ih hu (hmu.cfg ▸ hpos) hmu.phase ?_ ?_
    · rw [Nat.add_mul, Nat.one_mul] at hfuel
      rw [hbits', hmu.cfg, List.length_drop]
      omega
    · rw [hbits', hmu.cfg, hmu.items, List.length_append, List.length_singleton, List.length_drop]
      exact room_after_frame hpos hroom hlong

/-- A byte list has eight bits for each byte. -/
theorem bitsOfBytes_length (bytes : List Byte) : (bitsOfBytes bytes).length = 8 * bytes.length := by
  induction bytes with
  | nil => rfl
  | cons v bytes ih =>
    rw [bitsOfBytes_cons, List.length_append, ih, List.length_cons, Nat.mul_succ, Nat.add_comm]
    rfl

/-- Settles O23: the fresh Framer's pending bits are the whole stream, and a frame has at least eight bits. -/
theorem framesAreAFunctionOfTheStream : Obligations.FramesAreAFunctionOfTheStream := by
  intro s bytes hok hw hfr hin hopen hroom published
  obtain ⟨hsync, hsyncFrame⟩ := Cfg.framerOk_lengths hok
  have h : Framing s bytes := ⟨hw, by rw [hfr], hin, hopen⟩
  have hbits : pendingBits s bytes = bitsOfBytes bytes := by
    rw [pendingBits, hfr]
    rfl
  have hfuel : 8 * bytes.length < (bytes.length + 1) * s.cfg.frameBits := by
    have := Nat.mul_le_mul_left (bytes.length + 1) (hsync.trans hsyncFrame)
    omega
  have hpublishes : PublishesThenWaits s (streamFrames s.cfg (bytes.length + 1) (pendingBits s bytes)) :=
    h.publishes_streamFrames (by omega) (by rw [hfr]; rfl) (by rw [hbits, bitsOfBytes_length]; exact hfuel)
      (by rw [hbits, bitsOfBytes_length]; exact hroom)
  rw [hbits] at hpublishes
  obtain ⟨t, hruns, hwait, hempty, htrace, hitems⟩ := hpublishes
  obtain ⟨k, hk⟩ := hruns.run
  exact ⟨k, t.setAgenda [], hk, hwait, hempty, htrace, hitems⟩

end Sys2Proof.Machine
end

section
/-! PROOFS. The descrambler (DescrambleResult, ScrambleIsTheInverse): the bit reversal and the XOR with one mask undo
themselves, so the transform and its inverse undo each other byte by byte. -/

namespace Sys2Proof.Machine

/-! One byte. -/

/-- Bit `k` of the reversed byte is bit `7 - k`: read from its end, the list of bits of `bitrev8` has bit `7 - k` at `k`
(41_descrambler.md R130). -/
theorem bitrev8_getLsbD (v : Byte) {k : Nat} (hk : k < 8) : (bitrev8 v).getLsbD k = v.getLsbD (7 - k) := by
  rw [bitrev8, BitVec.getLsbD_ofNat, decide_eq_true hk, Bool.true_and]
  refine (testBit_bitsVal_reverse [v.getLsbD 7, v.getLsbD 6, v.getLsbD 5, v.getLsbD 4, v.getLsbD 3, v.getLsbD 2,
    v.getLsbD 1, v.getLsbD 0] k).trans ?_
  interval_cases k <;> rfl

/-- The bit reversal undoes itself. -/
@[simp] theorem bitrev8_bitrev8 (v : Byte) : bitrev8 (bitrev8 v) = v := by
  refine BitVec.eq_of_getLsbD_eq fun k hk => ?_
  rw [bitrev8_getLsbD _ hk, bitrev8_getLsbD _ (by omega), Nat.sub_sub_self (Nat.le_of_lt_succ hk)]

/-- XOR with the same two bytes undoes itself (41_descrambler.md R134). -/
theorem xor_two_cancel (v p m : Byte) : v ^^^ p ^^^ m ^^^ p ^^^ m = v := by
  rw [BitVec.xor_assoc (v ^^^ p ^^^ m), BitVec.xor_assoc v, BitVec.xor_assoc v, BitVec.xor_self, BitVec.xor_zero]

/-- `prnByte` is the table's byte where the table has it (41_descrambler.md R130). -/
theorem prnByte_of_table {c : Cfg} {i : Nat} {p : Byte} (hperiod : 0 < c.prnPeriod)
    (hp : c.prn.toList[i % c.prnPeriod]? = some p) : prnByte c i = p := by
  obtain ⟨hlt, hget⟩ := List.getElem?_eq_some_iff.1 hp
  rw [Vector.length_toList] at hlt
  rw [prnByte, dif_pos ⟨hperiod, hlt⟩, ← hget, Vector.getElem_toList]

/-- Descrambling a scrambled byte gives the byte. -/
@[simp] theorem descrambleByte_scrambleByte (c : Cfg) (i : Nat) (v : Byte) :
    descrambleByte c i (scrambleByte c i v) = v := by
  rw [descrambleByte, scrambleByte, bitrev8_bitrev8, xor_two_cancel]

/-- Scrambling a descrambled byte gives the byte. -/
@[simp] theorem scrambleByte_descrambleByte (c : Cfg) (i : Nat) (v : Byte) :
    scrambleByte c i (descrambleByte c i v) = v := by
  rw [scrambleByte, descrambleByte, xor_two_cancel, bitrev8_bitrev8]

/-! The byte list. -/

/-- Each byte of the transform depends on the byte at its index and on that index alone (41_descrambler.md R130). -/
theorem descrambleFrom_getElem? (c : Cfg) (i : Nat) (bytes : List Byte) (j : Nat) :
    (descrambleFrom c i bytes)[j]? = bytes[j]?.map (descrambleByte c (i + j)) := by
  induction bytes generalizing i j with
  | nil => rfl
  | cons v rest ih =>
    cases j with
    | zero => rfl
    | succ j => simp only [descrambleFrom, List.getElem?_cons_succ, ih, Nat.add_right_comm i 1 j, Nat.add_assoc]

/-- Descrambling a scrambled list, from any index, gives the list. -/
theorem descrambleFrom_scrambleFrom (c : Cfg) (i : Nat) (x : List Byte) :
    descrambleFrom c i (scrambleFrom c i x) = x := by
  induction x generalizing i with
  | nil => rfl
  | cons v rest ih => rw [scrambleFrom, descrambleFrom, descrambleByte_scrambleByte, ih]

/-- Scrambling a descrambled list, from any index, gives the list. -/
theorem scrambleFrom_descrambleFrom (c : Cfg) (i : Nat) (y : List Byte) :
    scrambleFrom c i (descrambleFrom c i y) = y := by
  induction y generalizing i with
  | nil => rfl
  | cons v rest ih => rw [descrambleFrom, scrambleFrom, scrambleByte_descrambleByte, ih]

/-- Settles O36: the two lists agree byte by byte, from every index. -/
theorem scrambleIsTheInverse : Obligations.ScrambleIsTheInverse := fun c x =>
  ⟨descrambleFrom_scrambleFrom c 0 x, scrambleFrom_descrambleFrom c 0 x⟩

/-- Inside a frame decode DESCRAMBLE writes FRM and the stage only. -/
theorem exec_descramble {s : State} {w : Work} (hw : s.work = some w) :
    exec .descramble s = .next (s.setWork (some { w with frm := descrambleFrom s.cfg 0 w.frm, stage := .fec })) :=
  onPipe_inside descrambleOp s w _ hw rfl

/-- Settles O35: the frame written is the transform of FRM, read at each index and at each bit of a byte. -/
theorem descrambleResult : Obligations.DescrambleResult := by
  refine ⟨fun s w hw => ⟨_, exec_descramble hw, descrambleFrom_length _ _ _, fun i v p hv hperiod hp => ?_⟩,
    fun v k hk => bitrev8_getLsbD v hk⟩
  have hbyte : descrambleByte s.cfg i v = bitrev8 v ^^^ p ^^^ s.cfg.whitenMask := by
    rw [descrambleByte, prnByte_of_table hperiod hp]
  rw [descrambleFrom_getElem?, hv, Nat.zero_add, Option.map_some, hbyte]

end Sys2Proof.Machine
end

section
/-! PROOFS. The field of the code (BytesAreAField, AlphaIsPrimitive): multiplication is a sum of shifts of its left
factor, which gives the ring; the order of the primitive element gives the inverses. -/

namespace Sys2Proof.Machine

/-- In a sum of two sums, what both of them hold drops out. -/
theorem xor_xor_cancel {n : Nat} (a b p : BitVec n) : a ^^^ p ^^^ (b ^^^ p) = a ^^^ b := by
  rw [BitVec.xor_comm b p, BitVec.xor_assoc, ← BitVec.xor_assoc p p, BitVec.xor_self, BitVec.zero_xor]

/-! The multiplication loop is linear in each factor (42_reed_solomon.md R140). -/

/-- The shift of a sum is the sum of the shifts: the reduction happens where one of the two top bits is set. -/
theorem xtime_xor (poly : BitVec 9) (a b : Byte) : xtime poly (a ^^^ b) = xtime poly a ^^^ xtime poly b := by
  simp only [xtime, BitVec.setWidth_xor, BitVec.shiftLeft_xor_distrib, BitVec.getLsbD_xor]
  cases ((a.setWidth 9 <<< 1).getLsbD 8) <;> cases ((b.setWidth 9 <<< 1).getLsbD 8) <;>
    simp only [BitVec.setWidth_xor, Bool.xor_false, Bool.xor_true, Bool.not_false, Bool.not_true, Bool.false_eq_true,
      if_true, if_false]
  · ac_rfl
  · ac_rfl
  · rw [xor_xor_cancel]

/-- The loop is additive in the left factor and the accumulator. -/
theorem gmulLoop_xor_left (poly : BitVec 9) (k : Nat) (a a' b p p' : Byte) :
    gmulLoop poly k (a ^^^ a') b (p ^^^ p') = gmulLoop poly k a b p ^^^ gmulLoop poly k a' b p' := by
  induction k generalizing a a' b p p' with
  | zero => rfl
  | succ k ih =>
    simp only [gmulLoop, xtime_xor, ← ih]
    cases b.getLsbD 0
    · rfl
    · simp only [if_true]
      ac_rfl

/-- The loop is additive in the right factor and the accumulator. -/
theorem gmulLoop_xor_right (poly : BitVec 9) (k : Nat) (a b b' p p' : Byte) :
    gmulLoop poly k a (b ^^^ b') (p ^^^ p') = gmulLoop poly k a b p ^^^ gmulLoop poly k a b' p' := by
  induction k generalizing a b b' p p' with
  | zero => rfl
  | succ k ih =>
    simp only [gmulLoop, BitVec.ushiftRight_xor_distrib, ← ih, BitVec.getLsbD_xor]
    congr 1
    cases b.getLsbD 0 <;> cases b'.getLsbD 0 <;>
      simp only [Bool.xor_false, Bool.xor_true, Bool.not_false, Bool.not_true, Bool.false_eq_true, if_true, if_false]
    · ac_rfl
    · ac_rfl
    · rw [xor_xor_cancel]

/-- An additive map that commutes with the shift commutes with the loop, since the loop only shifts and adds its left
factor. -/
theorem map_gmulLoop {poly : BitVec 9} {f : Byte → Byte} (hxor : ∀ x y, f (x ^^^ y) = f x ^^^ f y)
    (hxtime : ∀ x, f (xtime poly x) = xtime poly (f x)) (k : Nat) (a b p : Byte) :
    f (gmulLoop poly k a b p) = gmulLoop poly k (f a) b (f p) := by
  induction k generalizing a b p with
  | zero => rfl
  | succ k ih =>
    rw [gmulLoop, gmulLoop, ih, hxtime, apply_ite f, hxor]

/-- Multiplication distributes over XOR on the left factor. -/
theorem xor_gmul (c : Cfg) (x y z : Byte) : gmul c (x ^^^ y) z = gmul c x z ^^^ gmul c y z := by
  simpa [gmul] using gmulLoop_xor_left c.gfPoly 8 x y z 0 0

/-- Multiplication distributes over XOR on the right factor. -/
theorem gmul_xor (c : Cfg) (x y z : Byte) : gmul c x (y ^^^ z) = gmul c x y ^^^ gmul c x z := by
  simpa [gmul] using gmulLoop_xor_right c.gfPoly 8 x y z 0 0

/-- An additive map sends 0 to 0. -/
theorem map_zero_of_xor {f : Byte → Byte} (hxor : ∀ x y, f (x ^^^ y) = f x ^^^ f y) : f 0 = 0 := by
  simpa using hxor 0 0

/-- Two right factors change places: multiplication by the second one is an additive map that commutes with the shift,
as the shift itself does. -/
theorem gmul_right_comm (c : Cfg) (x y z : Byte) : gmul c (gmul c x y) z = gmul c (gmul c x z) y := by
  have hshift (a : Byte) : gmul c (xtime c.gfPoly a) z = xtime c.gfPoly (gmul c a z) := by
    have h := map_gmulLoop (xtime_xor c.gfPoly) (fun _ => rfl) 8 a z 0
    rw [map_zero_of_xor (xtime_xor c.gfPoly)] at h
    exact h.symm
  have h := map_gmulLoop (f := fun a => gmul c a z) (fun a b => xor_gmul c a b z) hshift 8 x y 0
  rw [map_zero_of_xor (f := fun a => gmul c a z) fun a b => xor_gmul c a b z] at h
  exact h

/-- 1 is the left unit: its eight shifts are the bits of a byte. -/
theorem one_gmul {c : Cfg} (hc : c.gfPoly = 0x11D) (x : Byte) : gmul c 1 x = x := by
  have hall : ∀ x : Byte, gmulLoop 0x11D 8 1 x 0 = x := by decide +kernel
  rw [gmul, hc, hall]

/-- Multiplication is commutative: both sides are 1 with the two factors in one order or the other. -/
theorem gmul_comm {c : Cfg} (hc : c.gfPoly = 0x11D) (x y : Byte) : gmul c x y = gmul c y x := by
  have h := gmul_right_comm c 1 x y
  rwa [one_gmul hc, one_gmul hc] at h

/-- Multiplication is associative. -/
theorem gmul_assoc {c : Cfg} (hc : c.gfPoly = 0x11D) (x y z : Byte) :
    gmul c (gmul c x y) z = gmul c x (gmul c y z) := by
  rw [gmul_comm hc x y, gmul_right_comm, gmul_comm hc]

/-! The bytes as a ring of Mathlib's. -/

/-- `φ` names the elements of the ring `R` by bytes, with XOR as the sum and `gmul` as the product. -/
structure IsByteRing (c : Cfg) {R : Type} [CommRing R] (φ : Byte ≃ R) : Prop where
  map_xor : ∀ x y, φ (x ^^^ y) = φ x + φ y
  map_gmul : ∀ x y, φ (gmul c x y) = φ x * φ y
  map_one : φ 1 = 1

/-- The bytes as a ring: XOR is the sum, and each byte is its own negative. -/
abbrev byteRing {c : Cfg} (hc : c.gfPoly = 0x11D) : CommRing Byte :=
  @CommRing.ofMinimalAxioms Byte ⟨(· ^^^ ·)⟩ ⟨gmul c⟩ ⟨id⟩ ⟨0⟩ ⟨1⟩ BitVec.xor_assoc
    (fun _ => BitVec.zero_xor) (fun _ => BitVec.xor_self) (gmul_assoc hc) (gmul_comm hc) (one_gmul hc) (gmul_xor c)

/-- Under the default polynomial there is such a ring: the bytes themselves. -/
theorem exists_isByteRing {c : Cfg} (hc : c.gfPoly = 0x11D) :
    ∃ (R : Type) (_ : CommRing R) (φ : Byte ≃ R), IsByteRing c φ :=
  ⟨Byte, byteRing hc, .refl _, @IsByteRing.mk c Byte (byteRing hc) (.refl _) (fun _ _ => rfl) (fun _ _ => rfl) rfl⟩

section ring

variable {c : Cfg} {R : Type} [CommRing R] {φ : Byte ≃ R}

/-- The byte 0 names the zero of the ring. -/
theorem IsByteRing.map_zero (h : IsByteRing c φ) : φ 0 = 0 := by
  simpa using h.map_xor 0 0

/-- The ring has characteristic 2. -/
theorem IsByteRing.add_self (h : IsByteRing c φ) (x : R) : x + x = 0 := by
  obtain ⟨b, rfl⟩ := φ.surjective x
  rw [← h.map_xor, BitVec.xor_self]
  exact h.map_zero

/-- Each element is its own negative. -/
theorem IsByteRing.neg_eq (h : IsByteRing c φ) (x : R) : -x = x :=
  neg_eq_of_add_eq_zero_left (h.add_self x)

/-- Only the byte 0 names the zero. -/
theorem IsByteRing.map_eq_zero_iff (h : IsByteRing c φ) (x : Byte) : φ x = 0 ↔ x = 0 := by
  rw [← h.map_zero, φ.apply_eq_iff_eq]

/-- Only the byte 1 names the unit. -/
theorem IsByteRing.map_eq_one_iff (h : IsByteRing c φ) (x : Byte) : φ x = 1 ↔ x = 1 := by
  rw [← h.map_one, φ.apply_eq_iff_eq]

/-- The ring is not trivial: 0 and 1 are two bytes. -/
theorem IsByteRing.zero_ne_one (h : IsByteRing c φ) : (0 : R) ≠ 1 := by
  rw [← h.map_zero, ← h.map_one]
  exact φ.injective.ne (by decide)

/-- The loop of the powers multiplies by the power. -/
theorem IsByteRing.map_gpowFrom (h : IsByteRing c φ) (a : Byte) (e : Nat) (y : Byte) :
    φ (gpowFrom c a e y) = φ y * φ a ^ e := by
  induction e generalizing y with
  | zero => simp [gpowFrom]
  | succ e ih => rw [gpowFrom, strict_eq, ih, h.map_gmul, pow_succ]; ring

/-- `gpow` is the power of the ring. -/
theorem IsByteRing.map_gpow (h : IsByteRing c φ) (a : Byte) (e : Nat) : φ (gpow c a e) = φ a ^ e := by
  rw [gpow, h.map_gpowFrom, h.map_one, one_mul]

/-! The order of the primitive element (42_reed_solomon.md R141). -/

/-- Powers depend on the configuration through its polynomial alone. -/
theorem gpow_eq_default {c : Cfg} (hc : c.gfPoly = 0x11D) : gpow c = gpow Cfg.rs41 := by
  have hmul : gmul c = gmul Cfg.rs41 := by funext x y; rw [gmul, hc]; rfl
  have hfrom (a : Byte) (e : Nat) (y : Byte) : gpowFrom c a e y = gpowFrom Cfg.rs41 a e y := by
    induction e generalizing y with
    | zero => rfl
    | succ e ih => rw [gpowFrom, gpowFrom, strict_eq, strict_eq, ih, hmul]
  funext a e
  exact hfrom a e 1

/-- The check of primitivity holds under the default polynomial. -/
theorem alphaPrimitive_of_poly {c : Cfg} (hc : c.gfPoly = 0x11D) : alphaPrimitive c = true := by
  have hdefault : alphaPrimitive Cfg.rs41 = true := by decide +kernel
  rwa [alphaPrimitive, gpow_eq_default hc]

/-- The primitive element has order 255: its power 255 is 1, and the powers 255/3, 255/5 and 255/17 are not. -/
theorem IsByteRing.orderOf_alpha (h : IsByteRing c φ) (hc : c.gfPoly = 0x11D) : orderOf (φ alpha) = 255 := by
  have hprim := alphaPrimitive_of_poly hc
  simp only [alphaPrimitive, Bool.and_eq_true, beq_iff_eq, bne_iff_ne, ne_eq, ← h.map_eq_one_iff, h.map_gpow]
    at hprim
  obtain ⟨⟨⟨h255, h85⟩, h51⟩, h15⟩ := hprim
  refine orderOf_eq_of_pow_and_pow_div_prime (by norm_num) h255 fun p hp hdvd => ?_
  have hfactors : p ∣ 3 ∨ p ∣ 5 ∨ p ∣ 17 := by
    rw [← or_assoc, ← hp.dvd_mul, ← hp.dvd_mul]
    exact hdvd
  obtain hd | hd | hd := hfactors
  · obtain rfl := (Nat.prime_dvd_prime_iff_eq hp (by norm_num)).1 hd
    exact h85
  · obtain rfl := (Nat.prime_dvd_prime_iff_eq hp (by norm_num)).1 hd
    exact h51
  · obtain rfl := (Nat.prime_dvd_prime_iff_eq hp (by norm_num)).1 hd
    exact h15

/-- The first 255 powers of the primitive element differ. -/
theorem IsByteRing.alpha_pow_injOn (h : IsByteRing c φ) (hc : c.gfPoly = 0x11D) :
    Set.InjOn (fun i => φ alpha ^ i) (Set.Iio 255) := h.orderOf_alpha hc ▸ pow_injOn_Iio_orderOf

/-- No power of the primitive element is 0: it is a unit. -/
theorem IsByteRing.alpha_pow_ne_zero (h : IsByteRing c φ) (hc : c.gfPoly = 0x11D) (i : Nat) : φ alpha ^ i ≠ 0 := by
  intro hzero
  have hone : (φ alpha ^ i) ^ 255 = 1 := by
    rw [pow_right_comm, ← h.orderOf_alpha hc, pow_orderOf_eq_one, one_pow]
  rw [hzero, zero_pow (by norm_num)] at hone
  exact h.zero_ne_one hone

/-- Every non-zero element is one of the first 255 powers: these are as many as there are non-zero bytes. -/
theorem IsByteRing.exists_alpha_pow (h : IsByteRing c φ) (hc : c.gfPoly = 0x11D) {x : R} (hx : x ≠ 0) :
    ∃ i < 255, φ alpha ^ i = x := by
  classical
  let _ : Fintype R := Fintype.ofEquiv Byte φ
  have hcard : (Finset.univ.erase (0 : R)).card = 255 := by
    rw [Finset.card_erase_of_mem (Finset.mem_univ _), Finset.card_univ, Fintype.card_congr φ.symm,
      Fintype.card_congr BitVec.equivFin.toEquiv, Fintype.card_fin]
    norm_num
  have himage : (Finset.range 255).image (fun i => φ alpha ^ i) = Finset.univ.erase (0 : R) := by
    refine Finset.eq_of_subset_of_card_le (fun y hy => ?_) ?_
    · obtain ⟨i, -, rfl⟩ := Finset.mem_image.1 hy
      exact Finset.mem_erase.2 ⟨h.alpha_pow_ne_zero hc i, Finset.mem_univ _⟩
    · rw [hcard, Finset.card_image_of_injOn (by simpa using h.alpha_pow_injOn hc), Finset.card_range]
  have hmem : x ∈ (Finset.range 255).image (fun i => φ alpha ^ i) := by
    rw [himage]
    exact Finset.mem_erase.2 ⟨hx, Finset.mem_univ _⟩
  simpa using hmem

/-- The ring is a field: the inverse of a power is a power. -/
theorem IsByteRing.isField (h : IsByteRing c φ) (hc : c.gfPoly = 0x11D) : IsField R where
  exists_pair_ne := ⟨0, 1, h.zero_ne_one⟩
  mul_comm := mul_comm
  mul_inv_cancel := by
    intro x hx
    obtain ⟨i, hi, rfl⟩ := h.exists_alpha_pow hc hx
    refine ⟨φ alpha ^ (255 - i), ?_⟩
    rw [← pow_add, Nat.add_sub_cancel' hi.le, ← h.orderOf_alpha hc, pow_orderOf_eq_one]

end ring

/-- Under the default polynomial the bytes are a field. -/
theorem exists_isByteRing_field {c : Cfg} (hc : c.gfPoly = 0x11D) :
    ∃ (F : Type) (_ : Field F) (φ : Byte ≃ F), IsByteRing c φ := by
  obtain ⟨R, hR, φ, h⟩ := exists_isByteRing hc
  exact ⟨R, (h.isField hc).toField, φ, ⟨h.map_xor, h.map_gmul, h.map_one⟩⟩

/-- A byte with an inverse is multiplied with it by `ginv`, which takes the first byte whose product is 1. -/
theorem gmul_ginv_of_exists {c : Cfg} {x : Byte} (h : ∃ y, gmul c x y = 1) : gmul c x (ginv c x) = 1 := by
  obtain ⟨y, hy⟩ := h
  have hsome : (allBytes.find? fun z => gmul c x z == 1).isSome :=
    List.find?_isSome.2 ⟨y, mem_allBytes y, by simpa using hy⟩
  obtain ⟨z, hz⟩ := Option.isSome_iff_exists.1 hsome
  have hprod := List.find?_some hz
  rw [ginv, hz]
  simpa using hprod

/-- `ginv` is the inverse of the field. -/
theorem IsByteRing.map_ginv {c : Cfg} {F : Type} [Field F] {φ : Byte ≃ F} (h : IsByteRing c φ) {x : Byte}
    (hx : x ≠ 0) : φ (ginv c x) = (φ x)⁻¹ := by
  have hx' : φ x ≠ 0 := mt (h.map_eq_zero_iff x).1 hx
  have hinv : gmul c x (ginv c x) = 1 := by
    refine gmul_ginv_of_exists ⟨φ.symm (φ x)⁻¹, ?_⟩
    rw [← h.map_eq_one_iff, h.map_gmul, φ.apply_symm_apply, mul_inv_cancel₀ hx']
  rw [← h.map_eq_one_iff, h.map_gmul] at hinv
  exact eq_inv_of_mul_eq_one_right hinv

/-- Settles O37: the ring laws come from the linearity of the loop, the inverses from the field. -/
theorem bytesAreAField : Obligations.BytesAreAField := by
  intro c hc
  refine ⟨gmul_comm hc, gmul_assoc hc, gmul_xor c, one_gmul hc, fun x hx => ?_⟩
  obtain ⟨F, _, φ, h⟩ := exists_isByteRing_field hc
  have hx' : φ x ≠ 0 := mt (h.map_eq_zero_iff x).1 hx
  simp only [← h.map_eq_one_iff, h.map_gmul, ← φ.apply_eq_iff_eq, h.map_ginv hx]
  exact ⟨mul_inv_cancel₀ hx', fun y hy => eq_inv_of_mul_eq_one_right hy⟩

/-- Settles O38: the order of the primitive element is 255; the table of powers is evaluated. -/
theorem alphaIsPrimitive : Obligations.AlphaIsPrimitive := by
  intro c hc
  obtain ⟨F, _, φ, h⟩ := exists_isByteRing_field hc
  have hdefault : (List.range 16).map (gpow Cfg.rs41 alpha) =
      [0x01, 0x02, 0x04, 0x08, 0x10, 0x20, 0x40, 0x80, 0x1D, 0x3A, 0x74, 0xE8, 0xCD, 0x87, 0x13, 0x26] ∧
      gpow Cfg.rs41 alpha 25 = 0x03 := by decide +kernel
  refine ⟨?_, fun i => ?_, fun x hx => ?_, ?_, gpow_eq_default hc ▸ hdefault⟩
  · refine List.Nodup.map_on (fun i hi j hj hij => ?_) List.nodup_range
    rw [← φ.apply_eq_iff_eq, h.map_gpow, h.map_gpow] at hij
    exact h.alpha_pow_injOn hc (List.mem_range.1 hi) (List.mem_range.1 hj) hij
  · rw [ne_eq, ← h.map_eq_zero_iff, h.map_gpow]
    exact h.alpha_pow_ne_zero hc i
  · obtain ⟨i, hi, hpow⟩ := h.exists_alpha_pow hc (mt (h.map_eq_zero_iff x).1 hx)
    exact ⟨i, hi, φ.injective (by rw [h.map_gpow, hpow])⟩
  · rw [← h.map_eq_one_iff, h.map_gpow, ← h.orderOf_alpha hc, pow_orderOf_eq_one]

end Sys2Proof.Machine
end

section
/-! PROOFS. Byte lists as polynomials over the field of the code, and the systematic encoder (EncoderWritesCodewords):
the parity is the message times a power of `x`, up to a multiple of the generator. -/

namespace Sys2Proof.Machine

section poly

open Polynomial

variable {c : Cfg} {R : Type} [CommRing R] {φ : Byte ≃ R}

/-- The polynomial whose coefficient `j` is the byte `j` of the list (42_reed_solomon.md R142). -/
noncomputable def toPoly (φ : Byte ≃ R) : List Byte → R[X]
  | [] => 0
  | a :: l => C (φ a) + X * toPoly φ l

/-- The polynomial of a list is that of its low part and, shifted, that of the rest. -/
theorem toPoly_append (u v : List Byte) : toPoly φ (u ++ v) = toPoly φ u + X ^ u.length * toPoly φ v := by
  induction u with
  | nil => simp [toPoly]
  | cons a u ih =>
    simp only [List.cons_append, toPoly, ih, List.length_cons]
    ring

/-- A list of zeros is the polynomial 0. -/
theorem IsByteRing.toPoly_zeros (h : IsByteRing c φ) (n : Nat) : toPoly φ (List.replicate n 0) = 0 := by
  induction n with
  | zero => rfl
  | succ n ih => rw [List.replicate_succ, toPoly, h.map_zero, ih, C_0, mul_zero, add_zero]

/-- Two lists of one length combined byte by byte, as the first plus a multiple of the second. -/
theorem toPoly_zipWith {op : Byte → Byte → Byte} {k : R} (hop : ∀ x y, φ (op x y) = φ x + k * φ y) {u v : List Byte}
    (hl : u.length = v.length) : toPoly φ (List.zipWith op u v) = toPoly φ u + C k * toPoly φ v := by
  induction u generalizing v with
  | nil =>
    obtain rfl := List.length_eq_zero_iff.1 hl.symm
    simp [toPoly]
  | cons x u ih =>
    cases v with
    | nil => simp at hl
    | cons y v =>
      simp only [List.zipWith_cons_cons, toPoly, hop, ih (Nat.succ.inj hl), C_add, C_mul]
      ring

/-- A list multiplied by a byte. -/
theorem IsByteRing.toPoly_map_gmul (h : IsByteRing c φ) (a : Byte) (l : List Byte) :
    toPoly φ (l.map (gmul c a)) = C (φ a) * toPoly φ l := by
  induction l with
  | nil => simp [toPoly]
  | cons x l ih =>
    simp only [List.map_cons, toPoly, ih, h.map_gmul, C_mul]
    ring

/-- The coefficients are the bytes, and 0 beyond the list. -/
theorem IsByteRing.coeff_toPoly (h : IsByteRing c φ) (l : List Byte) (i : Nat) :
    (toPoly φ l).coeff i = φ (l.getD i 0) := by
  induction l generalizing i with
  | nil => rw [toPoly, coeff_zero, List.getD_nil, h.map_zero]
  | cons a l ih => cases i <;> simp [toPoly, coeff_C_succ, ih]

/-- The value of the polynomial of a list, as the sum over its positions. -/
theorem eval_toPoly (l : List Byte) (y : R) :
    (toPoly φ l).eval y = ∑ j ∈ Finset.range l.length, φ (l.getD j 0) * y ^ j := by
  induction l with
  | nil => simp [toPoly]
  | cons a l ih =>
    simp only [toPoly, eval_add, eval_C, eval_mul, eval_X, ih, List.length_cons, Finset.sum_range_succ',
      List.getD_cons_succ, List.getD_cons_zero, pow_zero, mul_one, Finset.mul_sum]
    rw [add_comm]
    congr 1
    exact Finset.sum_congr rfl fun j _ => by ring

/-- Horner's rule from the highest coefficient down. -/
theorem IsByteRing.map_horner (h : IsByteRing c φ) (x acc : Byte) (l : List Byte) :
    φ (horner c x acc l) = (toPoly φ l.reverse).eval (φ x) + φ acc * φ x ^ l.length := by
  induction l generalizing acc with
  | nil => simp [horner, toPoly]
  | cons a l ih =>
    simp only [horner, strict_eq, ih, h.map_xor, h.map_gmul, List.reverse_cons, toPoly_append, List.length_reverse,
      toPoly, eval_add, eval_mul, eval_pow, eval_X, eval_C, eval_zero, List.length_cons]
    ring

/-- `polyEval` is the value of the polynomial. -/
theorem IsByteRing.map_polyEval (h : IsByteRing c φ) (r : List Byte) (x : Byte) :
    φ (polyEval c r x) = (toPoly φ r).eval (φ x) := by
  rw [polyEval, h.map_horner, List.reverse_reverse, h.map_zero, zero_mul, add_zero]

/-- A word is a codeword where its polynomial vanishes at every root of the generator (42_reed_solomon.md R142). -/
theorem IsByteRing.isCodeword_iff (h : IsByteRing c φ) (r : List Byte) :
    isCodeword c r = true ↔ ∀ i < c.rsNroots, (toPoly φ r).eval (φ (rsRoot c i)) = 0 := by
  simp [isCodeword, allZero, syndromes, rsRoots, ← h.map_polyEval, h.map_eq_zero_iff]

/-! The generator. -/

/-- The product with `x + a` of a monic polynomial. -/
theorem IsByteRing.mulLinear_monic (h : IsByteRing c φ) (low : List Byte) (a : Byte) :
    ∃ low', mulLinear c (low ++ [1]) a = low' ++ [1] ∧ low'.length = low.length + 1 ∧
      toPoly φ (mulLinear c (low ++ [1]) a) = toPoly φ (low ++ [1]) * (X + C (φ a)) := by
  refine ⟨List.zipWith (· ^^^ ·) (0 :: low) ((low ++ [1]).map (gmul c a)), ?_, by simp, ?_⟩
  · have hcons : (0 : Byte) :: (low ++ [1]) = (0 :: low) ++ [1] := rfl
    rw [mulLinear, hcons, List.zipWith_append (by simp)]
    rfl
  · rw [mulLinear, toPoly_zipWith (k := 1) (fun x y => by rw [h.map_xor, one_mul]) (by simp), toPoly_append,
      h.toPoly_map_gmul]
    simp only [toPoly, h.map_zero, C_0, C_1]
    ring

/-- A product of such factors is monic, and vanishes wherever one of its factors does. -/
theorem IsByteRing.foldl_mulLinear (h : IsByteRing c φ) (roots low : List Byte) :
    ∃ low', roots.foldl (mulLinear c) (low ++ [1]) = low' ++ [1] ∧ low'.length = low.length + roots.length ∧
      toPoly φ (low' ++ [1]) = toPoly φ (low ++ [1]) * (roots.map fun a => X + C (φ a)).prod := by
  induction roots generalizing low with
  | nil => exact ⟨low, rfl, rfl, by simp⟩
  | cons a roots ih =>
    obtain ⟨low₁, heq, hlen, hpoly⟩ := h.mulLinear_monic low a
    obtain ⟨low', heq', hlen', hpoly'⟩ := ih low₁
    refine ⟨low', by rw [List.foldl_cons, heq, heq'], by rw [hlen', hlen, List.length_cons]; omega, ?_⟩
    rw [hpoly', ← heq, hpoly, List.map_cons, List.prod_cons, mul_assoc]

/-- The generator is monic of degree RS_NROOTS and vanishes at its roots. -/
theorem IsByteRing.generator_monic (h : IsByteRing c φ) :
    ∃ low, generator c = low ++ [1] ∧ low.length = c.rsNroots ∧
      ∀ i < c.rsNroots, (toPoly φ (generator c)).eval (φ (rsRoot c i)) = 0 := by
  obtain ⟨low, heq, hlen, hpoly⟩ := h.foldl_mulLinear (rsRoots c) []
  refine ⟨low, heq, by simpa [rsRoots] using hlen, fun i hi => ?_⟩
  have hmem : X + C (φ (rsRoot c i)) ∈ (rsRoots c).map fun a => X + C (φ a) :=
    List.mem_map_of_mem (List.mem_map_of_mem (List.mem_range.2 hi))
  have hfactor : (X + C (φ (rsRoot c i))).eval (φ (rsRoot c i)) = 0 := by
    rw [eval_add, eval_X, eval_C, h.add_self]
  have hdvd := (List.dvd_prod hmem).trans (Dvd.intro_left (toPoly φ [1]) hpoly.symm)
  have heval := eval_dvd (x := φ (rsRoot c i)) hdvd
  rw [hfactor, zero_dvd_iff] at heval
  rw [← heq] at heval
  exact heval

/-! The encoder. -/

/-- One message symbol: the remainder is multiplied by `x`, the symbol enters at the power of the generator's degree,
and a multiple of the generator takes that power away. -/
theorem IsByteRing.remainderTurn_eq (h : IsByteRing c φ) {low rem : List Byte} (hpos : 0 < low.length)
    (hl : rem.length = low.length) (m : Byte) :
    (remainderTurn c (low ++ [1]) rem m).length = low.length ∧
      ∃ q, toPoly φ (remainderTurn c (low ++ [1]) rem m) =
        X * toPoly φ rem + X ^ low.length * C (φ m) + q * toPoly φ (low ++ [1]) := by
  have hne : rem ≠ [] := List.ne_nil_of_length_pos (hl ▸ hpos)
  obtain ⟨rest, t, rfl⟩ : ∃ rest t, rem = rest ++ [t] := ⟨_, _, (List.dropLast_concat_getLast hne).symm⟩
  have hrest : (0 :: rest).length = low.length := by simpa using hl
  have hturn : remainderTurn c (low ++ [1]) (rest ++ [t]) m =
      List.zipWith (fun x y => x ^^^ gmul c (m ^^^ t) y) (0 :: rest) low := by
    rw [remainderTurn, List.dropLast_concat, List.getLastD_concat]
    simpa using List.zipWith_append (f := fun x y => x ^^^ gmul c (m ^^^ t) y) (l₁' := []) (l₂' := [1]) hrest
  refine ⟨by rw [hturn, List.length_zipWith, hrest, Nat.min_self], C (φ (m ^^^ t)), ?_⟩
  rw [hturn, toPoly_zipWith (k := φ (m ^^^ t)) (fun x y => by rw [h.map_xor, h.map_gmul]) hrest, toPoly_append,
    toPoly_append, ← hrest]
  simp only [toPoly, h.map_zero, h.map_one, h.map_xor, C_0, C_1, C_add, List.length_cons]
  have hm := congrArg C (h.add_self (φ m))
  have ht := congrArg C (h.add_self (φ t))
  simp only [C_add, C_0] at hm ht
  linear_combination -X ^ (rest.length + 1) * hm - X ^ (rest.length + 1) * ht

/-- The parity of a message is the message times `x^NROOTS`, up to a multiple of the generator. -/
theorem IsByteRing.rsParity_eq (h : IsByteRing c φ) (hpos : 0 < c.rsNroots) (msg : List Byte) :
    (rsParity c msg).length = c.rsNroots ∧
      ∃ q, toPoly φ (rsParity c msg) = X ^ c.rsNroots * toPoly φ msg + q * toPoly φ (generator c) := by
  obtain ⟨low, hgen, hlow, -⟩ := h.generator_monic
  induction msg with
  | nil => exact ⟨List.length_replicate, 0, by simpa [rsParity, toPoly] using h.toPoly_zeros c.rsNroots⟩
  | cons m msg ih =>
    obtain ⟨hlen, q, hq⟩ := ih
    have hturn : rsParity c (m :: msg) = remainderTurn c (low ++ [1]) (rsParity c msg) m := by
      simp [rsParity, hgen]
    obtain ⟨hlen', q', hq'⟩ := h.remainderTurn_eq (hlow ▸ hpos) (hlen.trans hlow.symm) m
    rw [hturn, hgen]
    refine ⟨hlen'.trans hlow, X * q + q', ?_⟩
    rw [hq', hq, hlow, hgen, toPoly]
    ring

/-- The encoding of a message is a codeword. -/
theorem IsByteRing.isCodeword_rsEncode (h : IsByteRing c φ) (hpos : 0 < c.rsNroots) (msg : List Byte) :
    isCodeword c (rsEncode c msg) = true := by
  obtain ⟨hlen, q, hq⟩ := h.rsParity_eq hpos msg
  obtain ⟨-, -, -, hroots⟩ := h.generator_monic
  rw [h.isCodeword_iff]
  intro i hi
  rw [rsEncode, toPoly_append, hlen, hq, eval_add, eval_add, eval_mul (p := q), hroots i hi, mul_zero, add_zero,
    h.add_self]

end poly

/-- Settles O39: the encoding is a multiple of the generator, and the parity has 24 symbols. -/
theorem encoderWritesCodewords : Obligations.EncoderWritesCodewords := by
  intro msg hmsg
  obtain ⟨R, _, φ, h⟩ := exists_isByteRing (c := Cfg.rs41) rfl
  have hparity : (rsParity Cfg.rs41 msg).length = 24 := (h.rsParity_eq (by decide) msg).1
  refine ⟨h.isCodeword_rsEncode (by decide) msg, ?_, ?_⟩
  · rw [rsEncode, List.length_append, hparity, hmsg]
  · rw [rsEncode, ← hparity, List.drop_left]

end Sys2Proof.Machine
end

section
/-! PROOFS. The linear systems of the corrector: elimination keeps vectors that solve the equations, and none of them
becomes 0, since each owns a coordinate that the others do not have. -/

namespace Sys2Proof.Machine

section system

variable {c : Cfg} {R : Type} [CommRing R] {φ : Byte ≃ R}

/-- The product of an equation and a vector, as the sum over the coordinates. -/
theorem IsByteRing.map_dot (h : IsByteRing c φ) (row v : List Byte) :
    φ (dot c row v) = ∑ j ∈ Finset.range v.length, φ (row.getD j 0) * φ (v.getD j 0) := by
  induction v generalizing row with
  | nil => rw [dot, List.zipWith_nil_right, List.foldr_nil, h.map_zero, List.length_nil, Finset.sum_range_zero]
  | cons y v ih =>
    cases row with
    | nil =>
      refine h.map_zero.trans (Finset.sum_eq_zero fun j _ => ?_).symm
      rw [List.getD_nil, h.map_zero, zero_mul]
    | cons x row =>
      simp only [dot] at ih
      simp only [dot, List.zipWith_cons_cons, List.foldr_cons, h.map_xor, h.map_gmul, ih, List.length_cons,
        Finset.sum_range_succ', List.getD_cons_succ, List.getD_cons_zero]
      exact add_comm _ _

@[simp] theorem addScaled_length (c : Cfg) (v : List Byte) (a : Byte) (u : List Byte) :
    (addScaled c v a u).length = min v.length u.length := List.length_zipWith

/-- The coordinates of `v + a·u`. -/
theorem addScaled_getD (c : Cfg) {v u : List Byte} (a : Byte) (hl : v.length = u.length) {j : Nat}
    (hj : j < v.length) : (addScaled c v a u).getD j 0 = v.getD j 0 ^^^ gmul c a (u.getD j 0) := by
  have hu : j < u.length := hl ▸ hj
  rw [List.getD_eq_getElem _ _ hj, List.getD_eq_getElem _ _ hu,
    List.getD_eq_getElem _ _ (by rw [addScaled_length, ← hl, Nat.min_self]; exact hj)]
  exact List.getElem_zipWith

/-- The product of an equation with `v + a·u`. -/
theorem IsByteRing.map_dot_addScaled (h : IsByteRing c φ) (row : List Byte) {v u : List Byte} (a : Byte)
    (hl : v.length = u.length) : φ (dot c row (addScaled c v a u)) = φ (dot c row v) + φ a * φ (dot c row u) := by
  simp only [h.map_dot, addScaled_length, ← hl, Nat.min_self, Finset.mul_sum, ← Finset.sum_add_distrib]
  refine Finset.sum_congr rfl fun j hj => ?_
  rw [addScaled_getD c a hl (Finset.mem_range.1 hj), h.map_xor, h.map_gmul]
  ring

end system

/-! One elimination. -/

/-- No vector is picked exactly where all of them satisfy the equation. -/
theorem pickPivot_none {c : Cfg} {row : List Byte} {vs : List (List Byte)} (h : pickPivot c row vs = none) :
    ∀ v ∈ vs, dot c row v = 0 := by
  induction vs with
  | nil => simp
  | cons v vs ih =>
    simp only [pickPivot] at h
    split at h
    · split at h
      · cases h
      · exact List.forall_mem_cons.2 ⟨‹_›, ih ‹_›⟩
    · cases h

/-- The vector picked does not satisfy the equation, and is taken out of the list. -/
theorem pickPivot_some {c : Cfg} {row u : List Byte} {d : Byte} {vs rest : List (List Byte)}
    (h : pickPivot c row vs = some (u, d, rest)) :
    d = dot c row u ∧ d ≠ 0 ∧ ∃ pre post, vs = pre ++ u :: post ∧ rest = pre ++ post := by
  induction vs generalizing rest with
  | nil => simp [pickPivot] at h
  | cons v vs ih =>
    simp only [pickPivot] at h
    split at h
    · split at h
      · cases h
        obtain ⟨hd, hne, pre, post, rfl, rfl⟩ := ih ‹_›
        exact ⟨hd, hne, v :: pre, post, rfl, rfl⟩
      · cases h
    · cases h
      exact ⟨rfl, ‹_›, [], vs, rfl, rfl⟩

/-- Each vector, listed with the coordinate it owns, is not 0 there, and the others are. -/
structure OwnsCoordinates (tagged : List (Nat × List Byte)) : Prop where
  own : ∀ t ∈ tagged, t.2.getD t.1 0 ≠ 0
  others : tagged.Pairwise fun s t => s.2.getD t.1 0 = 0 ∧ t.2.getD s.1 0 = 0

/-- Vectors of length `n` that satisfy the equations, each with a coordinate of its own, and at least `n` minus the
number of equations of them. -/
structure SolvesSystem (c : Cfg) (n : Nat) (rows basis : List (List Byte)) : Prop where
  length : ∀ v ∈ basis, v.length = n
  solves : ∀ v ∈ basis, ∀ row ∈ rows, dot c row v = 0
  owners : ∃ tagged, tagged.map Prod.snd = basis ∧ OwnsCoordinates tagged
  size : n ≤ basis.length + rows.length

/-- A vector is longer than each coordinate where it is not 0. -/
theorem lt_length_of_getD_ne_zero {v : List Byte} {j : Nat} (h : v.getD j 0 ≠ 0) : j < v.length := by
  by_contra hj
  exact h (List.getD_eq_default _ _ (not_lt.1 hj))

/-- The pivot is 0 at the coordinates of the others, so a multiple of it may be added to each of them. -/
theorem OwnsCoordinates.eliminate {c : Cfg} {n : Nat} {pre post : List (Nat × List Byte)} {p : Nat × List Byte}
    (h : OwnsCoordinates (pre ++ p :: post)) (hlen : ∀ t ∈ pre ++ p :: post, t.2.length = n) (f : List Byte → Byte) :
    OwnsCoordinates ((pre ++ post).map fun t => (t.1, addScaled c t.2 (f t.2) p.2)) := by
  obtain ⟨hpre, hp, hcross⟩ := List.pairwise_append.1 h.others
  obtain ⟨hppost, hpost⟩ := List.pairwise_cons.1 hp
  have hmem {t} (ht : t ∈ pre ++ post) : t ∈ pre ++ p :: post := by
    simp only [List.mem_append, List.mem_cons] at ht ⊢
    tauto
  have hplen : p.2.length = n := hlen p (by simp)
  have hpivot {t} (ht : t ∈ pre ++ post) : p.2.getD t.1 0 = 0 := by
    obtain ht | ht := List.mem_append.1 ht
    · exact (hcross t ht p (by simp)).2
    · exact (hppost t ht).1
  have hkeep {s t} (hs : s ∈ pre ++ post) (ht : t ∈ pre ++ post) :
      (addScaled c s.2 (f s.2) p.2).getD t.1 0 = s.2.getD t.1 0 := by
    have hlt : t.1 < s.2.length := by
      rw [hlen s (hmem hs), ← hlen t (hmem ht)]
      exact lt_length_of_getD_ne_zero (h.own t (hmem ht))
    rw [addScaled_getD c _ ((hlen s (hmem hs)).trans hplen.symm) hlt, hpivot ht,
      map_zero_of_xor (gmul_xor c (f s.2))]
    exact BitVec.xor_zero
  have hothers : (pre ++ post).Pairwise fun s t => s.2.getD t.1 0 = 0 ∧ t.2.getD s.1 0 = 0 :=
    List.pairwise_append.2 ⟨hpre, hpost, fun s hs t ht => hcross s hs t (List.mem_cons_of_mem _ ht)⟩
  constructor
  · intro t ht
    obtain ⟨s, hs, rfl⟩ := List.mem_map.1 ht
    rw [hkeep hs hs]
    exact h.own s (hmem hs)
  · refine List.pairwise_map.2 (hothers.imp_of_mem fun {s t} hs ht hst => ?_)
    rw [hkeep hs ht, hkeep ht hs]
    exact hst

/-- An equation that all vectors satisfy already. -/
theorem SolvesSystem.of_satisfied {c : Cfg} {n : Nat} {rows basis : List (List Byte)} (h : SolvesSystem c n rows basis)
    {row : List Byte} (hrow : ∀ v ∈ basis, dot c row v = 0) : SolvesSystem c n (rows ++ [row]) basis where
  length := h.length
  solves v hv := List.forall_mem_append.2 ⟨h.solves v hv, List.forall_mem_singleton.2 (hrow v hv)⟩
  owners := h.owners
  size := h.size.trans (by simp)

/-- An equation that the pivot `u` does not satisfy: the multiple of `u` added to a vector makes the vector satisfy
it, and leaves the equations before it satisfied. -/
theorem SolvesSystem.of_pivot {c : Cfg} (hc : c.gfPoly = 0x11D) {n : Nat} {rows pre post : List (List Byte)}
    {u row : List Byte} (h : SolvesSystem c n rows (pre ++ u :: post)) (hpivot : dot c row u ≠ 0) :
    SolvesSystem c n (rows ++ [row])
      ((pre ++ post).map fun v => addScaled c v (gmul c (dot c row v) (ginv c (dot c row u))) u) := by
  obtain ⟨F, _, φ, hφ⟩ := exists_isByteRing_field hc
  have hmem {v} (hv : v ∈ pre ++ post) : v ∈ pre ++ u :: post := by
    simp only [List.mem_append, List.mem_cons] at hv ⊢
    tauto
  have hu : u ∈ pre ++ u :: post := by simp
  have hlen {v} (hv : v ∈ pre ++ post) : v.length = u.length := (h.length v (hmem hv)).trans (h.length u hu).symm
  constructor
  case length =>
    refine List.forall_mem_map.2 fun v hv => ?_
    rw [addScaled_length, hlen hv, Nat.min_self, h.length u hu]
  case solves =>
    refine List.forall_mem_map.2 fun v hv => List.forall_mem_append.2 ⟨fun r hr => ?_, List.forall_mem_singleton.2 ?_⟩
    · rw [← hφ.map_eq_zero_iff, hφ.map_dot_addScaled r _ (hlen hv), h.solves v (hmem hv) r hr, h.solves u hu r hr,
        hφ.map_zero, mul_zero, add_zero]
    · have hpivot' : φ (dot c row u) ≠ 0 := mt (hφ.map_eq_zero_iff _).1 hpivot
      rw [← hφ.map_eq_zero_iff, hφ.map_dot_addScaled row _ (hlen hv), hφ.map_gmul, hφ.map_ginv hpivot, mul_assoc,
        inv_mul_cancel₀ hpivot', mul_one, hφ.add_self]
  case owners =>
    obtain ⟨tagged, htagged, hown⟩ := h.owners
    obtain ⟨tpre, tpost', rfl, rfl, htpost⟩ := List.map_eq_append_iff.1 htagged
    obtain ⟨p, tpost, rfl, rfl, rfl⟩ := List.map_eq_cons_iff.1 htpost
    refine ⟨_, ?_, hown.eliminate (c := c) (n := n) (fun t ht => h.length _ ?_)
      fun v => gmul c (dot c row v) (ginv c (dot c row p.2))⟩
    · simp [Function.comp_def]
    · rw [← htagged]
      exact List.mem_map_of_mem ht
  case size =>
    have := h.size
    simp only [List.length_append, List.length_cons, List.length_map, List.length_nil] at this ⊢
    omega

/-- One more equation. -/
theorem SolvesSystem.eliminate {c : Cfg} (hc : c.gfPoly = 0x11D) {n : Nat} {rows basis : List (List Byte)}
    (h : SolvesSystem c n rows basis) (row : List Byte) :
    SolvesSystem c n (rows ++ [row]) (Machine.eliminate c basis row) := by
  unfold Machine.eliminate
  split
  next hnone => exact h.of_satisfied (pickPivot_none hnone)
  next hsome =>
    obtain ⟨rfl, hne, pre, post, rfl, rfl⟩ := pickPivot_some hsome
    exact h.of_pivot hc hne

/-! The whole system. -/

/-- The coordinates of a unit vector. -/
theorem unitVectors_getD {n k : Nat} (j : Nat) (hk : k < n) :
    ((List.range n).map fun k => if k = j then (1 : Byte) else 0).getD k 0 = if k = j then 1 else 0 := by
  simp [hk]

/-- The unit vectors solve the system of no equation, and each owns its place. -/
theorem solvesSystem_unitVectors (c : Cfg) (n : Nat) : SolvesSystem c n [] (unitVectors n) where
  length := by simp [unitVectors]
  solves := by simp
  owners := by
    refine ⟨(List.range n).map fun j => (j, (List.range n).map fun k => if k = j then 1 else 0), ?_, ?_, ?_⟩
    · simp [unitVectors, Function.comp_def]
    · simp only [List.mem_map, List.mem_range]
      rintro t ⟨j, hj, rfl⟩
      rw [unitVectors_getD j hj]
      simp
    · refine List.pairwise_map.2 (List.nodup_range.imp_of_mem fun {i j} hi hj hij => ?_)
      rw [unitVectors_getD i (List.mem_range.1 hj), unitVectors_getD j (List.mem_range.1 hi), if_neg hij,
        if_neg (Ne.symm hij)]
      exact ⟨rfl, rfl⟩
  size := by simp [unitVectors]

/-- Elimination of the equations one after the other. -/
theorem solvesSystem_foldl {c : Cfg} (hc : c.gfPoly = 0x11D) {n : Nat} (rows : List (List Byte))
    {before basis : List (List Byte)} (h : SolvesSystem c n before basis) :
    SolvesSystem c n (before ++ rows) (rows.foldl (eliminate c) basis) := by
  induction rows generalizing before basis with
  | nil => rwa [List.append_nil]
  | cons row rows ih =>
    have h' := ih (h.eliminate hc row)
    rwa [List.append_assoc] at h'

/-- A system with fewer equations than unknowns: its first vector solves it and is not 0. -/
theorem exists_kernelBasis_head {c : Cfg} (hc : c.gfPoly = 0x11D) {n : Nat} {rows : List (List Byte)}
    (hn : rows.length < n) :
    ∃ v rest, kernelBasis c n rows = v :: rest ∧ v.length = n ∧ (∃ j, v.getD j 0 ≠ 0) ∧
      ∀ row ∈ rows, dot c row v = 0 := by
  have h : SolvesSystem c n rows (kernelBasis c n rows) := solvesSystem_foldl hc rows (solvesSystem_unitVectors c n)
  have hpos : 0 < (kernelBasis c n rows).length := by
    have := h.size
    omega
  obtain ⟨v, rest, hv⟩ := List.exists_cons_of_ne_nil (List.ne_nil_of_length_pos hpos)
  have hmem : v ∈ kernelBasis c n rows := hv ▸ List.mem_cons_self
  obtain ⟨tagged, htagged, hown⟩ := h.owners
  obtain ⟨t, ht, rfl⟩ := List.mem_map.1 (htagged ▸ hmem)
  exact ⟨t.2, rest, hv, h.length _ hmem, ⟨t.1, hown.own t ht⟩, h.solves _ hmem⟩

end Sys2Proof.Machine
end

section
/-! PROOFS. The symbol corrector of the default code (CorrectorFindsTheNearestCodeword). The syndromes are the power
sums of the errors at the nodes `α^j`, and few power sums of few nodes vanish only where the errors do: so the locator
vanishes at every error, and the second system has the errors as its only solution. -/

namespace Sys2Proof.Machine

/-! The errors of a received word. -/

/-- What is to be added to symbol `j` of the received word `r` to get `cw`. -/
def errorAt (r cw : List Byte) (j : Nat) : Byte := r.getD j 0 ^^^ cw.getD j 0

/-- The positions where the two words differ. -/
def errorPositions (r cw : List Byte) : Finset Nat := (Finset.range r.length).filter fun j => r.getD j 0 ≠ cw.getD j 0

/-- There is nothing to add exactly where the words agree. -/
theorem errorAt_eq_zero_iff (r cw : List Byte) (j : Nat) : errorAt r cw j = 0 ↔ r.getD j 0 = cw.getD j 0 :=
  BitVec.xor_eq_zero_iff

/-- The error positions of two words of one length are where the error is not 0. -/
theorem mem_errorPositions {r cw : List Byte} (hl : cw.length = r.length) (j : Nat) :
    j ∈ errorPositions r cw ↔ errorAt r cw j ≠ 0 := by
  simp only [errorPositions, Finset.mem_filter, Finset.mem_range, ne_eq, errorAt_eq_zero_iff, and_iff_right_iff_imp]
  intro hne
  by_contra hj
  rw [List.getD_eq_default _ _ (not_lt.1 hj), List.getD_eq_default _ _ (hl ▸ not_lt.1 hj)] at hne
  exact hne rfl

/-- The distance of two words, counted position by position. -/
theorem hamming_eq_sum (u v : List Byte) (hl : v.length = u.length) :
    hamming u v = ∑ j ∈ Finset.range u.length, if u.getD j 0 ≠ v.getD j 0 then 1 else 0 := by
  induction u generalizing v with
  | nil => rfl
  | cons x u ih =>
    cases v with
    | nil => simp at hl
    | cons y v =>
      rw [hamming_cons, ih v (Nat.succ.inj hl), List.length_cons, Finset.sum_range_succ', add_comm]
      simp only [List.getD_cons_succ, List.getD_cons_zero, ne_eq, ite_not]

/-- The distance of two words is the number of error positions. -/
theorem card_errorPositions {r cw : List Byte} (hl : cw.length = r.length) :
    (errorPositions r cw).card = hamming cw r := by
  rw [errorPositions, Finset.card_filter, hamming_eq_sum cw r hl.symm, hl]
  simp only [ne_comm]

/-! Power sums. -/

/-- Power sums of as many exponents as there are nodes vanish only where every weight does: the Vandermonde matrix of
different nodes is regular. -/
theorem eq_zero_of_power_sums {F : Type} [Field F] {S : Finset Nat} {y w : Nat → F} (hy : Set.InjOn y S)
    (hsum : ∀ i < S.card, ∑ j ∈ S, w j * y j ^ i = 0) : ∀ j ∈ S, w j = 0 := by
  have hinj : Function.Injective fun i : Fin S.card => y (S.equivFin.symm i) := fun a b hab =>
    S.equivFin.symm.injective (Subtype.ext (hy (Subtype.prop _) (Subtype.prop _) hab))
  have hvec : (fun i : Fin S.card => w (S.equivFin.symm i)) = 0 := by
    refine Matrix.eq_zero_of_forall_pow_sum_mul_pow_eq_zero hinj fun i => ?_
    rw [← hsum i i.isLt, ← Finset.sum_coe_sort S]
    exact Equiv.sum_comp S.equivFin.symm fun j : S => w j * y j ^ (i : Nat)
  intro j hj
  simpa using congrFun hvec (S.equivFin ⟨j, hj⟩)

/-- The codes that the two linear systems are proved for: the default field and roots, and two syndromes for each
error. -/
structure DefaultRoots (c : Cfg) : Prop where
  poly : c.gfPoly = 0x11D
  fcr : c.rsFcr = 0
  prim : c.rsPrim = 1
  twice : 2 * c.rsT ≤ c.rsNroots

/-- The default configuration is one of them. -/
theorem defaultRoots_rs41 : DefaultRoots Cfg.rs41 := ⟨rfl, rfl, rfl, le_rfl⟩

section field

variable {c : Cfg} {F : Type} [Field F] {φ : Byte ≃ F}

/-- The node of position `j`. -/
def node (φ : Byte ≃ F) (j : Nat) : F := φ alpha ^ j

/-- The positions of a word of at most 255 symbols have different nodes. -/
theorem IsByteRing.node_injOn (h : IsByteRing c φ) (hc : DefaultRoots c) {S : Finset Nat}
    (hS : S ⊆ Finset.range 255) : Set.InjOn (node φ) S :=
  (h.alpha_pow_injOn hc.poly).mono fun _ hj => Finset.mem_range.1 (hS hj)

/-- The roots of the generator are the first powers of the primitive element. -/
theorem IsByteRing.map_rsRoot (h : IsByteRing c φ) (hc : DefaultRoots c) (i : Nat) :
    φ (rsRoot c i) = φ alpha ^ i := by
  rw [rsRoot, h.map_gpow, hc.fcr, hc.prim, Nat.mul_one, Nat.zero_add]

/-- A syndrome is the value of the received word at a root. -/
theorem IsByteRing.map_syndrome_eq_eval (h : IsByteRing c φ) {r : List Byte} {i : Nat} (hi : i < c.rsNroots) :
    φ ((syndromes c r).getD i 0) = (toPoly φ r).eval (φ (rsRoot c i)) := by
  rw [← h.map_polyEval]
  simp [syndromes, rsRoots, hi]

/-- The syndromes of a received word are the power sums of its errors (42_reed_solomon.md R146). -/
theorem IsByteRing.map_syndrome (h : IsByteRing c φ) (hc : DefaultRoots c) {r cw : List Byte}
    (hl : cw.length = r.length) (hcw : isCodeword c cw = true) {S : Finset Nat} (hS : errorPositions r cw ⊆ S) {i : Nat}
    (hi : i < c.rsNroots) :
    φ ((syndromes c r).getD i 0) = ∑ j ∈ S, φ (errorAt r cw j) * node φ j ^ i := by
  have hzero := (h.isCodeword_iff cw).1 hcw i hi
  have hoff {T : Finset Nat} (hT : errorPositions r cw ⊆ T) :
      ∑ j ∈ errorPositions r cw, φ (errorAt r cw j) * node φ j ^ i = ∑ j ∈ T, φ (errorAt r cw j) * node φ j ^ i := by
    refine Finset.sum_subset hT fun j _ hj => ?_
    rw [mem_errorPositions hl, not_not] at hj
    rw [hj, h.map_zero, zero_mul]
  rw [h.map_syndrome_eq_eval hi, ← add_zero (Polynomial.eval _ _), ← hzero, eval_toPoly, eval_toPoly, hl,
    ← Finset.sum_add_distrib, ← hoff hS, hoff (Finset.filter_subset _ _)]
  refine Finset.sum_congr rfl fun j _ => ?_
  rw [errorAt, h.map_xor, h.map_rsRoot hc, node, ← pow_mul, ← pow_mul, mul_comm i j]
  ring

/-- Two codewords with at most as many differences as the code has roots are one: the minimum distance. -/
theorem IsByteRing.errorPositions_eq_empty (h : IsByteRing c φ) (hc : DefaultRoots c) {r cw : List Byte}
    (hl : cw.length = r.length) (hlen : r.length ≤ 255) (hr : isCodeword c r = true) (hcw : isCodeword c cw = true)
    (hd : (errorPositions r cw).card ≤ c.rsNroots) : errorPositions r cw = ∅ := by
  have hsub : errorPositions r cw ⊆ Finset.range 255 :=
    (Finset.filter_subset _ _).trans (Finset.range_subset_range.2 hlen)
  have hzero := eq_zero_of_power_sums (h.node_injOn hc hsub) (w := fun j => φ (errorAt r cw j)) fun i hi => by
    have hi' : i < c.rsNroots := lt_of_lt_of_le hi hd
    rw [← h.map_syndrome hc hl hcw subset_rfl hi', h.map_syndrome_eq_eval hi', (h.isCodeword_iff r).1 hr i hi']
  refine Finset.eq_empty_of_forall_notMem fun j hj => ?_
  exact (mem_errorPositions hl j).1 hj ((h.map_eq_zero_iff _).1 (hzero j hj))

/-! The locator. -/

/-- A solution of the locator's equations vanishes at the node of every error. -/
theorem IsByteRing.locator_vanishes (h : IsByteRing c φ) (hc : DefaultRoots c) {r cw locator : List Byte}
    (hl : cw.length = r.length) (hlen : r.length ≤ 255) (hcw : isCodeword c cw = true) (hd : hamming cw r ≤ c.rsT)
    (hloc : locator.length = c.rsT + 1) (hsolves : ∀ row ∈ locatorRows c (syndromes c r), dot c row locator = 0) :
    ∀ j ∈ errorPositions r cw, (toPoly φ locator).eval (node φ j) = 0 := by
  have hsub : errorPositions r cw ⊆ Finset.range 255 :=
    (Finset.filter_subset _ _).trans (Finset.range_subset_range.2 hlen)
  have hzero := eq_zero_of_power_sums (h.node_injOn hc hsub)
    (w := fun j => φ (errorAt r cw j) * (toPoly φ locator).eval (node φ j)) fun i hi => by
      have hi' : i < c.rsT := lt_of_lt_of_le hi ((card_errorPositions hl).trans_le hd)
      have hrow := hsolves (((syndromes c r).drop i).take (c.rsT + 1))
        (List.mem_map.2 ⟨i, List.mem_range.2 hi', rfl⟩)
      rw [← h.map_eq_zero_iff, h.map_dot, hloc] at hrow
      rw [← hrow]
      simp only [eval_toPoly, hloc, Finset.mul_sum, Finset.sum_mul]
      rw [Finset.sum_comm]
      refine Finset.sum_congr rfl fun l hlt => ?_
      have hlt' := Finset.mem_range.1 hlt
      have htwice := hc.twice
      have hget : (((syndromes c r).drop i).take (c.rsT + 1)).getD l 0 = (syndromes c r).getD (i + l) 0 := by
        simp [List.getD_eq_getElem?_getD, hlt']
      rw [hget, h.map_syndrome hc hl hcw subset_rfl (by omega), Finset.sum_mul]
      refine Finset.sum_congr rfl fun j _ => ?_
      rw [pow_add]
      ring
  intro j hj
  exact (mul_eq_zero.1 (hzero j hj)).resolve_left fun he =>
    (mem_errorPositions hl j).1 hj ((h.map_eq_zero_iff _).1 he)

/-- The powers of a byte, one after the other. -/
theorem powersFrom_eq_map (c : Cfg) (x : Byte) (k : Nat) (y : Byte) :
    powersFrom c x k y = (List.range k).map fun i => (gmul c x)^[i] y := by
  induction k generalizing y with
  | zero => rfl
  | succ k ih => rw [powersFrom, strict_eq, ih, List.range_succ_eq_map, List.map_cons, List.map_map]; rfl

/-- A power in the list of the powers of `x` from `y` on. -/
theorem IsByteRing.map_iterate_gmul (h : IsByteRing c φ) (x y : Byte) (i : Nat) :
    φ ((gmul c x)^[i] y) = φ x ^ i * φ y := by
  induction i generalizing y with
  | zero => simp
  | succ i ih => rw [Function.iterate_succ_apply, ih, h.map_gmul, pow_succ]; ring

/-- The test of one position by the locator. -/
def isLocatorRoot (c : Cfg) (locator : List Byte) (j : Nat) : Bool :=
  decide (polyEval c locator ((gmul c (gpow c alpha c.rsPrim))^[j] 1) = 0)

/-- The positions found are those below the bound that pass the test. -/
theorem locatorRoots_eq_filter (c : Cfg) (m : Nat) (locator : List Byte) :
    locatorRoots c m locator = (List.range m).filter (isLocatorRoot c locator) := by
  rw [locatorRoots, powersFrom_eq_map, ← List.map_prod_left_eq_zip, List.filterMap_map, ← List.filterMap_eq_filter]
  refine List.filterMap_congr fun j _ => ?_
  simp [isLocatorRoot, Option.guard]

/-- A position passes the test where its node is a root of the locator. -/
theorem IsByteRing.isLocatorRoot_iff (h : IsByteRing c φ) (hc : DefaultRoots c) (locator : List Byte) (j : Nat) :
    isLocatorRoot c locator j = true ↔ (toPoly φ locator).eval (node φ j) = 0 := by
  rw [isLocatorRoot, decide_eq_true_eq, ← h.map_eq_zero_iff, h.map_polyEval, h.map_iterate_gmul, h.map_gpow, hc.prim,
    pow_one, h.map_one, mul_one, node]

/-- The positions found are no more than the degree of the locator. -/
theorem IsByteRing.locatorRoots_length_le (h : IsByteRing c φ) (hc : DefaultRoots c) {m : Nat} (hm : m ≤ 255)
    {locator : List Byte} (hloc : locator.length = c.rsT + 1) (hne : ∃ j, locator.getD j 0 ≠ 0) :
    (locatorRoots c m locator).length ≤ c.rsT := by
  classical
  obtain ⟨j, hj⟩ := hne
  have hdeg : (toPoly φ locator).natDegree ≤ c.rsT :=
    Polynomial.natDegree_le_iff_coeff_eq_zero.2 fun i hi => by
      rw [h.coeff_toPoly, List.getD_eq_default _ _ (by omega), h.map_zero]
  have hnodup : (locatorRoots c m locator).Nodup := locatorRoots_eq_filter c m locator ▸ List.nodup_range.filter _
  have hmem {j : Nat} (hj : j ∈ (locatorRoots c m locator).toFinset) :
      j < m ∧ (toPoly φ locator).eval (node φ j) = 0 := by
    rwa [List.mem_toFinset, locatorRoots_eq_filter, List.mem_filter, List.mem_range, h.isLocatorRoot_iff hc] at hj
  by_contra hlong
  have hcard : ((locatorRoots c m locator).toFinset.image (node φ)).card = (locatorRoots c m locator).length := by
    rw [Finset.card_image_of_injOn, List.toFinset_card_of_nodup hnodup]
    exact h.node_injOn hc fun j hj => Finset.mem_range.2 ((hmem hj).1.trans_le hm)
  have hzero := Polynomial.eq_zero_of_natDegree_lt_card_of_eval_eq_zero' (toPoly φ locator)
    ((locatorRoots c m locator).toFinset.image (node φ)) (fun y hy => by
      obtain ⟨j, hj, rfl⟩ := Finset.mem_image.1 hy
      exact (hmem hj).2) (by omega)
  refine hj ((h.map_eq_zero_iff _).1 ?_)
  rw [← h.coeff_toPoly, hzero, Polynomial.coeff_zero]

/-! The error values. -/

/-- A list of the length of a list without repetition gives each element of that one a value. -/
theorem exists_eq_map_of_nodup {ps : List Nat} (hn : ps.Nodup) {w : List Byte} (hl : w.length = ps.length) :
    ∃ g : Nat → Byte, w = ps.map g := by
  refine ⟨fun j => w.getD (ps.idxOf j) 0, List.ext_getElem (by simpa using hl) fun i hw hp => ?_⟩
  have hi : i < ps.length := hl ▸ hw
  rw [List.getElem_map, hn.idxOf_getElem i hi, List.getD_eq_getElem _ _ hw]

/-- The product of an equation for the error values with a vector, as the sum over the positions and the product of
the last columns. -/
theorem IsByteRing.map_dot_positions (h : IsByteRing c φ) {ps : List Nat} (hn : ps.Nodup) (f g : Nat → Byte)
    (s z : Byte) : φ (dot c (ps.map f ++ [s]) (ps.map g ++ [z])) =
      ∑ j ∈ ps.toFinset, φ (f j) * φ (g j) + φ s * φ z := by
  rw [List.sum_toFinset _ hn]
  clear hn
  induction ps with
  | nil =>
    simp only [dot, List.map_nil, List.nil_append, List.zipWith_cons_cons, List.zipWith_nil_right, List.foldr_cons,
      List.foldr_nil, h.map_xor, h.map_gmul, h.map_zero, List.sum_nil, add_zero, zero_add]
  | cons p ps ih =>
    simp only [dot] at ih
    simp only [dot, List.map_cons, List.cons_append, List.zipWith_cons_cons, List.foldr_cons, h.map_xor, h.map_gmul,
      ih, List.sum_cons, add_assoc]

/-- The equations for the error values leave one solution up to a factor: without the last column the system is a
regular Vandermonde system, and the errors solve it with that column (42_reed_solomon.md R146). -/
theorem IsByteRing.valueRows_solution (h : IsByteRing c φ) (hc : DefaultRoots c) {r cw : List Byte}
    (hl : cw.length = r.length) (hcw : isCodeword c cw = true) {ps : List Nat} (hn : ps.Nodup)
    (hps : ps.toFinset ⊆ Finset.range 255) (hsub : errorPositions r cw ⊆ ps.toFinset) (hle : ps.length ≤ c.rsNroots)
    {g : Nat → Byte} {z : Byte} (hsolves : ∀ row ∈ valueRows c (syndromes c r) ps, dot c row (ps.map g ++ [z]) = 0) :
    ∀ j ∈ ps, φ (g j) = φ z * φ (errorAt r cw j) := by
  have hsum : ∀ i < ps.toFinset.card,
      ∑ j ∈ ps.toFinset, (φ (g j) + φ z * φ (errorAt r cw j)) * node φ j ^ i = 0 := by
    intro i hi
    rw [List.toFinset_card_of_nodup hn] at hi
    have hrow := hsolves _ (List.mem_map.2 ⟨i, List.mem_range.2 hi, rfl⟩)
    rw [← h.map_eq_zero_iff, h.map_dot_positions hn, h.map_syndrome hc hl hcw hsub (hi.trans_le hle)] at hrow
    rw [← hrow, Finset.sum_mul, ← Finset.sum_add_distrib]
    refine Finset.sum_congr rfl fun j _ => ?_
    rw [h.map_gpow, h.map_rsRoot hc, node, ← pow_mul, ← pow_mul, mul_comm i j]
    ring
  intro j hj
  have hvalue := eq_zero_of_power_sums (h.node_injOn hc hps) hsum j (List.mem_toFinset.2 hj)
  rw [eq_neg_of_add_eq_zero_left hvalue, h.neg_eq]

/-- The error values are the errors: the last coordinate of the solution is not 0, since the others are its multiples,
and scaled by it they are the errors. -/
theorem IsByteRing.errorValues_eq (h : IsByteRing c φ) (hc : DefaultRoots c) {r cw : List Byte}
    (hl : cw.length = r.length) (hcw : isCodeword c cw = true) {ps : List Nat} (hn : ps.Nodup)
    (hps : ps.toFinset ⊆ Finset.range 255) (hsub : errorPositions r cw ⊆ ps.toFinset) (hle : ps.length ≤ c.rsNroots) :
    errorValues c (syndromes c r) ps = some (ps.map (errorAt r cw)) := by
  obtain ⟨v, rest, hbasis, hlen, ⟨j, hj⟩, hsolves⟩ := exists_kernelBasis_head hc.poly
    (rows := valueRows c (syndromes c r) ps) (n := ps.length + 1) (by simp [valueRows])
  obtain ⟨w, z, rfl⟩ : ∃ w z, v = w ++ [z] :=
    ⟨_, _, (List.dropLast_concat_getLast (List.ne_nil_of_length_pos (by omega))).symm⟩
  obtain ⟨g, rfl⟩ := exists_eq_map_of_nodup hn (w := w) (by simpa using hlen)
  have hvalue := h.valueRows_solution hc hl hcw hn hps hsub hle hsolves
  have hz : z ≠ 0 := by
    rintro rfl
    have hmem : (ps.map g ++ [0]).getD j 0 ∈ ps.map g ++ [0] := by
      rw [List.getD_eq_getElem _ _ (lt_length_of_getD_ne_zero hj)]
      exact List.getElem_mem _
    obtain hlow | hlast := List.mem_append.1 hmem
    · obtain ⟨p, hp, hpj⟩ := List.mem_map.1 hlow
      have hg := hvalue p hp
      rw [h.map_zero, zero_mul, h.map_eq_zero_iff] at hg
      exact hj (hpj ▸ hg)
    · exact hj (List.mem_singleton.1 hlast)
  have hscaled : ∀ j ∈ ps, gmul c (g j) (ginv c z) = errorAt r cw j := by
    intro j hj
    have hz' : φ z ≠ 0 := mt (h.map_eq_zero_iff z).1 hz
    rw [← φ.apply_eq_iff_eq, h.map_gmul, h.map_ginv hz, hvalue j hj]
    field_simp
  rw [errorValues, hbasis]
  simp only [List.getLastD_concat, Option.some.injEq]
  rw [← List.length_map (f := g), List.take_left, List.map_map]
  exact List.map_congr_left hscaled

end field

/-! The word that the two systems point at. -/

/-- Adding errors at positions that differ. -/
theorem addErrors_getElem? (e : Nat → Byte) {ps : List Nat} (hn : ps.Nodup) (r : List Byte) (j : Nat) :
    (addErrors r (ps.map fun p => (p, e p)))[j]? = if j ∈ ps then r[j]?.map (· ^^^ e j) else r[j]? := by
  induction ps generalizing r with
  | nil => simp [addErrors]
  | cons p ps ih =>
    obtain ⟨hp, hn⟩ := List.nodup_cons.1 hn
    rw [List.map_cons, addErrors, ih hn]
    by_cases hj : j = p
    · subst hj
      rw [if_neg hp, if_pos List.mem_cons_self, List.getElem?_set_self', List.getD_eq_getElem?_getD]
      cases r[j]? <;> rfl
    · rw [List.getElem?_set_ne (Ne.symm hj)]
      simp only [List.mem_cons, hj, false_or]

/-- Adding the errors to the received word gives the codeword. -/
theorem addErrors_errorAt {r cw : List Byte} (hl : cw.length = r.length) {ps : List Nat} (hn : ps.Nodup)
    (hsub : errorPositions r cw ⊆ ps.toFinset) : addErrors r (ps.map fun p => (p, errorAt r cw p)) = cw := by
  refine List.ext_getElem? fun j => ?_
  rw [addErrors_getElem? _ hn]
  by_cases hj : j < r.length
  · have hj' : j < cw.length := hl ▸ hj
    rw [List.getElem?_eq_getElem hj, List.getElem?_eq_getElem hj', Option.map_some, errorAt,
      List.getD_eq_getElem _ _ hj, List.getD_eq_getElem _ _ hj']
    split
    · rw [← BitVec.xor_assoc, BitVec.xor_self, BitVec.zero_xor]
    · have hsame : ¬ errorAt r cw j ≠ 0 := fun hne =>
        absurd (List.mem_toFinset.1 (hsub ((mem_errorPositions hl j).2 hne))) ‹_›
      rw [not_not, errorAt_eq_zero_iff, List.getD_eq_getElem _ _ hj, List.getD_eq_getElem _ _ hj'] at hsame
      rw [hsame]
  · rw [List.getElem?_eq_none (not_lt.1 hj), List.getElem?_eq_none (hl ▸ not_lt.1 hj), Option.map_none, ite_self]

/-- The two systems point at every codeword within RS_T whose errors lie below the bound. -/
theorem rsCandidate_eq {c : Cfg} (hc : DefaultRoots c) {r cw : List Byte} (hl : cw.length = r.length)
    (hlen : r.length ≤ 255) (hcw : isCodeword c cw = true) (hd : hamming cw r ≤ c.rsT) {m : Nat} (hm : m ≤ 255)
    (hbound : errorPositions r cw ⊆ Finset.range m) : rsCandidate c m (syndromes c r) r = some cw := by
  obtain ⟨F, _, φ, h⟩ := exists_isByteRing_field hc.poly
  obtain ⟨locator, rest, hbasis, hloc, hne, hsolves⟩ := exists_kernelBasis_head hc.poly
    (rows := locatorRows c (syndromes c r)) (n := c.rsT + 1) (by simp [locatorRows])
  have hvanish := h.locator_vanishes hc hl hlen hcw hd hloc hsolves
  have hle := h.locatorRoots_length_le hc hm hloc hne
  have hn : (locatorRoots c m locator).Nodup := locatorRoots_eq_filter c m locator ▸ List.nodup_range.filter _
  have hsub : errorPositions r cw ⊆ (locatorRoots c m locator).toFinset := fun j hj => by
    rw [List.mem_toFinset, locatorRoots_eq_filter, List.mem_filter, List.mem_range, h.isLocatorRoot_iff hc]
    exact ⟨Finset.mem_range.1 (hbound hj), hvanish j hj⟩
  have hrange : (locatorRoots c m locator).toFinset ⊆ Finset.range 255 := fun j hj => by
    rw [List.mem_toFinset, locatorRoots_eq_filter, List.mem_filter, List.mem_range] at hj
    exact Finset.mem_range.2 (hj.1.trans_le hm)
  have htwice := hc.twice
  simp only [rsCandidate, hbasis, h.errorValues_eq hc hl hcw hn hrange hsub (by omega)]
  rw [← List.map_prod_left_eq_zip, addErrors_errorAt hl hn hsub]

end Sys2Proof.Machine
end

section
/-! PROOFS. What CORRECT answers (RsCorrectResult, CorrectorFindsTheNearestCodeword): soundness under every
configuration, and completeness where the search or the two linear systems serve. -/

namespace Sys2Proof.Machine

/-! What CORRECT accepts (42_reed_solomon.md R146). -/

/-- Every symbol from a position on is 0 where the bytes from there on are. -/
theorem allZero_drop_iff (r : List Byte) (n : Nat) :
    allZero (r.drop n) = true ↔ ∀ i, n ≤ i → r.getD i 0 = 0 := by
  simp only [allZero, List.all_eq_true, beq_iff_eq]
  constructor
  · intro h i hi
    by_cases hlt : i < r.length
    · rw [List.getD_eq_getElem _ _ hlt]
      exact h _ (List.mem_drop_iff_getElem.2 ⟨i - n, by omega, by simp only [Nat.add_sub_cancel' hi]⟩)
    · exact List.getD_eq_default _ _ (not_lt.1 hlt)
  · intro h x hx
    obtain ⟨i, hi, rfl⟩ := List.mem_drop_iff_getElem.1 hx
    rw [← List.getD_eq_getElem _ 0]
    exact h _ (Nat.le_add_right _ _)

/-- The padding symbols are 0. -/
theorem paddingZero_iff (c : Cfg) (k : Nat) (r : List Byte) :
    paddingZero c k r = true ↔ ∀ i, k ≤ i → r.getD (c.rsNroots + i) 0 = 0 := by
  rw [paddingZero, allZero_drop_iff]
  refine ⟨fun h i hi => h _ (by omega), fun h i hi => ?_⟩
  obtain ⟨d, rfl⟩ := Nat.exists_eq_add_of_le hi
  rw [Nat.add_assoc]
  exact h _ (by omega)

/-- What the test of a candidate asks for (42_reed_solomon.md R146). -/
theorem rsAccepts_iff (c : Cfg) (k : Nat) (r cw : List Byte) :
    rsAccepts c k r cw = true ↔ cw.length = r.length ∧ isCodeword c cw = true ∧ hamming cw r ≤ c.rsT ∧
      ∀ i, k ≤ i → cw.getD (c.rsNroots + i) 0 = 0 := by
  simp only [rsAccepts, Bool.and_eq_true, decide_eq_true_eq, paddingZero_iff, and_assoc]

/-- A received codeword is answered as it is. -/
theorem rsCorrect_of_isCodeword {c : Cfg} {k : Nat} {r : List Byte} (h : isCodeword c r = true) :
    rsCorrect c k r = some r := by
  rw [isCodeword] at h
  simp only [rsCorrect, h, if_true]

/-- Whatever the corrector answers is a codeword, and the received word or a word near it with zero padding. -/
theorem rsCorrect_sound {c : Cfg} {k : Nat} {r cw : List Byte} (h : rsCorrect c k r = some cw) :
    isCodeword c cw = true ∧ cw.length = r.length ∧
      (cw = r ∨ (hamming cw r ≤ c.rsT ∧ ∀ i, k ≤ i → cw.getD (c.rsNroots + i) 0 = 0)) := by
  obtain ⟨hr, rfl⟩ | ⟨-, hmem⟩ := rsCorrect_some h
  · exact ⟨hr, rfl, .inl rfl⟩
  · obtain ⟨hl, hcw, hd, hpad⟩ := (rsAccepts_iff c k r cw).1 (rsAccepts_of_mem hmem)
    exact ⟨hcw, hl, .inr ⟨hd, hpad⟩⟩

/-- The next state of RS_CORRECT inside a decode (42_reed_solomon.md R146). -/
theorem exec_rsCorrect_of_some {s : State} {w : Work} (hw : s.work = some w) {cw : List Byte}
    (h : rsCorrect s.cfg w.msgLen w.r = some cw) :
    exec .rsCorrect s = .next (s.setWork (some { w with ok := true, cw := cw })) :=
  onPipe_inside rsCorrectOp s w ⟨s.dc, s.draws, { w with ok := true, cw := cw }⟩ hw (by rw [rsCorrectOp, h])

/-- RS_CORRECT of a word that has no answer (notes/assumptions/17.md). -/
theorem exec_rsCorrect_of_none {s : State} {w : Work} (hw : s.work = some w)
    (h : rsCorrect s.cfg w.msgLen w.r = none) : exec .rsCorrect s = .next (s.setWork (some { w with ok := false })) :=
  onPipe_inside rsCorrectOp s w ⟨s.dc, s.draws, { w with ok := false }⟩ hw (by rw [rsCorrectOp, h])

/-- Settles O41: where the search serves, a word without a non-zero padding symbol would be among its candidates. -/
theorem rsCorrectResult : Obligations.RsCorrectResult := by
  refine ⟨fun s w hw => ⟨fun cw h => exec_rsCorrect_of_some hw h, exec_rsCorrect_of_none hw⟩,
    fun c k r cw h => rsCorrect_sound h, fun c k r hreg hnone cw hl hcw hm hd => ?_⟩
  by_contra hpad
  have hzero : ∀ i, k ≤ i → cw.getD (c.rsNroots + i) 0 = 0 := by simpa using hpad
  have hmem := mem_rsCandidates_of_not_regular (syn := syndromes c r) hreg hm
    ((rsAccepts_iff c k r cw).2 ⟨hl, hcw, hd, hzero⟩)
  rw [((rsCorrect_eq_none_iff c k r).1 hnone).2] at hmem
  exact List.not_mem_nil hmem

/-! The default code. -/

/-- The errors of an accepted word lie below the bound: its padding is 0, so where the received padding is 0 too they
agree there. -/
theorem errorPositions_subset_range {c : Cfg} {k : Nat} {r cw : List Byte}
    (hpad : ∀ i, k ≤ i → cw.getD (c.rsNroots + i) 0 = 0) : errorPositions r cw ⊆ Finset.range (errorBound c k r) := by
  intro j hj
  obtain ⟨hlt, hne⟩ : j < r.length ∧ r.getD j 0 ≠ cw.getD j 0 := by simpa [errorPositions] using hj
  rw [Finset.mem_range, errorBound]
  split
  · refine lt_min ?_ hlt
    by_contra hlow
    obtain ⟨i, rfl⟩ := Nat.exists_eq_add_of_le (not_lt.1 hlow)
    rw [Nat.add_assoc, (paddingZero_iff c k r).1 ‹_› _ (by omega), hpad _ (by omega)] at hne
    exact hne rfl
  · exact hlt

/-- The bound is at most the length of the word. -/
theorem errorBound_le (c : Cfg) (k : Nat) (r : List Byte) : errorBound c k r ≤ r.length := by
  unfold errorBound
  split
  · exact min_le_right _ _
  · exact le_rfl

/-- The two systems serve words of at most 255 symbols: no power of the primitive element below 255 but 0 is 1. -/
theorem rsRegular_of_le {c : Cfg} (hc : DefaultRoots c) {m : Nat} (hm : m ≤ 255) : rsRegular c m = true := by
  obtain ⟨F, _, φ, h⟩ := exists_isByteRing_field hc.poly
  have hpowers : ∀ i < m - 1, (gmul c (gpow c alpha c.rsPrim))^[i] (gpow c alpha c.rsPrim) ≠ 1 := by
    intro i hi hone
    rw [← h.map_eq_one_iff, h.map_iterate_gmul, h.map_gpow, hc.prim, pow_one, ← pow_succ,
      ← pow_zero (φ alpha)] at hone
    have := h.alpha_pow_injOn hc.poly (Set.mem_Iio.2 (by omega)) (Set.mem_Iio.2 (by omega)) hone
    omega
  simp only [rsRegular, Bool.and_eq_true, decide_eq_true_eq, isField, alphaPrimitive_of_poly hc.poly, Bool.true_or,
    powersFrom_eq_map, List.all_map, List.all_eq_true, List.mem_range, Function.comp_apply, bne_iff_ne]
  exact ⟨⟨hc.twice, trivial⟩, hpowers⟩

/-- Every codeword within RS_T with zero padding is the answer (42_reed_solomon.md R142, R146): it is the received word
where that is a codeword, since the code has its minimum distance, and else the only candidate. -/
theorem rsCorrect_of_near {c : Cfg} (hc : DefaultRoots c) {k : Nat} {r cw : List Byte} (hlen : r.length ≤ 255)
    (hl : cw.length = r.length) (hcw : isCodeword c cw = true) (hd : hamming cw r ≤ c.rsT)
    (hpad : ∀ i, k ≤ i → cw.getD (c.rsNroots + i) 0 = 0) : rsCorrect c k r = some cw := by
  cases hr : isCodeword c r with
  | true =>
    obtain ⟨F, _, φ, h⟩ := exists_isByteRing_field hc.poly
    have hcard := card_errorPositions hl
    have htwice := hc.twice
    rw [h.errorPositions_eq_empty hc hl hlen hr hcw (by omega), Finset.card_empty] at hcard
    rw [rsCorrect_of_isCodeword hr, eq_of_hamming_zero hl hcard.symm]
  | false =>
    have hm := (errorBound_le c k r).trans hlen
    have hcand := rsCandidate_eq hc hl hlen hcw hd hm (errorPositions_subset_range hpad)
    have haccepts := (rsAccepts_iff c k r cw).2 ⟨hl, hcw, hd, hpad⟩
    refine rsCorrect_of_singleton hr ?_
    rw [rsCandidates, if_pos (rsRegular_of_le hc hm), hcand, Option.toList_some, List.filter_cons_of_pos haccepts,
      List.filter_nil]

/-- Settles O42: the default code has two syndromes for each error and 255 different nodes. -/
theorem correctorFindsTheNearestCodeword : Obligations.CorrectorFindsTheNearestCodeword := by
  intro k r hlen _
  refine ⟨rsCorrect_of_isCodeword, fun cw hl hcw hd hpad => ?_, fun cw h => ?_⟩
  · exact rsCorrect_of_near defaultRoots_rs41 hlen.le (hl.trans hlen.symm) hcw hd hpad
  · obtain ⟨hcw, hl, hnear⟩ := rsCorrect_sound h
    exact ⟨hl.trans hlen, hcw, hnear⟩

end Sys2Proof.Machine
end

section
/-! PROOFS. The interleaver (DeinterleaveResult, ReinterleaveResult): a block is read from and written to its own
positions. -/

namespace Sys2Proof.Machine

/-! The symbols of a block. -/

@[simp] theorem blockPositions_length (c : Cfg) (k b : Nat) : (blockPositions c k b).length = c.rsNroots + k := by
  simp [blockPositions, parityPositions, messagePositions]

/-- The first positions of a block are its parity symbols (42_reed_solomon.md R143). -/
theorem blockPositions_parity (c : Cfg) (k b : Nat) {j : Nat} (hj : j < c.rsNroots) :
    (blockPositions c k b)[j]? = some (c.parOff + c.rsNroots * b + j) := by
  rw [blockPositions, List.getElem?_append_left (by simpa [parityPositions] using hj)]
  simp [parityPositions, hj]

/-- The other positions of a block are its message symbols (42_reed_solomon.md R143). -/
theorem blockPositions_message (c : Cfg) (b : Nat) {k i : Nat} (hi : i < k) :
    (blockPositions c k b)[c.rsNroots + i]? = some (c.rsMsgOff + b + c.rsIlv * i) := by
  rw [blockPositions, List.getElem?_append_right (by simp [parityPositions])]
  simp [parityPositions, messagePositions, hi]

/-- The gathered word is the bytes at the block's positions, and the padding (42_reed_solomon.md R145). -/
theorem gathered_eq (c : Cfg) (k b : Nat) (frm : List Byte) :
    gathered c k b frm = (blockPositions c k b).map (frm.getD · 0) ++ List.replicate (c.rsK - k) 0 := by
  simp [gathered, blockPositions, parityPositions, messagePositions, Function.comp_def]

/-- The length of a gathered word. -/
theorem gathered_length (c : Cfg) (k b : Nat) (frm : List Byte) :
    (gathered c k b frm).length = c.rsNroots + k + (c.rsK - k) := by
  rw [gathered_eq, List.length_append, List.length_map, blockPositions_length, List.length_replicate]

/-- The gathered word holds at `j` the byte at the block's position `j`. -/
theorem gathered_getElem? {c : Cfg} {k b j p : Nat} (frm : List Byte) (h : (blockPositions c k b)[j]? = some p) :
    (gathered c k b frm)[j]? = some (frm.getD p 0) := by
  have hj : j < (blockPositions c k b).length := (List.getElem?_eq_some_iff.1 h).1
  rw [gathered_eq, List.getElem?_append_left (by rwa [List.length_map]), List.getElem?_map, h, Option.map_some]

/-- The gathered word depends on the bytes at the block's positions alone. -/
theorem gathered_congr {c : Cfg} {k b : Nat} {frm frm' : List Byte}
    (h : ∀ i ∈ blockPositions c k b, frm'[i]? = frm[i]?) : gathered c k b frm' = gathered c k b frm := by
  rw [gathered_eq, gathered_eq]
  congr 1
  refine List.map_congr_left fun i hi => ?_
  rw [List.getD_eq_getElem?_getD, List.getD_eq_getElem?_getD, h i hi]

/-- A block whose positions all exist is gathered. -/
theorem deinterleaveBlock_of_lt {c : Cfg} {k b : Nat} {frm : List Byte}
    (h : ∀ i ∈ blockPositions c k b, i < frm.length) : deinterleaveBlock c k b frm = .ok (gathered c k b frm) := by
  have hread : readAll .frm frm (blockPositions c k b) = .ok ((blockPositions c k b).map (frm.getD · 0)) := by
    rw [readAll_ok_iff, List.map_map]
    refine List.map_congr_left fun i hi => ?_
    rw [List.getElem?_eq_getElem (h i hi), Function.comp_apply, List.getD_eq_getElem _ _ (h i hi)]
  rw [deinterleaveBlock, hread, bind_of_ok, pure_eq_ok, gathered_eq]

/-- Bytes written to positions that differ: each position holds its byte, and every other byte stays. -/
theorem writeAll_zip {st : Store} {a r : List Byte} {ps : List Nat} {bytes : List Byte}
    (h : writeAll st a (ps.zip bytes) = .ok r) (hn : ps.Nodup) (hl : ps.length ≤ bytes.length) :
    r.length = a.length ∧ (∀ j p : Nat, ps[j]? = some p → r[p]? = bytes[j]?) ∧ ∀ i, i ∉ ps → r[i]? = a[i]? := by
  have hfst : (ps.zip bytes).map Prod.fst = ps := List.map_fst_zip hl
  obtain ⟨hlen, hframe⟩ := writeAll_frame h
  rw [hfst] at hframe
  refine ⟨hlen, fun j p hp => ?_, hframe⟩
  obtain ⟨hj, rfl⟩ := List.getElem?_eq_some_iff.1 hp
  have hzip : (ps[j], bytes[j]) ∈ ps.zip bytes := List.mem_iff_getElem?.2 ⟨j, by simp [hj, hj.trans_le hl]⟩
  rw [writeAll_get h (hfst.symm ▸ hn) hzip, List.getElem?_eq_getElem (hj.trans_le hl)]

/-! The positions of a decode whose frame and layout fit. -/

/-- The bounds of R4 on the code (00_scope.md R4). -/
theorem Cfg.decoderOk_code {c : Cfg} (h : c.decoderOk = true) :
    (∀ ext, c.msgLen ext ≤ c.rsK) ∧ c.rsK + c.rsNroots = c.rsN := by
  simp only [Cfg.decoderOk, Bool.and_eq_true, decide_eq_true_eq, and_assoc] at h
  obtain ⟨-, -, hnormal, hext, hn, -⟩ := h
  exact ⟨fun ext => by cases ext <;> assumption, hn⟩

/-- The positions of a block lie in the working frame. -/
theorem FrameFits.positions_lt {c : Cfg} {w : Work} (h : FrameFits c w) (ext : Bool) {b : Nat} (hb : b < c.rsIlv) :
    ∀ i ∈ blockPositions c (c.msgLen ext) b, i < w.frm.length := by
  obtain ⟨hlen, hd, hl⟩ := h
  rw [hlen]
  exact blockPositions_lt (.of_ok hd hl) ext hb

/-- Settles O40: the positions of the block exist, so its symbols are read. -/
theorem deinterleaveResult : Obligations.DeinterleaveResult := by
  intro s w b hw hfits hb hk parity message padding
  have hread := deinterleaveBlock_of_lt (hfits.positions_lt w.extPre hb)
  rw [← hk] at hread
  refine onPipe_inside (deinterleaveOp b) s w ⟨s.dc, s.draws, { w with r := gathered s.cfg w.msgLen b w.frm }⟩ hw ?_
  rw [deinterleaveOp, hread, bind_of_ok, pure_eq_ok]

/-- An operation of a decode that changes nothing there changes nothing at all. -/
theorem onPipe_unchanged {f : Cfg → Pipe → Except Fault Pipe} {s : State} {w : Work} (hw : s.work = some w)
    (hf : f s.cfg ⟨s.dc, s.draws, w⟩ = .ok ⟨s.dc, s.draws, w⟩) : onPipe f s = .next s := by
  rw [onPipe_inside f s w _ hw hf, ← hw]
  rfl

/-- Settles O43: the block's positions exist and differ, and the corrected word has a symbol for each of them. -/
theorem reinterleaveResult : Obligations.ReinterleaveResult := by
  intro s w b hw hfits hb hk hcw hn
  refine ⟨fun hok => ?_, fun hok => onPipe_unchanged hw (by rw [reinterleaveOp, hok]; rfl)⟩
  have hlt := hfits.positions_lt w.extPre hb
  rw [← hk] at hlt
  obtain ⟨frm, hfrm⟩ := writeAll_of_lt .frm w.frm ((blockPositions s.cfg w.msgLen b).zip w.cw)
    fun x hx => hlt x.1 (List.of_mem_zip hx).1
  obtain ⟨hmsg, hsymbols⟩ := Cfg.decoderOk_code hfits.2.1
  have hsize := hmsg w.extPre
  obtain ⟨hlen, hat, hother⟩ := writeAll_zip hfrm hn (by rw [blockPositions_length]; omega)
  have hop : reinterleaveOp b s.cfg ⟨s.dc, s.draws, w⟩ = .ok ⟨s.dc, s.draws, { w with frm := frm }⟩ := by
    rw [reinterleaveOp, if_pos hok, reinterleaveBlock, hfrm, bind_of_ok, pure_eq_ok]
  refine ⟨frm, onPipe_inside (reinterleaveOp b) s w _ hw hop, hlen, fun j hj => ?_, fun i hi => ?_, hother⟩
  · exact hat _ _ (blockPositions_parity _ _ _ hj)
  · exact hat _ _ (blockPositions_message _ _ hi)

end Sys2Proof.Machine
end

section
/-! PROOFS. The FEC stage (FecStageResult, TwelveErrorsAreCorrected): each block writes its own positions and its own
status, so that the blocks do not disturb each other. -/

namespace Sys2Proof.Machine

/-! What a block leaves. -/

/-- The frame and the status that the correction of block `b` of the frame `received` leaves: the corrected word, or
free values (42_reed_solomon.md R147, R149, R150). -/
structure BlockHolds (c : Cfg) (k b : Nat) (received frm : List Byte) (rsOk : List Bool) : Prop where
  corrected : ∀ cw : List Byte, rsCorrect c k (gathered c k b received) = some cw →
    rsOk[b]? = some true ∧ ∀ j p : Nat, (blockPositions c k b)[j]? = some p → frm[p]? = cw[j]?
  failed : rsCorrect c k (gathered c k b received) = none →
    rsOk[b]? = some false ∧
      ∃ d, ∀ j p : Nat, (blockPositions c k b)[j]? = some p → frm[p]? = some (Config.rsDraw (d + j))

/-- What a block left stays where later blocks change neither its positions nor its status. -/
theorem BlockHolds.congr {c : Cfg} {k b : Nat} {received frm frm' : List Byte} {rsOk rsOk' : List Bool}
    (h : BlockHolds c k b received frm rsOk) (hfrm : ∀ i ∈ blockPositions c k b, frm'[i]? = frm[i]?)
    (hok : rsOk'[b]? = rsOk[b]?) : BlockHolds c k b received frm' rsOk' where
  corrected cw hcw := by
    obtain ⟨hstatus, hat⟩ := h.corrected cw hcw
    exact ⟨hok.trans hstatus, fun j p hp => (hfrm p (List.mem_of_getElem? hp)).trans (hat j p hp)⟩
  failed hnone := by
    obtain ⟨hstatus, d, hat⟩ := h.failed hnone
    exact ⟨hok.trans hstatus, d, fun j p hp => (hfrm p (List.mem_of_getElem? hp)).trans (hat j p hp)⟩

/-- What the FEC stage does to the blocks `bs`: each is left as its correction says, and nothing else changes but the
locals and the counter of free values. -/
structure FecLeaves (c : Cfg) (bs : List Nat) (p q : Pipe) : Prop where
  dc : q.dc = { p.dc with rsOk := q.dc.rsOk }
  work : q.w = { p.w with frm := q.w.frm, r := q.w.r, ok := q.w.ok, cw := q.w.cw }
  frameLength : q.w.frm.length = p.w.frm.length
  statusLength : q.dc.rsOk.length = p.dc.rsOk.length
  otherBytes : ∀ i, (∀ b ∈ bs, i ∉ blockPositions c p.w.msgLen b) → q.w.frm[i]? = p.w.frm[i]?
  otherStatus : ∀ b, b ∉ bs → q.dc.rsOk[b]? = p.dc.rsOk[b]?
  blocks : ∀ b ∈ bs, BlockHolds c p.w.msgLen b p.w.frm q.w.frm q.dc.rsOk

/-- The blocks keep the message length. -/
theorem FecLeaves.msgLen {c : Cfg} {bs : List Nat} {p q : Pipe} (h : FecLeaves c bs p q) :
    q.w.msgLen = p.w.msgLen := by rw [h.work]

/-- No block: nothing changes. -/
theorem FecLeaves.nil (c : Cfg) (p : Pipe) : FecLeaves c [] p p := by
  constructor <;> simp

/-- The symbols of an answer cover the block's positions. -/
theorem blockPositions_length_le {c : Cfg} {k b : Nat} {frm cw : List Byte}
    (h : rsCorrect c k (gathered c k b frm) = some cw) : (blockPositions c k b).length ≤ cw.length := by
  rw [(rsCorrect_sound h).2.1, gathered_length, blockPositions_length]
  exact Nat.le_add_right _ _

@[simp] theorem drawBytes_length (draws n : Nat) : (drawBytes draws n).length = n := by simp [drawBytes]

/-- The free values are numbered from the counter on. -/
theorem drawBytes_getElem? (draws : Nat) {n j : Nat} (hj : j < n) :
    (drawBytes draws n)[j]? = some (Config.rsDraw (draws + j)) := by
  rw [drawBytes, List.getElem?_map, List.getElem?_range hj, Option.map_some]

/-- One block of the stage. -/
theorem FecLeaves.fecBlock {c : Cfg} {p q : Pipe} {b : Nat} (h : Machine.fecBlock c p b = .ok q)
    (hlt : ∀ i ∈ blockPositions c p.w.msgLen b, i < p.w.frm.length) (hn : (blockPositions c p.w.msgLen b).Nodup)
    (hb : b < p.dc.rsOk.length) : FecLeaves c [b] p q := by
  have hsetOther (ok : Bool) (b' : Nat) (hb' : b' ∉ [b]) : (p.dc.rsOk.set b ok)[b']? = p.dc.rsOk[b']? :=
    List.getElem?_set_ne (Ne.symm (mt List.mem_singleton.2 hb'))
  have hset (ok : Bool) : (p.dc.rsOk.set b ok)[b]? = some ok := List.getElem?_set_self hb
  obtain ⟨r, hr, hcases⟩ := fecBlock_cases h
  rw [deinterleaveBlock_of_lt hlt, Except.ok.injEq] at hr
  subst hr
  obtain ⟨cw, frm, hcw, hfrm, rfl⟩ | ⟨frm, hnone, hfrm, rfl⟩ := hcases
  · obtain ⟨hlen, hat, hother⟩ := writeAll_zip hfrm hn (blockPositions_length_le hcw)
    exact
      { dc := rfl, work := rfl, frameLength := hlen, statusLength := List.length_set
        otherBytes := fun i hi => hother i (hi b (List.mem_singleton_self b))
        otherStatus := hsetOther true
        blocks := List.forall_mem_singleton.2
          { corrected := fun cw' hcw' => by
              obtain rfl : cw = cw' := Option.some.inj (hcw.symm.trans hcw')
              exact ⟨hset true, hat⟩
            failed := fun hnone => nomatch hcw.symm.trans hnone } }
  · obtain ⟨hlen, hat, hother⟩ := writeAll_zip hfrm hn (drawBytes_length _ _).ge
    exact
      { dc := rfl, work := rfl, frameLength := hlen, statusLength := List.length_set
        otherBytes := fun i hi => hother i (hi b (List.mem_singleton_self b))
        otherStatus := hsetOther false
        blocks := List.forall_mem_singleton.2
          { corrected := fun cw hcw => nomatch hnone.symm.trans hcw
            failed := fun _ => ⟨hset false, p.draws, fun j pos hp =>
              (hat j pos hp).trans (drawBytes_getElem? _ (List.getElem?_eq_some_iff.1 hp).1)⟩ } }

/-- A block and then others at other positions: the first block keeps what it left, and the others find the bytes that
were received. -/
theorem FecLeaves.cons {c : Cfg} {b : Nat} {bs : List Nat} {p m q : Pipe} (h : FecLeaves c [b] p m)
    (h' : FecLeaves c bs m q) (hb : b ∉ bs)
    (hdisj : ∀ b' ∈ bs, (blockPositions c p.w.msgLen b).Disjoint (blockPositions c p.w.msgLen b')) :
    FecLeaves c (b :: bs) p q := by
  have hk := h.msgLen
  have hlater {i} (hi : i ∈ blockPositions c p.w.msgLen b) : q.w.frm[i]? = m.w.frm[i]? :=
    h'.otherBytes i fun b' hb' hi' => hdisj b' hb' hi (hk ▸ hi')
  have hbefore {b'} (hb' : b' ∈ bs) {i} (hi : i ∈ blockPositions c p.w.msgLen b') : m.w.frm[i]? = p.w.frm[i]? :=
    h.otherBytes i (List.forall_mem_singleton.2 fun hi' => hdisj b' hb' hi' hi)
  exact
    { dc := by rw [h'.dc, h.dc]
      work := by rw [h'.work, h.work]
      frameLength := h'.frameLength.trans h.frameLength
      statusLength := h'.statusLength.trans h.statusLength
      otherBytes := fun i hi => by
        obtain ⟨hib, hibs⟩ := List.forall_mem_cons.1 hi
        exact (h'.otherBytes i (hk ▸ hibs)).trans (h.otherBytes i (List.forall_mem_singleton.2 hib))
      otherStatus := fun b' hb' => by
        obtain ⟨hne, hnot⟩ := not_or.1 (mt List.mem_cons.2 hb')
        exact (h'.otherStatus b' hnot).trans (h.otherStatus b' (mt List.mem_singleton.1 hne))
      blocks := List.forall_mem_cons.2 ⟨(h.blocks b (List.mem_singleton_self b)).congr (fun _ => hlater)
        (h'.otherStatus b hb), fun b' hb' => by
          have hblock := h'.blocks b' hb'
          rw [hk] at hblock
          have hsame := gathered_congr fun i => hbefore hb' (i := i)
          exact ⟨hsame ▸ hblock.corrected, hsame ▸ hblock.failed⟩⟩ }

/-- All blocks of a list, at positions that differ. -/
theorem FecLeaves.fecBlocks {c : Cfg} {bs : List Nat} {p q : Pipe} (h : Machine.fecBlocks c bs p = .ok q)
    (hlt : ∀ b ∈ bs, ∀ i ∈ blockPositions c p.w.msgLen b, i < p.w.frm.length) (hbs : bs.Nodup)
    (hn : (bs.flatMap (blockPositions c p.w.msgLen)).Nodup) (hstatus : ∀ b ∈ bs, b < p.dc.rsOk.length) :
    FecLeaves c bs p q := by
  induction bs generalizing p with
  | nil =>
    obtain rfl : p = q := Except.ok.inj h
    exact .nil c p
  | cons b bs ih =>
    obtain ⟨m, hm, h⟩ := (bind_ok_iff _ _ _).1 h
    obtain ⟨hb, hbs⟩ := List.nodup_cons.1 hbs
    rw [List.flatMap_cons] at hn
    obtain ⟨hnb, hnbs, hdisj⟩ := List.nodup_append'.1 hn
    obtain ⟨hltb, hltbs⟩ := List.forall_mem_cons.1 hlt
    obtain ⟨hsb, hsbs⟩ := List.forall_mem_cons.1 hstatus
    have hfirst := FecLeaves.fecBlock hm hltb hnb hsb
    have hrest := ih h (by rwa [hfirst.msgLen, hfirst.frameLength]) hbs (by rwa [hfirst.msgLen])
      (by rwa [hfirst.statusLength])
    exact hfirst.cons hrest hb fun b' hb' i hi hi' => hdisj hi (List.mem_flatMap.2 ⟨b', hb', hi'⟩)

/-- FEC_STAGE inside a decode whose frame and layout fit and whose block positions differ (42_reed_solomon.md R149). -/
theorem exec_fecStage {s : State} {w : Work} (hw : s.work = some w) (hfits : FrameFits s.cfg w)
    (hstatus : s.dc.rsOk.length = s.cfg.rsIlv)
    (hn : ((List.range s.cfg.rsIlv).flatMap
      (blockPositions s.cfg (s.cfg.msgLen (extendedFrame s.cfg w.frm)))).Nodup) :
    ∃ q, exec .fecStage s =
        .next (((s.setDc q.dc).setDraws q.draws).setWork (some { q.w with stage := .mode })) ∧
      FecLeaves s.cfg (List.range s.cfg.rsIlv)
        ⟨s.dc, s.draws, setModePre s.cfg (extendedFrame s.cfg w.frm) w⟩ q := by
  obtain ⟨hlen, hd, hl⟩ := id hfits
  have hc : LayoutBounds s.cfg := .of_ok hd hl
  obtain ⟨q, hq, -⟩ := fecBlocks_answers hc (bs := List.range s.cfg.rsIlv) (fun _ => List.mem_range.1)
    (p := ⟨s.dc, s.draws, setModePre s.cfg (extendedFrame s.cfg w.frm) w⟩) ⟨hlen, _, rfl⟩
  refine ⟨q, onPipe_inside fecStageOp s w ⟨q.dc, q.draws, { q.w with stage := .mode }⟩ hw ?_, ?_⟩
  · rw [fecStageOp, isExtended_of_lt (hlen ▸ hc.ftype), bind_of_ok, hq]
    rfl
  · exact FecLeaves.fecBlocks hq (fun b hb => hfits.positions_lt _ (List.mem_range.1 hb)) List.nodup_range hn
      fun b hb => hstatus ▸ List.mem_range.1 hb

/-- Settles O44: what the blocks leave, with the mode of the received frame. -/
theorem fecStageResult : Obligations.FecStageResult := by
  intro s w hw hfits hstatus ext k hn
  obtain ⟨q, hexec, h⟩ := exec_fecStage hw hfits hstatus hn
  refine ⟨{ q.w with stage := .mode }, q.dc.rsOk, q.draws, ?_, ?_, h.frameLength, h.statusLength, fun i hi => ?_,
    fun b hb => ?_⟩
  · rw [hexec]
    congr 3
    exact congrArg s.setDc h.dc
  · rw [h.work]
    rfl
  · exact h.otherBytes i fun b hb => hi b (List.mem_range.1 hb)
  · obtain ⟨hcorrected, hfailed⟩ := h.blocks b (List.mem_range.2 hb)
    exact ⟨hcorrected, hfailed⟩

/-! Twelve errors under the default configuration (42_reed_solomon.md R151). -/

/-- The distance of two words made of two parts each. -/
theorem hamming_append {u v : List Byte} (hl : u.length = v.length) (u' v' : List Byte) :
    hamming (u ++ u') (v ++ v') = hamming u v + hamming u' v' := by
  simp only [hamming, List.zipWith_append hl, List.sum_append]

/-- The distance of what is gathered from two frames is the number of the block's positions that differ. -/
theorem hamming_gathered {c : Cfg} {k b : Nat} {x y : List Byte} (hx : ∀ i ∈ blockPositions c k b, i < x.length)
    (hy : ∀ i ∈ blockPositions c k b, i < y.length) :
    hamming (gathered c k b y) (gathered c k b x) = differAt (blockPositions c k b) x y := by
  rw [gathered_eq, gathered_eq, hamming_append (by simp), hamming_self, Nat.add_zero]
  generalize blockPositions c k b = ps at hx hy
  induction ps with
  | nil => rfl
  | cons p ps ih =>
    obtain ⟨hxp, hxs⟩ := List.forall_mem_cons.1 hx
    obtain ⟨hyp, hys⟩ := List.forall_mem_cons.1 hy
    rw [List.map_cons, List.map_cons, hamming_cons, ih hxs hys, differAt, differAt, List.filter_cons,
      List.getElem?_eq_getElem hxp, List.getElem?_eq_getElem hyp, List.getD_eq_getElem _ _ hxp,
      List.getD_eq_getElem _ _ hyp]
    by_cases heq : x[p] = y[p]
    · simp [heq]
    · simp [heq, Ne.symm heq, Nat.add_comm]

/-- The padding of what is gathered is 0. -/
theorem gathered_padding (c : Cfg) (k b : Nat) (frm : List Byte) :
    ∀ i, k ≤ i → (gathered c k b frm).getD (c.rsNroots + i) 0 = 0 := by
  rw [← paddingZero_iff, paddingZero, gathered_eq,
    List.drop_left' (by rw [List.length_map, blockPositions_length])]
  simp [allZero]

/-- The positions of a block under the default configuration (42_reed_solomon.md R143). -/
theorem mem_blockPositions_rs41 {k b i : Nat} (h : i ∈ blockPositions Cfg.rs41 k b) :
    (∃ j < 24, i = 8 + 24 * b + j) ∨ ∃ j < k, i = 56 + b + 2 * j := by
  obtain h | h := List.mem_append.1 h
  · obtain ⟨j, hj, rfl⟩ := List.mem_map.1 h
    exact .inl ⟨j, List.mem_range.1 hj, rfl⟩
  · obtain ⟨j, hj, rfl⟩ := List.mem_map.1 h
    exact .inr ⟨j, List.mem_range.1 hj, rfl⟩

/-- Under the default configuration the positions of all blocks differ: the parity lies before the message, block
after block, and the message symbols of the two blocks alternate. -/
theorem blockPositions_rs41_nodup (k : Nat) : ((List.range 2).flatMap (blockPositions Cfg.rs41 k)).Nodup := by
  refine List.nodup_flatMap.2 ⟨fun b hb => ?_, List.nodup_range.imp_of_mem fun {b b'} hb hb' hne => ?_⟩
  · have hb := List.mem_range.1 hb
    have hparity : (parityPositions Cfg.rs41 b).Nodup :=
      List.nodup_range.map fun i j hij => Nat.add_left_cancel hij
    have hmessage : (messagePositions Cfg.rs41 k b).Nodup :=
      List.nodup_range.map fun i j hij => Nat.eq_of_mul_eq_mul_left two_pos (Nat.add_left_cancel hij)
    refine List.nodup_append'.2 ⟨hparity, hmessage, fun i hp hm => ?_⟩
    obtain ⟨j, hj, rfl⟩ := List.mem_map.1 hp
    obtain ⟨l, -, heq⟩ := List.mem_map.1 hm
    have hj : j < 24 := List.mem_range.1 hj
    have heq : 56 + b + 2 * l = 8 + 24 * b + j := heq
    omega
  · have hb := List.mem_range.1 hb
    have hb' := List.mem_range.1 hb'
    intro i hi hi'
    obtain ⟨j, hj, rfl⟩ | ⟨j, hj, rfl⟩ := mem_blockPositions_rs41 hi <;>
      obtain ⟨l, hl, heq⟩ | ⟨l, hl, heq⟩ := mem_blockPositions_rs41 hi' <;> omega

/-- A block sent as a codeword and received with at most RS_T changed positions: the word sent is the answer. -/
theorem rsCorrect_gathered {c : Cfg} (hc : DefaultRoots c) {k b : Nat} {received sent : List Byte}
    (hsize : c.rsNroots + k + (c.rsK - k) ≤ 255) (hlt : ∀ i ∈ blockPositions c k b, i < received.length)
    (hlt' : ∀ i ∈ blockPositions c k b, i < sent.length) (hcw : isCodeword c (gathered c k b sent) = true)
    (hdiff : differAt (blockPositions c k b) received sent ≤ c.rsT) :
    rsCorrect c k (gathered c k b received) = some (gathered c k b sent) :=
  rsCorrect_of_near hc (gathered_length c k b received ▸ hsize) (by rw [gathered_length, gathered_length]) hcw
    ((hamming_gathered hlt hlt').trans_le hdiff) (gathered_padding c k b sent)

/-- Settles O45: the word sent is the answer of the corrector, and the stage writes it back. -/
theorem twelveErrorsAreCorrected : Obligations.TwelveErrorsAreCorrected := by
  intro s w sent b hcfg hw hlen hsent hb hstatus hmode k hcw hdiff
  obtain ⟨hilv, hcode, hdistance, hlength⟩ :
      s.cfg.rsIlv = 2 ∧ DefaultRoots s.cfg ∧ s.cfg.rsT = 12 ∧ s.cfg.rsN = 255 := by
    rw [hcfg]
    exact ⟨rfl, defaultRoots_rs41, rfl, rfl⟩
  have hfits : FrameFits s.cfg w := by
    rw [hcfg]
    exact ⟨hlen, by decide +kernel, by decide +kernel⟩
  have hk : s.cfg.msgLen (extendedFrame s.cfg w.frm) = k := by rw [hmode]
  have hn : ((List.range s.cfg.rsIlv).flatMap
      (blockPositions s.cfg (s.cfg.msgLen (extendedFrame s.cfg w.frm)))).Nodup := by
    rw [hcfg]
    exact blockPositions_rs41_nodup _
  have hb : b < s.cfg.rsIlv := hilv.symm ▸ hb
  have hlt := hfits.positions_lt (extendedFrame s.cfg sent) hb
  have hlt' : ∀ i ∈ blockPositions s.cfg k b, i < sent.length := hsent.trans hlen.symm ▸ hlt
  obtain ⟨hmsg, hsymbols⟩ := Cfg.decoderOk_code hfits.2.1
  have hmsg := hmsg (extendedFrame s.cfg sent)
  have hanswer := rsCorrect_gathered hcode (by omega) hlt hlt' hcw (hdistance ▸ hdiff)
  obtain ⟨q, hexec, h⟩ := exec_fecStage hw hfits (hstatus.trans hilv.symm) hn
  have hblock := h.blocks b (List.mem_range.2 hb)
  simp only [setModePre, hk] at hblock
  obtain ⟨hok, hat⟩ := hblock.corrected _ hanswer
  refine ⟨_, _, hexec, rfl, hok, fun p hp => ?_⟩
  obtain ⟨j, hj⟩ := List.mem_iff_getElem?.1 hp
  rw [hat j p hj, gathered_getElem? _ hj, List.getElem?_eq_getElem (hlt' p hp), List.getD_eq_getElem _ _ (hlt' p hp)]

end Sys2Proof.Machine
end

section
/-! PROOFS. The CRC (CrcOperationsResult, CrcKnownValues, SingleBitErrorsAreDetected): what the two operations read of
the frame, and that under a polynomial with constant term 1 each bit of the CRC is an injective map of the register, so
that a difference that entered stays until the end. -/

namespace Sys2Proof.Machine

/-! Reads inside the region (30_encoding.md R72). -/

/-- A range inside the region, by its place in the frame. -/
theorem slice_region {c : Cfg} {w : Work} (hfits : RegionFits c w) {o len : Nat} (h : o + len ≤ w.regionLen) :
    slice .region ((w.frm.drop c.dataOff).take w.regionLen) o len = .ok ((w.frm.drop (c.dataOff + o)).take len) := by
  have hfits : c.dataOff + w.regionLen ≤ w.frm.length := hfits
  rw [slice_of_le _ _ _ _ (by rw [List.length_take, List.length_drop]; omega), List.drop_take, List.drop_drop,
    List.take_take, Nat.min_eq_left (by omega)]

/-- Two bytes inside the region, by their place in the frame. -/
theorem natLe16_region {c : Cfg} {w : Work} {o : Nat} (h : o + 2 ≤ w.regionLen) :
    natLe16 ((w.frm.drop c.dataOff).take w.regionLen) o = natLe16 w.frm (c.dataOff + o) := by
  have hbyte : ∀ i, i < w.regionLen →
      ((w.frm.drop c.dataOff).take w.regionLen).getD i 0 = w.frm.getD (c.dataOff + i) 0 := fun i hi => by
    rw [List.getD_eq_getElem?_getD, List.getElem?_take_of_lt hi, List.getElem?_drop, List.getD_eq_getElem?_getD]
  rw [natLe16, natLe16, hbyte o (by omega), hbyte (o + 1) (by omega), Nat.add_assoc]

/-- The 16-bit field that CRC_OK reads is the byte arithmetic of the frame. -/
theorem u16le_region {c : Cfg} {w : Work} (hfits : RegionFits c w) {o : Nat} (h : o + 2 ≤ w.regionLen) :
    ∃ v, u16le .region ((w.frm.drop c.dataOff).take w.regionLen) o = .ok v ∧
      v.toNat = natLe16 w.frm (c.dataOff + o) := by
  have hfits : c.dataOff + w.regionLen ≤ w.frm.length := hfits
  have hlt : o + 1 < ((w.frm.drop c.dataOff).take w.regionLen).length := by
    rw [List.length_take, List.length_drop]
    omega
  exact ⟨_, u16le_of_lt _ _ _ hlt, by rw [← natLe16_of_lt hlt, natLe16_region h]⟩

/-! The two operations (43_crc16.md R160, R161). -/

/-- The gate compares the two CRCs as numbers. -/
theorem crcGate_eq_decide (c : Cfg) (payload : List Byte) (stored : Half) :
    crcGate c payload stored = decide ((crc16 c payload).toNat = stored.toNat) := by
  rw [crcGate, Bool.beq_eq_decide_eq, decide_eq_decide, BitVec.toNat_inj]

/-- CRC16 over a range inside the region. -/
theorem crc16Op_of_le {c : Cfg} {p : Pipe} (hfits : RegionFits c p.w) {o len : Nat} (h : o + len ≤ p.w.regionLen) :
    crc16Op o len c p =
      .ok { p with w := { p.w with crc := crc16 c ((p.w.frm.drop (c.dataOff + o)).take len) } } := by
  rw [crc16Op, region_of_fits hfits, bind_of_ok, slice_region hfits h, bind_of_ok, pure_eq_ok]

/-- CRC_OK over a payload and a stored CRC inside the region. -/
theorem crcOkOp_of_le {c : Cfg} {p : Pipe} (hfits : RegionFits c p.w) {off len : Nat}
    (h : off + len + 4 ≤ p.w.regionLen) :
    let crc := crc16 c ((p.w.frm.drop (c.dataOff + (off + 2))).take len)
    crcOkOp off len c p = .ok { p with
      w := { p.w with crc, crcOk := decide (crc.toNat = natLe16 p.w.frm (c.dataOff + off + 2 + len)) } } := by
  intro crc
  obtain ⟨stored, hstored, hnat⟩ := u16le_region hfits (o := off + 2 + len) (by omega)
  have hplace : c.dataOff + (off + 2 + len) = c.dataOff + off + 2 + len := by omega
  rw [crcOkOp, region_of_fits hfits, bind_of_ok, slice_region hfits (by omega), bind_of_ok, hstored, bind_of_ok,
    pure_eq_ok, crcGate_eq_decide, hnat, hplace]

/-- Settles O46: both reads lie in the region, and the frame's bytes are at the region's place. -/
theorem crcOperationsResult : Obligations.CrcOperationsResult := by
  intro s w o len hw hfits _ bytes
  exact ⟨fun h => onPipe_inside (crc16Op o len) s w _ hw (crc16Op_of_le hfits h),
    fun h => onPipe_inside (crcOkOp o len) s w _ hw (crcOkOp_of_le hfits h)⟩

/-! The published values (43_crc16.md R160, R163). -/

/-- The CRC of an empty payload reads no byte. -/
@[simp] theorem crc16_nil (c : Cfg) : crc16 c [] = c.crcInit ^^^ c.crcXorout := rfl

/-- Settles O47: the examples are evaluated, the empty payload is an equation of the CRC. -/
theorem crcKnownValues : Obligations.CrcKnownValues :=
  ⟨by decide +kernel, by decide +kernel, by decide +kernel, by decide +kernel, by decide +kernel, by decide +kernel,
    by decide +kernel, crc16_nil⟩

/-! A difference in the register stays (43_crc16.md R162). -/

/-- With the polynomial's constant term 1, the lowest bit tells the top bit that was shifted out. -/
theorem crcBit_getLsbD_zero {poly : Half} (hpoly : poly.getLsbD 0 = true) (crc : Half) :
    (crcBit poly crc).getLsbD 0 = crc.getLsbD 15 := by
  rw [crcBit]
  cases crc.getLsbD 15
  · simp
  · simpa using hpoly

/-- Every other bit is the bit below it, with the polynomial's where the top bit was set. -/
theorem crcBit_getLsbD_succ (poly crc : Half) {i : Nat} (hi : i < 15) :
    (crcBit poly crc).getLsbD (i + 1) = (crc.getLsbD i ^^ (crc.getLsbD 15 && poly.getLsbD (i + 1))) := by
  have hlt : i + 1 < 16 := by omega
  have hread := BitVec.getLsbD_eq_getElem (x := crc) (show i < 16 by omega)
  rw [crcBit]
  cases crc.getLsbD 15
  · simp [hlt, hread]
  · simp [hlt, hread]

/-- Under such a polynomial a bit of the CRC keeps registers apart. -/
theorem crcBit_injective {poly : Half} (hpoly : poly.getLsbD 0 = true) : Function.Injective (crcBit poly) := by
  intro x y hxy
  have htop : x.getLsbD 15 = y.getLsbD 15 := by
    rw [← crcBit_getLsbD_zero hpoly x, hxy, crcBit_getLsbD_zero hpoly y]
  refine BitVec.eq_of_getLsbD_eq fun i hi => ?_
  obtain hlt | rfl : i < 15 ∨ i = 15 := by omega
  · have hbit := congrArg (·.getLsbD (i + 1)) hxy
    simpa only [crcBit_getLsbD_succ _ _ hlt, htop, Bool.xor_left_inj] using hbit
  · exact htop

/-- Any number of bits keeps registers apart. -/
theorem crcBits_injective {poly : Half} (hpoly : poly.getLsbD 0 = true) (k : Nat) :
    Function.Injective (crcBits poly k) := by
  induction k with
  | zero => exact Function.injective_id
  | succ k ih => exact ih.comp (crcBit_injective hpoly)

/-- A byte keeps registers apart. -/
theorem crcByte_injective {poly : Half} (hpoly : poly.getLsbD 0 = true) (v : Byte) :
    Function.Injective fun crc => crcByte poly crc v :=
  (crcBits_injective hpoly 8).comp fun _ _ => (BitVec.xor_left_inj _).1

/-- From one register, different bytes lead to different registers. -/
theorem crcByte_right_injective {poly : Half} (hpoly : poly.getLsbD 0 = true) (crc : Half) :
    Function.Injective (crcByte poly crc) := by
  intro v v' h
  have hshift : v.setWidth 16 <<< 8 = v'.setWidth 16 <<< 8 :=
    (BitVec.xor_right_inj _).1 (crcBits_injective hpoly 8 h)
  refine BitVec.eq_of_getLsbD_eq fun i hi => ?_
  have hi' : i + 8 < 16 := by omega
  simpa [hi, hi'] using congrArg (·.getLsbD (i + 8)) hshift

/-- The CRC goes through its bytes one after the other. -/
@[simp] theorem crcBytes_cons (poly crc : Half) (v : Byte) (rest : List Byte) :
    crcBytes poly crc (v :: rest) = crcBytes poly (crcByte poly crc v) rest := by
  rw [crcBytes, strict_eq]

/-- A list of bytes keeps registers apart. -/
theorem crcBytes_injective {poly : Half} (hpoly : poly.getLsbD 0 = true) (bytes : List Byte) :
    Function.Injective fun crc => crcBytes poly crc bytes := by
  induction bytes with
  | nil => exact Function.injective_id
  | cons v rest ih =>
    simp only [crcBytes_cons]
    exact ih.comp (crcByte_injective hpoly v)

/-- Another byte in one place leads to another register. -/
theorem crcBytes_set_ne {poly : Half} (hpoly : poly.getLsbD 0 = true) {v v' : Byte} (hne : v' ≠ v)
    (bytes : List Byte) {i : Nat} (hi : bytes[i]? = some v) (crc : Half) :
    crcBytes poly crc (bytes.set i v') ≠ crcBytes poly crc bytes := by
  induction bytes generalizing i crc with
  | nil => simp at hi
  | cons u rest ih =>
    cases i with
    | zero =>
      obtain rfl : u = v := by simpa using hi
      simp only [List.set_cons_zero, crcBytes_cons]
      exact (crcBytes_injective hpoly rest).ne ((crcByte_right_injective hpoly crc).ne hne)
    | succ i =>
      simp only [List.set_cons_succ, crcBytes_cons]
      exact ih (by simpa using hi) _

/-! The gate (43_crc16.md R161, R162). -/

/-- A flipped bit changes the word. -/
theorem xor_one_shiftLeft_ne {n : Nat} (v : BitVec n) {b : Nat} (hb : b < n) : v ^^^ (1 <<< b) ≠ v := by
  intro h
  have hbit := congrArg (·.getLsbD b) h
  simp only [BitVec.getLsbD_xor, BitVec.natCast_eq_ofNat, BitVec.getLsbD_ofNat, Nat.one_shiftLeft,
    Nat.testBit_two_pow_self, hb, decide_true, Bool.and_true, Bool.xor_true] at hbit
  exact Bool.not_ne_self _ hbit

/-- The gate passes exactly where the stored CRC is the payload's. -/
theorem crcGate_iff (c : Cfg) (payload : List Byte) (stored : Half) :
    crcGate c payload stored = true ↔ crc16 c payload = stored := beq_iff_eq

/-- Settles O48: a flipped bit of the payload changes the computed CRC, one of the stored CRC the other side. -/
theorem singleBitErrorsAreDetected : Obligations.SingleBitErrorsAreDetected := by
  intro c payload stored hpoly hgate
  obtain rfl := (crcGate_iff c payload stored).1 hgate
  simp only [← Bool.not_eq_true, crcGate_iff]
  refine ⟨fun i b v hv hb heq => ?_, fun b hb => (xor_one_shiftLeft_ne _ hb).symm⟩
  exact crcBytes_set_ne hpoly (xor_one_shiftLeft_ne v hb) payload hv c.crcInit ((BitVec.xor_left_inj _).1 heq)

end Sys2Proof.Machine
end

section
/-! PROOFS. What the decoder refuses (DecodeRefusesWhatDoesNotFit): where the header stands, the subframe's length byte
and the bytes that are left decide the answer. -/

namespace Sys2Proof

/-! The subframe behind a header (44_subframe_parser.md R173, R174). -/

/-- The subframe would end beyond the region. -/
theorem decodeSubframe_of_lt {c : Cfg} {tag len : Byte} {rest : List Byte}
    (h : (tag :: len :: rest).length < len.toNat + c.sfOverhead) :
    decodeSubframe c (tag :: len :: rest) = .error .beyondRegion := if_pos h

/-- The walk takes the subframe, but its two CRC bytes are not there. -/
theorem decodeSubframe_of_noCrc {c : Cfg} {tag len : Byte} {rest : List Byte}
    (hfits : len.toNat + c.sfOverhead ≤ (tag :: len :: rest).length)
    (hcrc : (tag :: len :: rest).length < len.toNat + 4) :
    decodeSubframe c (tag :: len :: rest) = .error .noCrc := by
  have hshort : (rest.drop len.toNat).length < 2 := by
    simp only [List.length_cons] at hcrc
    rw [List.length_drop]
    omega
  rw [decodeSubframe, if_neg (not_lt.2 hfits)]
  match rest.drop len.toNat, hshort with
  | [], _ => rfl
  | [_], _ => rfl

/-- The subframe lies in the region with its CRC. -/
theorem decodeSubframe_of_fits {c : Cfg} {tag len : Byte} {rest : List Byte}
    (hfits : len.toNat + c.sfOverhead ≤ (tag :: len :: rest).length)
    (hcrc : len.toNat + 4 ≤ (tag :: len :: rest).length) :
    ∃ found, decodeSubframe c (tag :: len :: rest) = .ok found := by
  have htwo : 2 ≤ (rest.drop len.toNat).length := by
    simp only [List.length_cons] at hcrc
    rw [List.length_drop]
    omega
  rw [decodeSubframe, if_neg (not_lt.2 hfits)]
  match rest.drop len.toNat, htwo with
  | _ :: _ :: _, _ => exact ⟨_, rfl⟩

/-- Everything that is refused behind a header: an end beyond the region, or a CRC that is not there. -/
theorem decodeSubframe_cons_error_iff {c : Cfg} {tag len : Byte} {rest : List Byte} {e : DecodeError} :
    decodeSubframe c (tag :: len :: rest) = .error e ↔
      (e = .beyondRegion ∧ (tag :: len :: rest).length < len.toNat + c.sfOverhead) ∨
        (e = .noCrc ∧ len.toNat + c.sfOverhead ≤ (tag :: len :: rest).length ∧
          (tag :: len :: rest).length < len.toNat + 4) := by
  obtain hlt | hfits := lt_or_ge (tag :: len :: rest).length (len.toNat + c.sfOverhead)
  · rw [decodeSubframe_of_lt hlt]
    simp only [Except.error.injEq, @eq_comm _ _ e, hlt, not_le.2 hlt, false_and, and_false, or_false, and_true]
  obtain hcrc | hcrc := lt_or_ge (tag :: len :: rest).length (len.toNat + 4)
  · rw [decodeSubframe_of_noCrc hfits hcrc]
    simp only [Except.error.injEq, @eq_comm _ _ e, hfits, hcrc, not_lt.2 hfits, and_false, false_or, and_true]
  · obtain ⟨found, hfound⟩ := decodeSubframe_of_fits hfits hcrc
    rw [hfound]
    simp only [not_lt.2 hfits, not_lt.2 hcrc, and_false, or_false, reduceCtorEq]

/-- No operation is read exactly where no subframe is, and for the same reason. -/
theorem decode_error_iff {c : Cfg} {bytes : List Byte} {e : DecodeError} :
    decode c bytes = .error e ↔ decodeSubframe c bytes = .error e :=
  ⟨Machine.decode_error, fun h => by simp only [decode, h]⟩

/-- Settles O3: fewer than two bytes hold no header, and behind a header two comparisons decide. -/
theorem decodeRefusesWhatDoesNotFit : Obligations.DecodeRefusesWhatDoesNotFit := by
  intro c bytes
  simp only [decode_error_iff]
  match bytes with
  | [] | [_] => simp [decodeSubframe]
  | tag :: len :: rest => simp [decodeSubframe_cons_error_iff]

end Sys2Proof
end

section
/-! PROOFS. The walk (WalkResult): its turns, each of which takes the subframe at the offset and moves on past it, and
the end, where no subframe is taken any more. -/

namespace Sys2Proof.Machine

/-! The turns of the walk (44_subframe_parser.md R173). -/

/-- One turn of the walk: the subframe at the offset is taken, and its turn leads from `p` to `q`. -/
def WalkTurn (c : Cfg) (p q : Pipe) : Prop :=
  ∃ sf, fetchSubframe c p.w = .ok (some sf) ∧
    subframeTurn (actOf (subKind c sf.tag)) sf.payload sf.crc c p = .ok q

/-- The walk is a number of turns, after which no subframe is taken. -/
theorem walkLoop_turns {c : Cfg} {fuel : Nat} {p q : Pipe} (h : walkLoop c fuel p = .ok q) :
    Relation.ReflTransGen (WalkTurn c) p q ∧ fetchSubframe c q.w = .ok none := by
  induction fuel generalizing p with
  | zero => cases h
  | succ fuel ih =>
    obtain ⟨hend, rfl⟩ | ⟨sf, m, hsf, hturn, h⟩ := walkLoop_succ_cases h
    · exact ⟨.refl, hend⟩
    · obtain ⟨hturns, hend⟩ := ih h
      exact ⟨.head ⟨sf, hsf, hturn⟩ hturns, hend⟩

/-! What the turns leave alone. -/

/-- What the turns of the walk may change: of the working state the record and the offset, and of the Decoder's state
the calibration. -/
structure WalkWrites (p q : Pipe) : Prop where
  work : q.w = { p.w with record := q.w.record, off := q.w.off }
  draws : q.draws = p.draws
  stage : q.dc.stage = p.dc.stage
  rsOk : q.dc.rsOk = p.dc.rsOk

/-- A merge leaves the run status and the Reed–Solomon status alone. -/
theorem calMerge_stage_rsOk {c : Cfg} {k : Byte} {data : List Byte} {dc dc' : Decoder}
    (h : calMerge c k data dc = .ok dc') : dc'.stage = dc.stage ∧ dc'.rsOk = dc.rsOk := by
  obtain ⟨-, rfl⟩ | ⟨-, -, rfl⟩ := calMerge_cases h
  · exact ⟨rfl, rfl⟩
  · exact ⟨calCompleteCheck_stage _, calCompleteCheck_rsOk _⟩

/-- A subframe leaves the run status and the Reed–Solomon status alone. -/
theorem subframeTurn_stage_rsOk {k : SubKind} {payload : List Byte} {crc : Half} {c : Cfg} {p q : Pipe}
    (h : subframeTurn (actOf k) payload crc c p = .ok q) : q.dc.stage = p.dc.stage ∧ q.dc.rsOk = p.dc.rsOk := by
  obtain ⟨-, m, hact, rfl⟩ | ⟨-, rfl⟩ := subframeTurn_cases h
  · obtain hdc | ⟨n, data, hmerge⟩ := actOf_dc hact
    · exact ⟨congrArg Decoder.stage hdc, congrArg Decoder.rsOk hdc⟩
    · exact calMerge_stage_rsOk hmerge
  · exact ⟨rfl, rfl⟩

/-- One turn. -/
theorem WalkTurn.writes {c : Cfg} {p q : Pipe} (h : WalkTurn c p q) : WalkWrites p q := by
  obtain ⟨sf, -, hturn⟩ := h
  obtain ⟨hstage, hrsOk⟩ := subframeTurn_stage_rsOk hturn
  obtain ⟨dc, record, rfl⟩ := subframeTurn_frame hturn
  exact ⟨rfl, rfl, hstage, hrsOk⟩

/-- Any number of turns. -/
theorem WalkWrites.of_turns {c : Cfg} {p q : Pipe} (h : Relation.ReflTransGen (WalkTurn c) p q) : WalkWrites p q := by
  induction h with
  | refl => exact ⟨rfl, rfl, rfl, rfl⟩
  | tail _ hturn ih =>
    obtain ⟨hwork, hdraws, hstage, hrsOk⟩ := hturn.writes
    exact ⟨by rw [hwork, ih.work], hdraws.trans ih.draws, hstage.trans ih.stage, hrsOk.trans ih.rsOk⟩

/-! The offset (44_subframe_parser.md R174, R192). -/

/-- The turns keep the offset within the region: a subframe that is taken ends inside it. -/
theorem off_le_of_turns {c : Cfg} {p q : Pipe} (h : Relation.ReflTransGen (WalkTurn c) p q)
    (hin : p.w.off ≤ p.w.regionLen) : q.w.off ≤ q.w.regionLen := by
  induction h with
  | refl => exact hin
  | tail _ hturn _ =>
    obtain ⟨sf, hsf, hturn⟩ := hturn
    obtain ⟨dc, record, rfl⟩ := subframeTurn_frame hturn
    exact fetchSubframe_fits hsf

/-- What the decoder refuses is less than a header, or less than the bytes that the walk would step over, which are at
most those of the longest payload. -/
theorem length_lt_of_decodeSubframe_error {c : Cfg} (hover : 4 ≤ c.sfOverhead) {bytes : List Byte} {e : DecodeError}
    (h : decodeSubframe c bytes = .error e) : bytes.length < 255 + c.sfOverhead := by
  match bytes with
  | [] | [_] =>
    simp only [List.length_nil, List.length_singleton]
    omega
  | tag :: len :: rest =>
    have hlen := len.isLt
    obtain ⟨-, hlt⟩ | ⟨-, hfits, hlt⟩ := decodeSubframe_cons_error_iff.1 h <;> omega

/-- Where no subframe is taken, less than the longest subframe is left of the region. -/
theorem regionLen_lt_of_walkEnd {c : Cfg} (hover : 4 ≤ c.sfOverhead) {w : Work}
    (h : fetchSubframe c w = .ok none) : w.regionLen < w.off + 255 + c.sfOverhead := by
  obtain ⟨reg, hreg, h⟩ := (bind_ok_iff _ _ _).1 h
  have hlen : reg.length = w.regionLen := slice_length hreg
  cases hd : decodeSubframe c (reg.drop w.off) with
  | ok found => simp [hd] at h
  | error e =>
    have hleft := length_lt_of_decodeSubframe_error hover hd
    rw [List.length_drop] at hleft
    omega

/-! The model's stage, which no turn reads (notes/assumptions/2.md). -/

/-- The pipe at another line of DEC_FRAME. -/
def Pipe.withStage (p : Pipe) (st : Stage) : Pipe := { p with w := { p.w with stage := st } }

/-- An operation on the pipe that does not read the stage. -/
def IgnoresStage (f : Pipe → Except Fault Pipe) : Prop :=
  ∀ p st, f (p.withStage st) = (f p).map (·.withStage st)

/-- A read that comes first and is not of the pipe's stage. -/
theorem map_bind_withStage {α : Type} (x : Except Fault α) (f : α → Except Fault Pipe) (st : Stage) :
    (x >>= f).map (·.withStage st) = x >>= fun a => (f a).map (·.withStage st) := by
  cases x <;> rfl

/-- What a subframe does. -/
theorem IgnoresStage.actOf (k : SubKind) (c : Cfg) (payload : List Byte) : IgnoresStage (actOf k c payload) := by
  intro p st
  cases k with
  | status =>
    simp only [Machine.actOf, statusAct]
    split
    · rfl
    · simp only [map_bind_withStage]
      rfl
  | gpspos =>
    simp only [Machine.actOf, gpsposAct]
    split
    · rfl
    · simp only [map_bind_withStage]
      rfl
  | ptu | gpsinfo | gpsraw | xdata | empty | unknown => rfl

/-- One turn of the walk. -/
theorem IgnoresStage.subframeTurn (k : SubKind) (payload : List Byte) (crc : Half) (c : Cfg) :
    IgnoresStage (subframeTurn (Machine.actOf k) payload crc c) := by
  intro p st
  simp only [Machine.subframeTurn]
  split
  · rw [IgnoresStage.actOf]
    cases Machine.actOf k c payload p <;> rfl
  · rfl

/-- The turns of the walk. -/
theorem IgnoresStage.walkLoop (c : Cfg) (fuel : Nat) : IgnoresStage (walkLoop c fuel) := by
  intro p st
  induction fuel generalizing p with
  | zero => rfl
  | succ fuel ih =>
    simp only [Machine.walkLoop, map_bind_withStage]
    congr 1
    funext found
    cases found with
    | none => rfl
    | some sf =>
      dsimp only
      rw [map_bind_withStage, IgnoresStage.subframeTurn]
      cases Machine.subframeTurn (Machine.actOf (subKind c sf.tag)) sf.payload sf.crc c p with
      | error e => rfl
      | ok q => exact ih q

/-! WALK. -/

/-- WALK inside a decode whose frame and layout fit answers what its turns from offset 0 leave. -/
theorem exec_walk {s : State} {w : Work} (hw : s.work = some w) (hc : LayoutBounds s.cfg) (hfits : RegionFits s.cfg w) :
    ∃ q, walkLoop s.cfg (w.regionLen + 1) ⟨s.dc, s.draws, { w with off := 0 }⟩ = .ok q ∧
      exec .walk s = .next (s.withPipe (q.withStage .deliver)) := by
  obtain ⟨q, hq⟩ := walkLoop_answers hc (w.regionLen + 1) (p := ⟨s.dc, s.draws, { w with off := 0 }⟩) hfits
    (Nat.zero_le _) (by simp)
  exact ⟨q, hq, onPipe_inside walkOp s w _ hw ((bind_ok_iff _ _ _).2 ⟨q, hq, rfl⟩)⟩

/-- Settles O50: the turns write the record, the offset and the calibration alone and end near the region's end; the
block's steps are the same turns at the stage of the walk, which they do not read. -/
theorem walkResult : Obligations.WalkResult := by
  intro s w hw ⟨_, hd, hl⟩ hfits
  have hc : LayoutBounds s.cfg := .of_ok hd hl
  obtain ⟨q, hq, hexec⟩ := exec_walk hw hc hfits
  obtain ⟨hturns, hend⟩ := walkLoop_turns hq
  obtain ⟨hwork, hdraws, hstage, hrsOk⟩ := WalkWrites.of_turns hturns
  have hregion : q.w.regionLen = w.regionLen := by rw [hwork]
  have hsteps := run_walkLoop (s := s.setWork (some { w with off := 0, stage := .walk })) rfl rfl
    ((IgnoresStage.walkLoop s.cfg _ ⟨s.dc, s.draws, { w with off := 0 }⟩ .walk).trans (congrArg _ hq))
  refine ⟨⟨q.dc, q.w.record, q.w.off, ?_, hstage, hrsOk, ?_, ?_⟩, ?_⟩
  · rw [hexec, State.withPipe, Pipe.withStage, hwork, hdraws]
    rfl
  · exact hregion ▸ off_le_of_turns hturns (Nat.zero_le _)
  · exact hregion ▸ regionLen_lt_of_walkEnd hc.overhead hend
  · rw [hexec]
    exact hsteps

end Sys2Proof.Machine
end

section
/-! PROOFS. DEC_FRAME of a frame answers (DecFrameDeliversOneRecord). -/

namespace Sys2Proof.Machine

/-- Settles O33: a running Decoder has a configuration that meets the decoder group and Q holds whole frames, so the
pipeline answers, and none of its writes is to the run status. -/
theorem decFrameDeliversOneRecord : Obligations.DecFrameDeliversOneRecord := by
  intro s f rest h hl hrun hq
  have hlen : f.frame.length = s.cfg.frameLen := h.link.frames f (hq ▸ List.mem_cons_self)
  obtain ⟨p, hp⟩ := decodePipeline_answers (.of_ok (h.decoder.runningOk hrun) hl)
    (p := ⟨s.dc, s.draws, startWork s.cfg f.frame⟩) hlen
  obtain ⟨hstage, -, -⟩ := (decodePipeline_writes hp).keeps
  exact ⟨p.dc, p.draws, p.w.record, execDecFrame_of_pipeline hrun hq hp, hstage.trans hrun⟩

end Sys2Proof.Machine
end

section
/-! PROOFS. The calibration merge (CalMergeResult, CalMergeOrderDoesNotMatter): a merge of a whole fragment as a
function of the Decoder's state, whose writes to different fragments do not meet. -/

namespace Sys2Proof.Machine

/-! Range writes into the store CAL. -/

/-- A range write repeated with as many bytes leaves what it left. -/
theorem Memory.setRange_setRange_same {m : Memory} (hm : m.wf = true) (o : Nat) (bytes : List Byte) :
    (m.setRange o bytes).setRange o bytes = m.setRange o bytes := by
  have hwf := Memory.setRange_wf m o bytes hm
  refine Memory.ext_of_get _ _ (Memory.setRange_wf _ _ _ hwf) hwf fun a => ?_
  rw [Memory.get_setRange hwf, Memory.get_setRange hm]
  split <;> rfl

/-- Writes to ranges that do not meet may come in either order. -/
theorem Memory.setRange_comm {m : Memory} (hm : m.wf = true) {o o' : Nat} {bytes bytes' : List Byte}
    (hdisj : o + bytes.length ≤ o' ∨ o' + bytes'.length ≤ o) :
    (m.setRange o' bytes').setRange o bytes = (m.setRange o bytes).setRange o' bytes' := by
  have hwf := Memory.setRange_wf m o bytes hm
  have hwf' := Memory.setRange_wf m o' bytes' hm
  refine Memory.ext_of_get _ _ (Memory.setRange_wf _ _ _ hwf') (Memory.setRange_wf _ _ _ hwf) fun a => ?_
  rw [Memory.get_setRange hwf', Memory.get_setRange hwf, Memory.get_setRange hm, Memory.get_setRange hm]
  split_ifs
  · omega
  all_goals rfl

/-- Fragments with distinct numbers do not meet. -/
theorem fragments_disjoint {k k' : Nat} (h : k ≠ k') (size : Nat) :
    k * size + size ≤ k' * size ∨ k' * size + size ≤ k * size := by
  rw [← Nat.succ_mul, ← Nat.succ_mul]
  exact (Nat.lt_or_gt_of_ne h).imp (Nat.mul_le_mul_right size) (Nat.mul_le_mul_right size)

/-! The merge as a function. -/

/-- The completion check by its effect on the flag (44_subframe_parser.md R179). -/
theorem calCompleteCheck_eq (dc : Decoder) :
    calCompleteCheck dc = { dc with calibrated := dc.calibrated || bitmapClear dc.bitmap } := by
  unfold calCompleteCheck
  split <;> simp [*]

/-- DC after a merge (44_subframe_parser.md R178). -/
def merged (c : Cfg) (k : Byte) (data : List Byte) (dc : Decoder) : Decoder :=
  if c.calFragCount ≤ k.toNat then dc
  else
    { dc with
      cal := dc.cal.setRange (k.toNat * c.calFragSize) data
      bitmap := dc.bitmap.set k.toNat false
      calibrated := dc.calibrated || bitmapClear (dc.bitmap.set k.toNat false) }

/-- A fragment number outside the block. -/
theorem merged_of_le {c : Cfg} {k : Byte} (h : c.calFragCount ≤ k.toNat) (data : List Byte) (dc : Decoder) :
    merged c k data dc = dc := if_pos h

/-- A fragment number inside the block. -/
theorem merged_of_lt {c : Cfg} {k : Byte} (h : k.toNat < c.calFragCount) (data : List Byte) (dc : Decoder) :
    merged c k data dc =
      { dc with
        cal := dc.cal.setRange (k.toNat * c.calFragSize) data
        bitmap := dc.bitmap.set k.toNat false
        calibrated := dc.calibrated || bitmapClear (dc.bitmap.set k.toNat false) } := if_neg (not_le.2 h)

/-- R4 makes the block as long as its fragments (00_scope.md R4). -/
theorem Cfg.decoderOk_calLen {c : Cfg} (h : c.decoderOk = true) : c.calLen = c.calFragCount * c.calFragSize := by
  simp only [Cfg.decoderOk, Bool.and_eq_true, decide_eq_true_eq, and_assoc] at h
  obtain ⟨-, -, -, -, -, -, -, -, hcal, -⟩ := h
  exact hcal.trans (Nat.mul_comm _ _)

/-- A merge of a whole fragment answers that state. -/
theorem calMerge_eq_merged {c : Cfg} (hd : c.decoderOk = true) (k : Byte) {data : List Byte}
    (hdata : data.length = c.calFragSize) (dc : Decoder) : calMerge c k data dc = .ok (merged c k data dc) := by
  obtain ⟨dc', h⟩ := calMerge_answers (Cfg.decoderOk_calLen hd) k hdata dc
  rw [h]
  obtain ⟨hk, rfl⟩ | ⟨hk, -, rfl⟩ := calMerge_cases h
  · rw [merged_of_le hk]
  · rw [merged_of_lt hk, calCompleteCheck_eq]

/-- CAL_MERGE of a whole fragment puts that state in place. -/
theorem exec_calMerge {s : State} (hd : s.cfg.decoderOk = true) (k : Byte) {data : List Byte}
    (hdata : data.length = s.cfg.calFragSize) :
    exec (.calMerge k data) s = .next (s.setDc (merged s.cfg k data s.dc)) := by
  simp only [exec, execCalMerge, calMerge_eq_merged hd k hdata]

/-- CAL_MERGE of a whole fragment from the same block with another DC. -/
theorem exec_calMerge_setDc {s : State} (hd : s.cfg.decoderOk = true) (k : Byte) {data : List Byte}
    (hdata : data.length = s.cfg.calFragSize) (dc : Decoder) :
    exec (.calMerge k data) (s.setDc dc) = .next (s.setDc (merged s.cfg k data dc)) :=
  exec_calMerge (s := s.setDc dc) hd k hdata

/-- Settles O54: a merge of a whole fragment answers, byte by byte as R178 has it. -/
theorem calMergeResult : Obligations.CalMergeResult := by
  intro s k data hd hwf hdata
  refine ⟨⟨_, exec_calMerge hd k hdata, calMerge_mergesFragment hwf hdata (calMerge_eq_merged hd k hdata s.dc)⟩,
    fun hk => ?_⟩
  rw [exec_calMerge hd k hdata, merged_of_le hk]
  rfl

/-! Repeated and exchanged merges (44_subframe_parser.md R178). -/

/-- The flag after two cleared bits is that of both together: what is clear after the first stays clear. -/
theorem bitmapClear_set_or (bitmap : List Bool) (k k' : Nat) (flag : Bool) :
    ((flag || bitmapClear (bitmap.set k false)) || bitmapClear ((bitmap.set k false).set k' false)) =
      (flag || bitmapClear ((bitmap.set k false).set k' false)) := by
  cases h : bitmapClear (bitmap.set k false) with
  | false => rw [Bool.or_false]
  | true => rw [bitmapClear_set_false k' h, Bool.or_true, Bool.or_true]

/-- A merge repeated at once. -/
theorem merged_merged_same (c : Cfg) (k : Byte) (data : List Byte) {dc : Decoder} (hwf : dc.cal.wf = true) :
    merged c k data (merged c k data dc) = merged c k data dc := by
  obtain hk | hk := le_or_gt c.calFragCount k.toNat
  · rw [merged_of_le hk]
  · simp only [merged_of_lt hk, Memory.setRange_setRange_same hwf, List.set_set, Bool.or_assoc, Bool.or_self]

/-- Merges of whole fragments with distinct numbers. -/
theorem merged_comm {c : Cfg} {k k' : Byte} (hne : k ≠ k') {data data' : List Byte}
    (hdata : data.length = c.calFragSize) (hdata' : data'.length = c.calFragSize) {dc : Decoder}
    (hwf : dc.cal.wf = true) :
    merged c k data (merged c k' data' dc) = merged c k' data' (merged c k data dc) := by
  obtain hk | hk := le_or_gt c.calFragCount k.toNat
  · simp only [merged_of_le hk]
  obtain hk' | hk' := le_or_gt c.calFragCount k'.toNat
  · simp only [merged_of_le hk']
  have hne : k.toNat ≠ k'.toNat := mt BitVec.eq_of_toNat_eq hne
  have hdisj := fragments_disjoint hne c.calFragSize
  simp only [merged_of_lt hk, merged_of_lt hk', bitmapClear_set_or]
  rw [Memory.setRange_comm hwf (by rwa [hdata, hdata']), List.set_comm _ _ hne]

/-- Settles O55: both merges are functions of the Decoder's state, which do not change when repeated, and commute where
the numbers differ. -/
theorem calMergeOrderDoesNotMatter : Obligations.CalMergeOrderDoesNotMatter := by
  intro s m k k' data data' hd hwf hdata hdata' h
  obtain rfl : s.setDc (merged s.cfg k data s.dc) = m := by
    rw [exec_calMerge hd k hdata] at h
    exact Host.Outcome.next.inj h
  refine ⟨?_, fun hne => ⟨_, exec_calMerge hd k' hdata', ?_⟩⟩
  · rw [exec_calMerge_setDc hd k hdata, merged_merged_same _ _ _ hwf]
  · rw [exec_calMerge_setDc hd k hdata, exec_calMerge_setDc hd k' hdata', merged_comm hne hdata hdata' hwf]

end Sys2Proof.Machine
end

section
/-! PROOFS. The subframes that only move the offset, and the completion check, the burst-kill timer and the delivery
(SubframesThatOnlyMoveTheOffset, CheckBurstkillDeliverResults). -/

namespace Sys2Proof.Machine

/-- Inside a decode, a subframe that would change nothing with a CRC that holds moves the offset past it
(44_subframe_parser.md R175). -/
theorem onPipe_subframeTurn_idle {act : Cfg → List Byte → Pipe → Except Fault Pipe} {payload : List Byte}
    {crc : Half} {s : State} {w : Work} (hw : s.work = some w)
    (hact : crcGate s.cfg payload crc = true → act s.cfg payload ⟨s.dc, s.draws, w⟩ = .ok ⟨s.dc, s.draws, w⟩) :
    onPipe (subframeTurn act payload crc) s =
      .next (s.setWork (some { w with off := w.off + payload.length + s.cfg.sfOverhead })) := by
  refine onPipe_inside _ s w (advance s.cfg payload ⟨s.dc, s.draws, w⟩) hw ?_
  rw [subframeTurn]
  split
  · rw [hact ‹_›]
    rfl
  · rfl

/-- Settles O53: six kinds act on nothing, the two acting kinds do so below their minimum length, and no kind acts
where the CRC fails. -/
theorem subframesThatOnlyMoveTheOffset : Obligations.SubframesThatOnlyMoveTheOffset := by
  intro s w tag payload crc hw stepped
  have hnone (k : SubKind) (hcrc : crcGate s.cfg payload crc = false) :
      onPipe (subframeTurn (actOf k) payload crc) s = stepped :=
    onPipe_subframeTurn_idle hw fun hgate => absurd (hcrc.symm.trans hgate) (by decide)
  refine ⟨?_, ?_, ?_, ?_, ?_, ?_, fun hshort => ?_, fun hshort => ?_,
    fun hcrc => ⟨hnone .status hcrc, hnone .gpspos hcrc⟩⟩
  · exact onPipe_subframeTurn_idle (act := ptuAct) hw fun _ => rfl
  · exact onPipe_subframeTurn_idle (act := gpsinfoAct) hw fun _ => rfl
  · exact onPipe_subframeTurn_idle (act := gpsrawAct) hw fun _ => rfl
  · exact onPipe_subframeTurn_idle (act := xdataAct) hw fun _ => rfl
  · exact onPipe_subframeTurn_idle (act := emptyAct) hw fun _ => rfl
  · exact onPipe_subframeTurn_idle (act := unknownAct) hw fun _ => rfl
  · exact onPipe_subframeTurn_idle (act := statusAct) hw fun _ => if_pos hshort
  · exact onPipe_subframeTurn_idle (act := gpsposAct) hw fun _ => if_pos hshort

/-- BURSTKILL inside a decode leaves the timer of the calibration block (44_subframe_parser.md R180). -/
theorem exec_burstkill {s : State} {w : Work} (hw : s.work = some w) (h : s.cfg.bkCalOffset + 2 ≤ s.cfg.calLen) :
    exec .burstkill s = .next (s.setWork (some { w with burst := burstkillValue s.cfg s.dc.cal })) := by
  refine onPipe_inside burstkillOp s w ⟨s.dc, s.draws, { w with burst := burstkillValue s.cfg s.dc.cal }⟩ hw ?_
  rw [burstkillOp, burstkill_eq_value h]
  rfl

/-- Settles O56: the check by its effect on the flag, the timer by its two bytes, and the delivery by the working
state's record. -/
theorem checkBurstkillDeliverResults : Obligations.CheckBurstkillDeliverResults := by
  intro s
  refine ⟨?_, fun w hw => ⟨exec_burstkill hw, ?_⟩⟩
  · simp only [exec, execCalCompleteCheck, calCompleteCheck_eq, bitmapClear, beq_false]
  · simp only [exec, execDeliverRecord, hw, deliver]

end Sys2Proof.Machine
end

section
/-! PROOFS. Every run of enabled agent steps ends (EveryRunOfAgentStepsEnds): each step lowers one number, which counts
what the two agents still have before them. -/

namespace Sys2Proof.Machine

/-- The searches that a phase has before its next frame: FR_CORRELATE is still to come in READ alone (40_framer.md
R103). -/
def Phase.pendingSearches : Phase → Nat
  | .read => 1
  | .deoffset => 0

/-- What the agents still have before them: the items of IN, the bits buffered, the frames of Q, and the search of
the Framer. An item of IN weighs more than the eight bits that FR_PULL makes of a byte. -/
def pendingWork (s : State) : Nat :=
  9 * s.inp.length + s.fr.cur + s.q.items.length + s.fr.phase.pendingSearches

/-! What each step leaves of it. -/

/-- FR_PULL makes eight bits of an item. -/
theorem pendingWork_pull {s : State} {v : Byte} {rest : List InItem} (hin : s.inp = .byte v :: rest) :
    pendingWork ((s.setInp rest).setFr { s.fr with buf := s.fr.buf ++ bitsOf v }) < pendingWork s := by
  have hbits : (s.fr.buf ++ bitsOf v).length = s.fr.buf.length + 8 := List.length_append
  have hinp : s.inp.length = rest.length + 1 := congrArg List.length hin
  simp only [pendingWork, Framer.cur, State.setFr_inp, State.setFr_fr, State.setFr_q, State.setInp_inp, State.setInp_q]
  omega

/-- FR_CORRELATE makes the search. -/
theorem pendingWork_correlate {s : State} (hp : s.fr.phase = .read) (off : Nat) (inv : Bool) :
    pendingWork (s.setFr { s.fr with syncOff := off, inv := inv, phase := .deoffset }) < pendingWork s := by
  simp [pendingWork, Framer.cur, Phase.pendingSearches, hp]

/-- FR_EMIT makes of more than two bits one frame and a search to come. -/
theorem pendingWork_emit {s : State} {n : Nat} (hn : 2 < n) (hcur : n ≤ s.fr.cur) (f : QFrame)
    (ftrace : List Published) :
    pendingWork (((s.setQ { s.q with items := s.q.items ++ [f] }).setFtrace ftrace).setFr
      { s.fr with buf := s.fr.buf.drop n, phase := .read }) < pendingWork s := by
  have hbits : (s.fr.buf.drop n).length = s.fr.cur - n := List.length_drop
  have hitems : (s.q.items ++ [f]).length = s.q.items.length + 1 := List.length_append
  calc _ = 9 * s.inp.length + (s.fr.buf.drop n).length + (s.q.items ++ [f]).length + 1 := rfl
    _ < 9 * s.inp.length + s.fr.cur + s.q.items.length := by omega
    _ ≤ pendingWork s := Nat.le_add_right _ _

/-- An error entry leaves no bits, and a search to come. -/
theorem pendingWork_raiseError (code : ErrCode) (s : State) :
    pendingWork (raiseError code s) = 9 * s.inp.length + s.q.items.length + 1 := rfl

/-- DEC_FRAME takes a frame of Q. -/
theorem pendingWork_consumed {s : State} (hne : s.q.items ≠ []) (p : Pipe) :
    pendingWork (s.consumed p) < pendingWork s := by
  have htail : s.q.items.tail.length < s.q.items.length :=
    List.length_tail.trans_lt (Nat.sub_one_lt (List.length_pos_iff.2 hne).ne')
  exact Nat.add_lt_add_right (Nat.add_lt_add_left htail _) _

/-! Each enabled step lowers it. -/

/-- A frame that is ready ends at a buffered bit, and beyond the second one: the framer group gives it eight bits or
more (00_scope.md R4). -/
theorem frameEnd_bounds {c : Cfg} (hc : c.framerOk = true) {fr : Framer} (hr : frameReady c fr = true) :
    2 < fr.syncOff + c.frameBits ∧ fr.syncOff + c.frameBits ≤ fr.cur := by
  obtain ⟨hsync, hframe⟩ := Cfg.framerOk_lengths hc
  exact ⟨by omega, ((frameReady_iff c fr).1 hr).2⟩

/-- The Framer's enabled step, by its row of R100's table. -/
theorem pendingWork_framerStep {s t : State} {i : Instr} (hc : s.cfg.framerOk = true) (hi : framerStep s = some i)
    (h : exec i s = .next t) : pendingWork t < pendingWork s := by
  obtain ⟨rfl, hen⟩ | ⟨rfl, hen⟩ | ⟨rfl, hen⟩ | ⟨rfl, hen⟩ | ⟨rfl, hen⟩ := framerStep_cases hi
  · obtain ⟨-, -, v, rest, hin⟩ := (frPullEnabled_iff s).1 hen
    cases (execFrPull_enabled hen hin).symm.trans h
    exact pendingWork_pull hin
  · obtain ⟨-, -, rest, hin⟩ := (frReadFailEnabled_iff s).1 hen
    cases (show execFrReadFail s = _ from if_pos hen).symm.trans h
    rw [pendingWork_raiseError, State.setInp_inp, State.setInp_q, pendingWork, hin, List.drop_one, List.tail_cons,
      List.length_cons]
    omega
  · obtain ⟨-, hp, -⟩ := (frCorrelateEnabled_iff s).1 hen
    cases (execFrCorrelate_enabled hen).symm.trans h
    exact pendingWork_correlate hp _ _
  · obtain ⟨-, hr, -, -⟩ := (frEmitEnabled_iff s).1 hen
    obtain ⟨hlow, hcur⟩ := frameEnd_bounds hc hr
    cases (execFrEmit_enabled hen).symm.trans h
    exact pendingWork_emit hlow hcur _ _
  · obtain ⟨-, hr, -⟩ := (frPublishFailEnabled_iff s).1 hen
    obtain ⟨hlow, hcur⟩ := frameEnd_bounds hc hr
    cases (show execFrPublishFail s = _ from if_pos hen).symm.trans h
    rw [pendingWork_raiseError, pendingWork]
    omega

/-- An enabled step of either agent lowers the pending work. -/
theorem AgentStep.pendingWork_lt {s t : State} (hc : s.cfg.framerOk = true) (h : AgentStep s t) :
    pendingWork t < pendingWork s := by
  obtain ⟨i, hi, ht⟩ | ⟨hen, ht⟩ := h
  · exact pendingWork_framerStep hc hi ht
  · obtain ⟨f, rest, p, -, hq, -, rfl⟩ := execDecFrame_enabled_next hen ht
    exact pendingWork_consumed (by simp [hq]) p

/-- The agents do not write the configuration. -/
theorem AgentStep.cfg_eq {s t : State} (h : AgentStep s t) : t.cfg = s.cfg := by
  obtain ⟨i, hi, ht⟩ | ⟨-, ht⟩ := h
  · exact (exec_framerSteps_frame (framerStep_mem hi) ht).1
  · exact execDecFrame_cfg ht

/-- Settles O26: by induction on the pending work, which every enabled step lowers and whose premise, the configuration,
every step keeps. -/
theorem everyRunOfAgentStepsEnds : Obligations.EveryRunOfAgentStepsEnds := by
  intro s
  induction s using (measure pendingWork).wf.induction with
  | h s ih => exact fun hc => Acc.intro s fun t ht => ih t (ht.pendingWork_lt hc) (ht.cfg_eq ▸ hc)

end Sys2Proof.Machine
end

section
/-! PROOFS. What the host operations do where their conditions hold, and that they and the agents' steps do nothing where
theirs fail (HostOperationResults, RefusedAndDisabledOperationsChangeNothing,
ReconfigurationLeavesNothingOfTheOldSource). -/

namespace Sys2Proof.Machine

/-! The host operations that have a precondition (45_stage_control.md R205, R206). -/

/-- REBIND of a stopped Framer discards the input. -/
theorem execRebindFramer_stopped {s : State} (h : s.fr.stage = .stopped) :
    execRebindFramer s = .next (s.setInp []) := if_pos h

/-- RESUME of a stopped Framer sets it running and reopens the output. -/
theorem execResumeFramer_stopped {s : State} (h : s.fr.stage = .stopped) :
    execResumeFramer s = .next (returnFromError s) := if_pos h

/-- A running stage is not stopped. -/
theorem RunStatus.ne_stopped {stage : RunStatus} (h : stage = .running) : stage ≠ .stopped := by
  rw [h]
  decide

/-- Settles O57: the operations without a precondition by definition, the others by the branch where theirs holds. -/
theorem hostOperationResults : Obligations.HostOperationResults := by
  intro s
  exact ⟨fun _ => rfl, rfl, rfl, rfl, rfl,
    fun hs => ⟨execRebindFramer_stopped hs, execResumeFramer_stopped hs⟩, fun hs hok => if_pos ⟨hs, hok⟩⟩

/-! Steps that are not enabled. -/

/-- A Framer step that is not the selected one is not enabled, and waits (40_framer.md R112). -/
theorem exec_framerSteps_waits {s : State} {i : Instr} (hi : i ∈ framerSteps) (h : framerStep s ≠ some i) :
    exec i s = .next s := by
  obtain rfl | rfl | rfl | rfl | rfl := (mem_framerSteps i).1 hi
  · exact if_neg (mt (framerStep_eq_frPull_iff s).2 h)
  · exact if_neg (mt (framerStep_eq_frReadFail_iff s).2 h)
  · exact if_neg (mt (framerStep_eq_frCorrelate_iff s).2 h)
  · exact if_neg (mt (framerStep_eq_frEmit_iff s).2 h)
  · exact if_neg (mt (framerStep_eq_frPublishFail_iff s).2 h)

/-- DEC_FRAME is not enabled where the Decoder is stopped or Q is empty (44_subframe_parser.md R170). -/
theorem decFrameEnabled_eq_false {s : State} (h : s.dc.stage = .stopped ∨ s.q.items = []) :
    decFrameEnabled s = false := by
  obtain hs | hq := h
  · simp [decFrameEnabled, hs]
  · simp [decFrameEnabled, hq]

/-- DEC_FRAME waits where it is not enabled. -/
theorem execDecFrame_waits {s : State} (h : decFrameEnabled s = false) : execDecFrame s = .next s :=
  if_neg (Bool.not_eq_true _ ▸ h)

/-- RESUME DECODER is refused where the Decoder runs or the configuration fails the decoder group. -/
theorem execResumeDecoder_refused {s : State} (h : s.dc.stage = .running ∨ s.cfg.decoderOk = false) :
    execResumeDecoder s = .next s := by
  refine if_neg fun ⟨hs, hok⟩ => ?_
  obtain hrun | hbad := h
  · exact RunStatus.ne_stopped hrun hs
  · cases hbad.symm.trans hok

/-- Settles O58: each operation takes the branch where its condition fails. -/
theorem refusedAndDisabledOperationsChangeNothing : Obligations.RefusedAndDisabledOperationsChangeNothing := by
  intro s
  refine ⟨fun hs => ⟨?_, ?_⟩, execResumeDecoder_refused, fun cfg hcfg => ?_, fun i => exec_framerSteps_waits,
    fun h => execDecFrame_waits (decFrameEnabled_eq_false h)⟩
  · exact if_neg (RunStatus.ne_stopped hs)
  · exact if_neg (RunStatus.ne_stopped hs)
  · exact if_neg (by simp [hcfg])

/-- Settles O59: QUIESCE leaves the reset Framer, which is stopped, so that neither REBIND nor RESUME is refused. -/
theorem reconfigurationLeavesNothingOfTheOldSource : Obligations.ReconfigurationLeavesNothingOfTheOldSource := by
  intro s bytes
  have hstopped : Framer.reset.stage = .stopped := rfl
  exact ⟨s.setFr Framer.reset, (s.setFr Framer.reset).setInp [],
    (s.setFr Framer.reset).setInp (bytes.map .byte), rfl, execRebindFramer_stopped hstopped, rfl,
    execResumeFramer_stopped hstopped⟩

end Sys2Proof.Machine
end

section
/-! PROOFS. The two error entries (ReadErrorEntry, PublishErrorEntry), and that no other step but RESET writes ERRS
(ErrorEntriesArePrecise). -/

namespace Sys2Proof.Machine

/-! The steps that take an error event, where they are enabled. -/

/-- FR_READ_FAIL where it is enabled: END is consumed and ReadError is taken (60_exceptions.md R222). -/
theorem execFrReadFail_enabled {s : State} {rest : List InItem} (hen : frReadFailEnabled s = true)
    (hin : s.inp = .eos :: rest) : execFrReadFail s = .next (raiseError .eRead (s.setInp rest)) := by
  rw [execFrReadFail, if_pos hen, hin, List.drop_one, List.tail_cons]

/-- FR_PUBLISH_FAIL where it is enabled: PublishError is taken (60_exceptions.md R223). -/
theorem execFrPublishFail_enabled {s : State} (hen : frPublishFailEnabled s = true) :
    execFrPublishFail s = .next (raiseError .ePublish s) := if_pos hen

/-- Settles O13: FR_READ_FAIL where it is enabled, its error entry written out. -/
theorem readErrorEntry : Obligations.ReadErrorEntry := by
  intro s rest hs hn hin
  exact execFrReadFail_enabled ((frReadFailEnabled_iff s).2 ⟨hs, hn, rest, hin⟩) hin

/-- Settles O14: FR_PUBLISH_FAIL where it is enabled, its error entry written out. -/
theorem publishErrorEntry : Obligations.PublishErrorEntry := by
  intro s hs hp hcur hclosed
  exact execFrPublishFail_enabled ((frPublishFailEnabled_iff s).2 ⟨hs, (frameReady_iff _ _).2 ⟨hp, hcur⟩, hclosed⟩)

/-! How a step may move ERRS. -/

/-- A whole error entry of the running Framer, which touches neither Q, the Decoder nor the other traces
(60_exceptions.md R221, R229). -/
def ErrorEntry (s t : State) : Prop :=
  (∃ code, t.errs = s.errs ++ [(.framer, code)]) ∧ s.fr.stage = .running ∧
    t.fr = ⟨.stopped, .read, [], 0, false⟩ ∧ t.q = s.q ∧ t.dc = s.dc ∧ t.recs = s.recs ∧ t.ftrace = s.ftrace

/-- An error event taken by a running Framer, whatever it has consumed of IN, is an error entry. -/
theorem ErrorEntry.raiseError {s : State} (hs : s.fr.stage = .running) (code : ErrCode) (inp : List InItem) :
    ErrorEntry s (raiseError code (s.setInp inp)) :=
  ⟨⟨code, rfl⟩, hs, rfl, rfl, rfl, rfl, rfl⟩

/-- Of the Framer's steps, FR_READ_FAIL and FR_PUBLISH_FAIL take an error entry, and the others leave ERRS alone. -/
theorem exec_framerSteps_errs {i : Instr} {s t : State} (hi : i ∈ framerSteps) (h : exec i s = .next t) :
    t.errs = s.errs ∨ ErrorEntry s t := by
  obtain rfl | rfl | rfl | rfl | rfl := (mem_framerSteps i).1 hi
  · obtain ⟨-, rfl⟩ | ⟨v, rest, -, -, -, rfl⟩ := execFrPull_next h <;> exact .inl rfl
  · obtain ⟨-, rfl⟩ | ⟨rest, hs, -, -, rfl⟩ := execFrReadFail_next h
    · exact .inl rfl
    · exact .inr (.raiseError hs _ rest)
  · obtain ⟨-, rfl⟩ | ⟨-, -, -, rfl⟩ := execFrCorrelate_next h <;> exact .inl rfl
  · obtain ⟨-, rfl⟩ | ⟨-, -, -, -, rfl⟩ := execFrEmit_next h <;> exact .inl rfl
  · obtain ⟨-, rfl⟩ | ⟨hs, -, -, rfl⟩ := execFrPublishFail_next h
    · exact .inl rfl
    · exact .inr (.raiseError hs _ s.inp)

/-! The Decoder raises no error (60_exceptions.md R220), and no host operation but RESET writes ERRS. -/

/-- No pipeline operation writes ERRS. -/
theorem onPipe_errs {f : Cfg → Pipe → Except Fault Pipe} {s t : State} (h : onPipe f s = .next t) :
    t.errs = s.errs := by
  obtain ⟨-, rfl⟩ | ⟨w, p, -, -, rfl⟩ := onPipe_next h <;> rfl

/-- No step inside a frame decode writes ERRS. -/
theorem decodeStep_errs {s t : State} {w : Work} (hw : s.work = some w) (h : decodeStep s w = .next t) :
    t.errs = s.errs := by
  cases hs : w.stage with
  | descramble =>
    simp only [decodeStep, hs] at h
    exact onPipe_errs (f := descrambleOp) h
  | fec =>
    simp only [decodeStep, hs] at h
    exact onPipe_errs (f := fecStageOp) h
  | mode => exact onPipe_errs ((decodeStep_mode hw hs).symm.trans h)
  | walk =>
    cases hf : fetchSubframe s.cfg w with
    | error e => cases (decodeStep_walkFault hs hf).symm.trans h
    | ok found =>
      cases found with
      | none =>
        cases (decodeStep_walkEnd hs hf).symm.trans h
        rfl
      | some sf => exact onPipe_errs ((decodeStep_subframe hs hf).symm.trans h)
  | deliver =>
    cases (decodeStep_deliver hw hs).symm.trans h
    rfl

/-- DEC_FRAME does not write ERRS. -/
theorem execDecFrame_errs {s t : State} (h : execDecFrame s = .next t) : t.errs = s.errs := by
  obtain ⟨-, rfl⟩ | ⟨f, rest, p, -, -, -, rfl⟩ := execDecFrame_next h <;> rfl

/-- The host operations other than RESET do not write ERRS. -/
theorem exec_hostOp_errs {op : HostOp} {s t : State} (hop : ∀ cfg, op ≠ .reset cfg)
    (h : exec op.toInstr s = .next t) : t.errs = s.errs := by
  cases op with
  | reset cfg => exact absurd rfl (hop cfg)
  | push | pushEnd | closeOutput | quiesceFramer | quiesceDecoder =>
    cases h
    rfl
  | rebindFramer => obtain ⟨-, rfl⟩ | ⟨-, rfl⟩ := execRebindFramer_next h <;> rfl
  | resumeFramer => obtain ⟨-, rfl⟩ | ⟨-, rfl⟩ := execResumeFramer_next h <;> rfl
  | resumeDecoder => obtain ⟨-, rfl⟩ | ⟨-, -, rfl⟩ := execResumeDecoder_next h <;> rfl

/-- Settles O29: by the kind of the step, of which the Framer's alone can take an error entry; that an event is taken
from the agenda, or a choice drawn, changes nothing an entry speaks of. -/
theorem errorEntriesArePrecise : Obligations.ErrorEntriesArePrecise := by
  intro s t hn h
  obtain ⟨w, hw, h⟩ | ⟨-, ⟨-, rfl⟩ | ⟨rest, -, h⟩ | ⟨rest, -, h⟩ | ⟨op, rest, ha, h⟩ | ⟨rest, -, h⟩⟩ := step_next h
  · exact .inl (decodeStep_errs hw h)
  · exact .inl rfl
  · unfold framerTurn at h
    split at h
    · exact exec_framerSteps_errs (s := s.setAgenda rest) (framerStep_mem ‹_›) h
    · cases h
      exact .inl rfl
  · exact .inl (execDecFrame_errs (s := s.setAgenda rest) h)
  · exact .inl (exec_hostOp_errs (s := s.setAgenda rest) (hn.ne_reset ha) h)
  · obtain ⟨-, -, rfl⟩ | ⟨i, n, hi, h⟩ | ⟨-, n, h⟩ := runTurn_next h
    · exact .inl rfl
    · exact exec_framerSteps_errs (s := s.setDraws n) (framerStep_mem hi) h
    · exact .inl (execDecFrame_errs (s := s.setDraws n) h)

end Sys2Proof.Machine
end

section
/-! PROOFS. RESET puts every component at its reset value (ResetPutsEveryComponent): where it is not refused it answers
one state, whose parts are the reset Framer, the reset Decoder and empty links and traces. -/

namespace Sys2Proof.Machine

/-- RESET with a configuration that meets the framer group is not refused (70_reset_and_hazards.md R250). -/
theorem execReset_accepted {cfg : Cfg} (h : cfg.framerOk = true) (s : State) :
    execReset cfg s = .next (State.resetWith cfg s.agenda s.draws) := if_pos h

/-- Nothing is buffered after reset. -/
@[simp] theorem Framer.reset_cur : Framer.reset.cur = 0 := rfl

/-- Every calibration byte reads 0x00 after reset, since CAL lists no address (10_state.md R28). -/
@[simp] theorem Decoder.reset_cal_get (c : Cfg) (a : Nat) : (Decoder.reset c).cal.get a = 0x00 := rfl

/-- Settles O6: RESET takes the branch that puts `State.resetWith` in place, and each component is read from that
state's Framer, from its Decoder, or from the state itself. -/
theorem resetPutsEveryComponent : Obligations.ResetPutsEveryComponent := by
  intro cfg s hcfg
  refine ⟨State.resetWith cfg s.agenda s.draws, execReset_accepted hcfg s, ?_⟩
  simp only [State.resetWith, Framer.reset_cur, Decoder.reset_cal_get]
  simp [Framer.reset, Decoder.reset]

end Sys2Proof.Machine
end
